-- ==== Sys2Proof/Word.lean ====
section
/-! DEFINITION. The machine's data sizes: bytes, 16-bit words, and the small bit fields the spec gives a width to. -/

namespace Sys2Proof

/-- Eight bits: what one byte address names (20_memory.md R40). -/
abbrev Byte := BitVec 8

/-- Sixteen bits: registers, memory words, instructions and byte addresses (00_scope.md R4, R5). -/
abbrev Word := BitVec 16

/-- A PIC line number, which is also a priority level, 0 to 7 (60_exceptions.md R216). -/
abbrev Line := BitVec 3

/-- An index into the interrupt vector table (00_scope.md R9). -/
abbrev Vector8 := BitVec 8

/-- A microsequencer state number, 0 to 63 (10_state.md R25). -/
abbrev UState := BitVec 6

end Sys2Proof
end

