-- ==== Sys2Proof/Config.lean ====
section
/-! DEFINITION. What one implementation fixes: the constants the source states, and the parameters it leaves open (00_scope.md R4). -/

namespace Sys2Proof.Config

/-- Lowest address of the reserved device-register range (00_scope.md R4). -/
def mmioLo : Word := 0xFE00#16

/-- Trap vector table base (20_memory.md R56). -/
def tvtBase : Word := 0x0000#16

/-- Interrupt vector table base (20_memory.md R56). -/
def ivtBase : Word := 0x0200#16

/-- OR-ed with a line number to form a device vector (60_exceptions.md R216). -/
def irqBase : Vector8 := 0x80#8

/-- The keyboard's break byte (60_exceptions.md R238). -/
def breakByte : Byte := 0x03#8

/-- Bit 15 of MCR, the clock enable, as a mask (60_exceptions.md R244). -/
def clockEnable : Word := 0x8000#16

end Sys2Proof.Config

namespace Sys2Proof

/-- The parameters of 00_scope.md R4 that a value is not fixed for. They never change while the machine runs
(10_state.md R32); a machine state carries them, so that a statement about every state is about every choice of them. -/
structure Params where
  /-- `MEM_DELAY`, busy ticks of one memory operation. -/
  memDelay : Nat
  /-- `DSP_DELAY`, the display's settle delay in ticks. -/
  dspDelay : Nat
  /-- `KBD_IRQ`, the keyboard's PIC line. -/
  kbdIrq : Line
  /-- `DSP_IRQ`, the display's PIC line. -/
  dspIrq : Line
  /-- `EXC_PRIV`, vector of Privilege Mode Violation. -/
  excPriv : Vector8
  /-- `EXC_ILLOP`, vector of Illegal Opcode: reserved, raised by no instruction of this revision (30_encoding.md R78). -/
  excIllOp : Vector8
  /-- `EXC_ILLADDR`, vector of Illegal Operand Address. -/
  excIllAddr : Vector8
  /-- `EXC_PRIORITY`, the priority an exception handler runs at. -/
  excPriority : Line
  /-- `JMP_ALIGN_CHECK`, whether JMP to an odd address raises Illegal Operand Address. -/
  jmpAlignCheck : Bool
  /-- `PIC_CMD_READ_IRR`. -/
  cmdReadIrr : Word
  /-- `PIC_CMD_READ_ISR`. -/
  cmdReadIsr : Word
  /-- `PIC_CMD_READ_IMR`. -/
  cmdReadImr : Word
  /-- `PIC_CMD_WRITE_IMR`. -/
  cmdWriteImr : Word
  deriving DecidableEq, Repr

/-- The values a machine has from `State.reset`: the defaults of 00_scope.md R4, and for the parameters it leaves OPEN
the values its test vectors use (95_test_vectors.md), DESIGN CHOICE, log entry 2. -/
def Params.default : Params where
  memDelay := 1
  dspDelay := 2
  kbdIrq := 4#3
  dspIrq := 3#3
  excPriv := 0x00#8
  excIllOp := 0x01#8
  excIllAddr := 0x02#8
  excPriority := 7#3
  jmpAlignCheck := true
  cmdReadIrr := 0#16
  cmdReadIsr := 1#16
  cmdReadImr := 2#16
  cmdWriteImr := 3#16

end Sys2Proof
end

