-- ==== Sys2Proof/Syntax.lean ====
section
/-! DEFINITION. The instruction set as syntax: one constructor per row of spec/opcode_table.json (30_encoding.md R71 to R75). -/

namespace Sys2Proof

/-- The eight general registers (10_state.md R10): `r6` is the current mode's stack pointer and `r7` the link (R11). -/
inductive Reg
  | r0 | r1 | r2 | r3 | r4 | r5 | r6 | r7
  deriving DecidableEq, Repr

/-- One constructor per row of the opcode table, in the table's order. An immediate is the field as encoded, before any
extension or scaling; a bit the hardware ignores (30_encoding.md R77) is no part of the instruction. -/
inductive Instr
  /-- ADD, register form (41_alu.md R110). -/
  | addReg (dr sr1 sr2 : Reg)
  /-- ADD, immediate form (R110). -/
  | addImm (dr sr1 : Reg) (imm5 : BitVec 5)
  /-- AND, register form (R111). -/
  | andReg (dr sr1 sr2 : Reg)
  /-- AND, immediate form (R111). -/
  | andImm (dr sr1 : Reg) (imm5 : BitVec 5)
  /-- XOR, register form (R112). -/
  | xorReg (dr sr1 sr2 : Reg)
  /-- XOR, immediate form (R112); NOT is its all-ones immediate (R113). -/
  | xorImm (dr sr1 : Reg) (imm5 : BitVec 5)
  /-- BR (43_control.md R160). -/
  | br (n z p : Bool) (off9 : BitVec 9)
  /-- LDB (42_load_store.md R130). -/
  | ldb (dr base : Reg) (off6 : BitVec 6)
  /-- STB (R133). -/
  | stb (sr base : Reg) (off6 : BitVec 6)
  /-- JSRR (43_control.md R164). -/
  | jsrr (base : Reg)
  /-- JSR (R163). -/
  | jsr (off11 : BitVec 11)
  /-- LDW (42_load_store.md R131). -/
  | ldw (dr base : Reg) (off6 : BitVec 6)
  /-- STW (R134). -/
  | stw (sr base : Reg) (off6 : BitVec 6)
  /-- RTI (43_control.md R167). -/
  | rti
  /-- LDI (42_load_store.md R132). -/
  | ldi (dr base : Reg) (off6 : BitVec 6)
  /-- STI (R135). -/
  | sti (sr base : Reg) (off6 : BitVec 6)
  /-- JMP (43_control.md R162); RET is JMP R7 (R165). -/
  | jmp (base : Reg)
  /-- SHF with D = 0: left (41_alu.md R114). -/
  | lshf (dr sr1 : Reg) (amount4 : BitVec 4)
  /-- SHF with D = 1, A = 0: logical right (R114). -/
  | rshfl (dr sr1 : Reg) (amount4 : BitVec 4)
  /-- SHF with D = 1, A = 1: arithmetic right (R114). -/
  | rshfa (dr sr1 : Reg) (amount4 : BitVec 4)
  /-- LEA (R115). -/
  | lea (dr : Reg) (off9 : BitVec 9)
  /-- TRAP (43_control.md R166). -/
  | trap (vect8 : BitVec 8)
  deriving DecidableEq, Repr

end Sys2Proof
end

