-- ==== Sys2Proof/Machine/State.lean ====
section
/-! DEFINITION. The machine's state as plain data: the CPU with its microsequencer, the memory unit, the interrupt
controller, the two devices, the machine-control register (10_state.md), and what the host supplies and collects. -/

namespace Sys2Proof.Machine

/-- Why the machine stops. -/
inductive Fault
  /-- Raised by a system tick in which the keyboard would take the break byte 0x03: the run ends there, before the byte
  is latched and before the PIC and the CPU tick (60_exceptions.md R238). The spec's own end of the run. Safe. -/
  | keyboardBreak
  /-- Raised by a CPU tick in a micro-state with no control-store entry, which only a corrupted launch state can hold
  (40_microsequencer.md R96). The spec asks for it. Safe. -/
  | unusedMicroState
  deriving DecidableEq, Repr

/-- Why an instruction has no meaning here. -/
inductive Refusal
  /-- Raised by an arm of `exec` whose instruction is not modelled yet; no arm is left so. Safe. -/
  | notModelled (mnemonic : String)
  deriving DecidableEq, Repr

/-- The privilege bit of the PSR: 0 is supervisor, 1 is user (10_state.md R15). -/
inductive Mode
  | supervisor | user
  deriving DecidableEq, Repr

/-- The processor status register's seven meaningful bits (10_state.md R15); `Psr.word` is its 16-bit view (R16). -/
structure Psr where
  /-- PSR bit 15. -/
  priv : Mode
  /-- PSR bits 10:8. -/
  priority : Line
  /-- PSR bit 2. -/
  n : Bool
  /-- PSR bit 1. -/
  z : Bool
  /-- PSR bit 0. -/
  p : Bool
  deriving DecidableEq, Repr

/-- The register file (10_state.md R10). -/
structure Regs where
  r0 : Word
  r1 : Word
  r2 : Word
  r3 : Word
  r4 : Word
  r5 : Word
  r6 : Word
  r7 : Word
  deriving DecidableEq, Repr

/-- The interrupt controller's registers (10_state.md R28). -/
structure Pic where
  /-- Requests, one bit a line. -/
  irr : BitVec 8
  /-- Lines in service. -/
  isr : BitVec 8
  /-- Mask: a 1 keeps the line from entering `irr`. -/
  imr : BitVec 8
  /-- The last command word written to ICCR. -/
  cmd : Word
  deriving DecidableEq, Repr

/-- The keyboard: KBSR bits 15 and 14 and the byte in KBDR (10_state.md R29). The other bits read as 0. -/
structure Keyboard where
  ready : Bool
  ie : Bool
  data : Byte
  deriving DecidableEq, Repr

/-- The display: DSR bits 15 and 14, the byte in DDR, and the settle counter (10_state.md R30). -/
structure Display where
  ready : Bool
  ie : Bool
  data : Byte
  settle : Nat
  deriving DecidableEq, Repr

/-- The whole machine. -/
structure State where
  /-- The parameters of 00_scope.md R4; no operation changes them. -/
  cfg : Params
  /-- `x[0]` to `x[7]` (10_state.md R10). -/
  regs : Regs
  /-- Program counter (R13). -/
  pc : Word
  /-- Processor status register (R15). -/
  psr : Psr
  /-- Saved supervisor stack pointer (R19). -/
  ssp : Word
  /-- Saved user stack pointer (R19). -/
  usp : Word
  /-- Instruction register (R20). -/
  ir : Word
  /-- Memory address register (R21). -/
  mar : Word
  /-- Memory data register (R22). -/
  mdr : Word
  /-- Branch-enable latch (R23). -/
  ben : Bool
  /-- Interrupt-pending latch (R24). -/
  intf : Bool
  /-- Latched vector (R24). -/
  intv : Vector8
  /-- Latched priority (R24). -/
  intp : Line
  /-- The microsequencer's state number, the spec's `state` (R25). -/
  ustate : UState
  /-- The memory array, as the bytes that differ from `Memory.unlisted`, addresses rising (R27). -/
  mem : List Host.Cell
  /-- Remaining delay ticks of the memory operation in progress (R27). -/
  busy : Nat
  /-- A read has been started and not completed (R27). -/
  rdEn : Bool
  /-- A write has been started and not completed (R27). -/
  wrEn : Bool
  /-- The interrupt controller (R28). -/
  pic : Pic
  /-- The keyboard (R29). -/
  kbd : Keyboard
  /-- The display (R30). -/
  dsp : Display
  /-- Machine-control register (R31). -/
  mcr : Word
  /-- The model's own: system ticks executed so far, by which the input stream's arrival times are told (R32). -/
  ticks : Nat
  /-- The model's own: the host's keyboard stream not yet read, each byte with the earliest tick it is there in (R32). -/
  input : List (Nat × Byte)
  /-- The model's own: the display's output sink, oldest byte first (R32). -/
  output : List Byte
  deriving DecidableEq, Repr

/-- The machine right after reset (70_reset_and_hazards.md R260): supervisor mode, priority 0, the fetch state, the clock
stopped, memory with nothing listed. The parameters are `Params.default` (log entry 2). -/
def State.reset : State where
  cfg := Params.default
  regs := { r0 := 0#16, r1 := 0#16, r2 := 0#16, r3 := 0#16, r4 := 0#16, r5 := 0#16, r6 := 0#16, r7 := 0#16 }
  pc := 0#16
  psr := { priv := .supervisor, priority := 0#3, n := false, z := false, p := false }
  ssp := 0#16
  usp := 0#16
  ir := 0#16
  mar := 0#16
  mdr := 0#16
  ben := false
  intf := false
  intv := 0#8
  intp := 0#3
  ustate := 18#6
  mem := []
  busy := 0
  rdEn := false
  wrEn := false
  pic := { irr := 0#8, isr := 0#8, imr := 0#8, cmd := 0#16 }
  kbd := { ready := false, ie := true, data := 0#8 }
  dsp := { ready := true, ie := false, data := 0#8, settle := 0 }
  mcr := 0#16
  ticks := 0
  input := []
  output := []

end Sys2Proof.Machine
end

