-- ==== Sys2Proof/Machine/ControlStore.lean ====
section
/-! DEFINITION. The control store and the next-state function (40_microsequencer.md R92 to R96). -/

namespace Sys2Proof.Machine

/-- The condition kinds of a control-store entry (40_microsequencer.md R93). -/
inductive Cond
  | addrMode | memReady | branchTaken | privilege | interruptPending
  deriving DecidableEq, Repr

/-- The bit each condition ORs into the next state (R93). -/
def Cond.mask : Cond → UState
  | .addrMode => 1#6
  | .memReady => 2#6
  | .branchTaken => 4#6
  | .privilege => 8#6
  | .interruptPending => 16#6

/-- A control-store entry (R92). -/
structure CsEntry where
  ird : Bool
  cond : Option Cond
  base : UState
  deriving DecidableEq, Repr

/-- An entry with no condition. -/
def csGoto (base : UState) : Option CsEntry := some ⟨false, none, base⟩

/-- An entry with a condition. -/
def csWhen (c : Cond) (base : UState) : Option CsEntry := some ⟨false, some c, base⟩

/-- The 64 entries in order; `none` for the seven unused states (R94, R96). -/
def controlStore : List (Option CsEntry) :=
  -- 0 to 7
  [csWhen .branchTaken 18#6, csGoto 18#6, csGoto 29#6, csGoto 24#6, csWhen .addrMode 20#6, csGoto 18#6, csGoto 25#6, csGoto 23#6]
  -- 8 to 15
  ++ [csWhen .privilege 36#6, csGoto 18#6, csGoto 56#6, csGoto 60#6, csGoto 18#6, csGoto 18#6, csGoto 18#6, csGoto 28#6]
  -- 16 to 23
  ++ [csWhen .memReady 16#6, csWhen .memReady 17#6, csWhen .interruptPending 33#6, csWhen .interruptPending 33#6,
      csGoto 18#6, csGoto 18#6, csGoto 18#6, csGoto 16#6]
  -- 24 to 31
  ++ [csGoto 17#6, csWhen .memReady 25#6, none, csGoto 18#6, csWhen .memReady 28#6, csWhen .memReady 29#6, csGoto 18#6, csGoto 18#6]
  -- 32 to 39
  ++ [some ⟨true, none, 0#6⟩, csWhen .memReady 33#6, csWhen .privilege 51#6, csGoto 32#6, csWhen .memReady 36#6, csGoto 41#6,
      csGoto 39#6, csGoto 40#6]
  -- 40 to 47
  ++ [csWhen .memReady 40#6, csWhen .memReady 41#6, csGoto 34#6, csGoto 47#6, csGoto 18#6, csGoto 37#6, none, csGoto 48#6]
  -- 48 to 55
  ++ [csWhen .memReady 48#6, csWhen .privilege 37#6, csGoto 52#6, csGoto 18#6, csWhen .memReady 52#6, none, csGoto 18#6, none]
  -- 56 to 63
  ++ [csWhen .memReady 56#6, none, csGoto 25#6, csGoto 18#6, csWhen .memReady 60#6, none, csGoto 23#6, none]

/-- A state's entry. -/
def csEntry (k : UState) : Option CsEntry := (controlStore[k.toNat]?).join

/-- A condition's signal, sampled after the micro-operation; `ready` is the `done` flag of this tick's memory call (R93). -/
def signal (c : Cond) (ready : Bool) (s : State) : Bool :=
  match c with
  | .addrMode => s.ir.getLsbD 11
  | .memReady => ready
  | .branchTaken => s.ben
  | .privilege => s.psr.priv == .user
  | .interruptPending => s.intf

/-- The next state (R92). -/
def CsEntry.next (e : CsEntry) (ready : Bool) (s : State) : UState :=
  if e.ird then (s.ir.extractLsb' 12 4).setWidth 6
  else match e.cond with
    | none => e.base
    | some c => if signal c ready s then e.base ||| c.mask else e.base

/-- Whether a state is a fetch state, 18 or 19 (R97, R102). -/
def isFetchState (k : UState) : Bool := k == 18#6 || k == 19#6

end Sys2Proof.Machine
end

