-- ==== Sys2Proof/Machine/Flags.lean ====
section
/-! DEFINITION. The PSR's 16-bit view, the condition flags and the branch condition (10_state.md R15 to R18). -/

namespace Sys2Proof.Machine

/-- The privilege bit as encoded (10_state.md R15). -/
def Mode.toBit : Mode → BitVec 1
  | .supervisor => 0#1
  | .user => 1#1

/-- The mode a privilege bit encodes (R15). -/
def Mode.ofBool (b : Bool) : Mode := if b then .user else .supervisor

/-- `PSR.word`: bit 15 `priv`, bits 10:8 `priority`, bits 2, 1, 0 `N`, `Z`, `P`, and 0 in every reserved bit (R16). -/
def Psr.word (s : Psr) : Word :=
  s.priv.toBit ++ 0#4 ++ s.priority ++ 0#5 ++ BitVec.ofBool s.n ++ BitVec.ofBool s.z ++ BitVec.ofBool s.p

/-- What writing `PSR.word` leaves: the reserved bits are ignored and the flags kept as they come (R16). -/
def Psr.ofWord (w : Word) : Psr where
  priv := Mode.ofBool (w.getLsbD 15)
  priority := w.extractLsb' 8 3
  n := w.getLsbD 2
  z := w.getLsbD 1
  p := w.getLsbD 0

/-- `setcc(v)`: N iff bit 15 is set, Z iff zero, P iff neither (R18). -/
def Psr.setcc (s : Psr) (v : Word) : Psr :=
  { s with
    n := v.getLsbD 15
    z := v == 0#16
    p := !v.getLsbD 15 && v != 0#16 }

/-- The decode state's branch condition, `(N & n) | (Z & z) | (P & p)` (40_microsequencer.md R101). -/
def branchEnable (n z p : Bool) (s : Psr) : Bool := (s.n && n) || (s.z && z) || (s.p && p)

end Sys2Proof.Machine
end

