-- ==== Sys2Proof/Machine/Interrupts.lean ====
section
/-! DEFINITION. The interrupt controller's operations (60_exceptions.md R216 to R223). -/

namespace Sys2Proof.Machine

/-- The bit of a line in the controller's registers (10_state.md R28). -/
def lineBit (l : Line) : BitVec 8 := 1#8 <<< l.toNat

/-- Whether a line's bit is set. -/
def hasLine (r : BitVec 8) (l : Line) : Bool := r.getLsbD l.toNat

/-- `pic.raise(l)`: refused while the line is masked or in service (60_exceptions.md R217). -/
def Pic.raise (c : Pic) (l : Line) : Pic :=
  if hasLine c.imr l || hasLine c.isr l then c else { c with irr := c.irr ||| lineBit l }

/-- `pic.finish(l)`: `ISR[l] <- 0` (R218). -/
def Pic.finish (c : Pic) (l : Line) : Pic := { c with isr := c.isr &&& ~~~lineBit l }

/-- The lines from 7 down to 0, the order of the scan (R219). -/
def scanOrder : List Line := [7#3, 6#3, 5#3, 4#3, 3#3, 2#3, 1#3, 0#3]

/-- The line a tick dispatches: none while an event is latched; otherwise the highest line in IRR above the priority (R219). -/
def Pic.select (c : Pic) (pending : Bool) (prio : Line) : Option Line :=
  if pending then none else scanOrder.find? (fun l => hasLine c.irr l && decide (prio.toNat < l.toNat))

/-- A dispatched line moves from IRR to ISR (R219). -/
def Pic.dispatch (c : Pic) (l : Line) : Pic :=
  { c with irr := c.irr &&& ~~~lineBit l, isr := c.isr ||| lineBit l }

/-- `pic.tick(pending, prio)`: the controller after the tick, and the pair it hands to the CPU (R219). -/
def Pic.tick (c : Pic) (pending : Bool) (prio : Line) : Pic × Option (Vector8 × Line) :=
  match c.select pending prio with
  | some l => (c.dispatch l, some (Config.irqBase ||| l.setWidth 8, l))
  | none => (c, none)

/-- What a load of ICDR gives: the register the command selects, 0 for any other command (R223). -/
def Pic.readData (c : Pic) (cfg : Params) : Word :=
  if c.cmd = cfg.cmdReadIrr then c.irr.setWidth 16
  else if c.cmd = cfg.cmdReadIsr then c.isr.setWidth 16
  else if c.cmd = cfg.cmdReadImr then c.imr.setWidth 16
  else 0#16

/-- What a store to ICDR does: IMR under the write-mask command, otherwise nothing (R223). -/
def Pic.writeData (c : Pic) (cfg : Params) (v : Word) : Pic :=
  if c.cmd = cfg.cmdWriteImr then { c with imr := v.extractLsb' 0 8 } else c

/-- `pic.reset()` (R220). -/
def Pic.reset (_ : Pic) : Pic := { irr := 0#8, isr := 0#8, imr := 0#8, cmd := 0#16 }

end Sys2Proof.Machine
end

