-- ==== Sys2Proof/Decode.lean ====
section
/-! DEFINITION. From bits to instructions and back: the formats, the opcode map and the fields of 30_encoding.md, the
decoder (total on words, rejecting by name bytes that hold no whole word), the encoder, and the rows of the opcode table. -/

namespace Sys2Proof

/-- The register a 3-bit field names (30_encoding.md R72). -/
def Reg.ofBits (f : BitVec 3) : Reg :=
  match f.toNat with
  | 0 => .r0 | 1 => .r1 | 2 => .r2 | 3 => .r3
  | 4 => .r4 | 5 => .r5 | 6 => .r6 | _ => .r7

/-- The 3-bit field that names a register (R72). -/
def Reg.toBits : Reg → BitVec 3
  | .r0 => 0#3 | .r1 => 1#3 | .r2 => 2#3 | .r3 => 3#3
  | .r4 => 4#3 | .r5 => 5#3 | .r6 => 6#3 | .r7 => 7#3

/-! The fields of an instruction word, by position (30_encoding.md R72). -/

/-- `IR[15:12]`. -/
def Word.opcode (w : Word) : BitVec 4 := w.extractLsb' 12 4
/-- `IR[11:9]`: DR, or SR of a store. -/
def Word.dr (w : Word) : Reg := Reg.ofBits (w.extractLsb' 9 3)
/-- `IR[8:6]`: SR1, or BaseR. -/
def Word.sr1 (w : Word) : Reg := Reg.ofBits (w.extractLsb' 6 3)
/-- `IR[2:0]`. -/
def Word.sr2 (w : Word) : Reg := Reg.ofBits (w.extractLsb' 0 3)
/-- `IR[4:0]`. -/
def Word.imm5 (w : Word) : BitVec 5 := w.extractLsb' 0 5
/-- `IR[5:0]`. -/
def Word.offset6 (w : Word) : BitVec 6 := w.extractLsb' 0 6
/-- `IR[8:0]`. -/
def Word.pcOffset9 (w : Word) : BitVec 9 := w.extractLsb' 0 9
/-- `IR[10:0]`. -/
def Word.pcOffset11 (w : Word) : BitVec 11 := w.extractLsb' 0 11
/-- `IR[7:0]`. -/
def Word.trapvect8 (w : Word) : BitVec 8 := w.extractLsb' 0 8
/-- `IR[3:0]`. -/
def Word.amount4 (w : Word) : BitVec 4 := w.extractLsb' 0 4

/-- The instruction a word is: the opcode map of 30_encoding.md R74 with the selector bits of R75. Every word is one
(R76, R78), and a bit that R77 lists as ignored is not looked at. -/
def decodeWord (w : Word) : Instr :=
  match (Word.opcode w).toNat with
  | 0 => .br (w.getLsbD 11) (w.getLsbD 10) (w.getLsbD 9) (Word.pcOffset9 w)
  | 1 => if w.getLsbD 5 then .addImm (Word.dr w) (Word.sr1 w) (Word.imm5 w) else .addReg (Word.dr w) (Word.sr1 w) (Word.sr2 w)
  | 2 => .ldb (Word.dr w) (Word.sr1 w) (Word.offset6 w)
  | 3 => .stb (Word.dr w) (Word.sr1 w) (Word.offset6 w)
  | 4 => if w.getLsbD 11 then .jsr (Word.pcOffset11 w) else .jsrr (Word.sr1 w)
  | 5 => if w.getLsbD 5 then .andImm (Word.dr w) (Word.sr1 w) (Word.imm5 w) else .andReg (Word.dr w) (Word.sr1 w) (Word.sr2 w)
  | 6 => .ldw (Word.dr w) (Word.sr1 w) (Word.offset6 w)
  | 7 => .stw (Word.dr w) (Word.sr1 w) (Word.offset6 w)
  | 8 => .rti
  | 9 => if w.getLsbD 5 then .xorImm (Word.dr w) (Word.sr1 w) (Word.imm5 w) else .xorReg (Word.dr w) (Word.sr1 w) (Word.sr2 w)
  | 10 => .ldi (Word.dr w) (Word.sr1 w) (Word.offset6 w)
  | 11 => .sti (Word.dr w) (Word.sr1 w) (Word.offset6 w)
  | 12 => .jmp (Word.sr1 w)
  | 13 =>
    if w.getLsbD 4 then
      if w.getLsbD 5 then .rshfa (Word.dr w) (Word.sr1 w) (Word.amount4 w) else .rshfl (Word.dr w) (Word.sr1 w) (Word.amount4 w)
    else .lshf (Word.dr w) (Word.sr1 w) (Word.amount4 w)
  | 14 => .lea (Word.dr w) (Word.pcOffset9 w)
  | _ => .trap (Word.trapvect8 w)

/-- Why bytes are no instruction. -/
inductive DecodeError
  /-- Fewer than the two bytes every instruction has (30_encoding.md R70). -/
  | truncated
  deriving DecidableEq, Repr

/-- The word of two bytes: the byte at the even address is the low one (20_memory.md R44). -/
def wordOfBytes (lo hi : Byte) : Word := hi ++ lo

/-- The byte at a word's even address (20_memory.md R44). -/
def Word.lowByte (w : Word) : Byte := w.extractLsb' 0 8

/-- The byte at a word's odd address (20_memory.md R44). -/
def Word.highByte (w : Word) : Byte := w.extractLsb' 8 8

/-- The instruction at the front of the bytes, and the bytes after it. -/
def decode : List Byte → Except DecodeError (Instr × List Byte)
  | lo :: hi :: rest => .ok (decodeWord (wordOfBytes lo hi), rest)
  | _ => .error .truncated

/-- The canonical word of an instruction, 0 in every ignored bit (30_encoding.md R71, R74, R77). -/
def encodeWord : Instr → Word
  | .addReg dr sr1 sr2 => 0b0001#4 ++ dr.toBits ++ sr1.toBits ++ 0b000#3 ++ sr2.toBits
  | .addImm dr sr1 imm => 0b0001#4 ++ dr.toBits ++ sr1.toBits ++ 0b1#1 ++ imm
  | .andReg dr sr1 sr2 => 0b0101#4 ++ dr.toBits ++ sr1.toBits ++ 0b000#3 ++ sr2.toBits
  | .andImm dr sr1 imm => 0b0101#4 ++ dr.toBits ++ sr1.toBits ++ 0b1#1 ++ imm
  | .xorReg dr sr1 sr2 => 0b1001#4 ++ dr.toBits ++ sr1.toBits ++ 0b000#3 ++ sr2.toBits
  | .xorImm dr sr1 imm => 0b1001#4 ++ dr.toBits ++ sr1.toBits ++ 0b1#1 ++ imm
  | .br n z p off => 0b0000#4 ++ BitVec.ofBool n ++ BitVec.ofBool z ++ BitVec.ofBool p ++ off
  | .ldb dr base off => 0b0010#4 ++ dr.toBits ++ base.toBits ++ off
  | .stb sr base off => 0b0011#4 ++ sr.toBits ++ base.toBits ++ off
  | .jsrr base => 0b0100#4 ++ 0b000#3 ++ base.toBits ++ 0b000000#6
  | .jsr off => 0b0100#4 ++ 0b1#1 ++ off
  | .ldw dr base off => 0b0110#4 ++ dr.toBits ++ base.toBits ++ off
  | .stw sr base off => 0b0111#4 ++ sr.toBits ++ base.toBits ++ off
  | .rti => 0b1000#4 ++ 0b000000000000#12
  | .ldi dr base off => 0b1010#4 ++ dr.toBits ++ base.toBits ++ off
  | .sti sr base off => 0b1011#4 ++ sr.toBits ++ base.toBits ++ off
  | .jmp base => 0b1100#4 ++ 0b000#3 ++ base.toBits ++ 0b000000#6
  | .lshf dr sr1 amount => 0b1101#4 ++ dr.toBits ++ sr1.toBits ++ 0b00#2 ++ amount
  | .rshfl dr sr1 amount => 0b1101#4 ++ dr.toBits ++ sr1.toBits ++ 0b01#2 ++ amount
  | .rshfa dr sr1 amount => 0b1101#4 ++ dr.toBits ++ sr1.toBits ++ 0b11#2 ++ amount
  | .lea dr off => 0b1110#4 ++ dr.toBits ++ off
  | .trap v => 0b1111#4 ++ 0b0000#4 ++ v

/-- An instruction's bytes in memory order. -/
def encode (i : Instr) : List Byte := [Word.lowByte (encodeWord i), Word.highByte (encodeWord i)]

/-- A row of spec/opcode_table.json: the bits the decoder examines and the values it wants there. -/
structure OpcodeRow where
  mask : Word
  pattern : Word
  deriving DecidableEq, Repr

/-- Whether a word is of a row. -/
def OpcodeRow.matchesWord (r : OpcodeRow) (w : Word) : Bool := w &&& r.mask == r.pattern

/-- The table's row for an instruction ("mask" and "match" of spec/opcode_table.json). -/
def Instr.row : Instr → OpcodeRow
  | .addReg _ _ _ => ⟨0xF020#16, 0x1000#16⟩
  | .addImm _ _ _ => ⟨0xF020#16, 0x1020#16⟩
  | .andReg _ _ _ => ⟨0xF020#16, 0x5000#16⟩
  | .andImm _ _ _ => ⟨0xF020#16, 0x5020#16⟩
  | .xorReg _ _ _ => ⟨0xF020#16, 0x9000#16⟩
  | .xorImm _ _ _ => ⟨0xF020#16, 0x9020#16⟩
  | .br _ _ _ _ => ⟨0xF000#16, 0x0000#16⟩
  | .ldb _ _ _ => ⟨0xF000#16, 0x2000#16⟩
  | .stb _ _ _ => ⟨0xF000#16, 0x3000#16⟩
  | .jsrr _ => ⟨0xF800#16, 0x4000#16⟩
  | .jsr _ => ⟨0xF800#16, 0x4800#16⟩
  | .ldw _ _ _ => ⟨0xF000#16, 0x6000#16⟩
  | .stw _ _ _ => ⟨0xF000#16, 0x7000#16⟩
  | .rti => ⟨0xF000#16, 0x8000#16⟩
  | .ldi _ _ _ => ⟨0xF000#16, 0xA000#16⟩
  | .sti _ _ _ => ⟨0xF000#16, 0xB000#16⟩
  | .jmp _ => ⟨0xF000#16, 0xC000#16⟩
  | .lshf _ _ _ => ⟨0xF010#16, 0xD000#16⟩
  | .rshfl _ _ _ => ⟨0xF030#16, 0xD010#16⟩
  | .rshfa _ _ _ => ⟨0xF030#16, 0xD030#16⟩
  | .lea _ _ => ⟨0xF000#16, 0xE000#16⟩
  | .trap _ => ⟨0xF000#16, 0xF000#16⟩

/-- The bits of an instruction's word that the hardware ignores (30_encoding.md R77; '-' in the table's "encoding"). -/
def Instr.ignoredBits : Instr → Word
  | .addReg _ _ _ | .andReg _ _ _ | .xorReg _ _ _ => 0x0018#16
  | .jsrr _ => 0x063F#16
  | .rti => 0x0FFF#16
  | .jmp _ => 0x0E3F#16
  | .lshf _ _ _ => 0x0020#16
  | .trap _ => 0x0F00#16
  | .addImm _ _ _ | .andImm _ _ _ | .xorImm _ _ _ | .br _ _ _ _ | .ldb _ _ _ | .stb _ _ _ | .jsr _ | .ldw _ _ _
  | .stw _ _ _ | .ldi _ _ _ | .sti _ _ _ | .rshfl _ _ _ | .rshfa _ _ _ | .lea _ _ => 0x0000#16

/-- The 22 rows of spec/opcode_table.json, in its order. -/
def opcodeRows : List OpcodeRow :=
  [⟨0xF020#16, 0x1000#16⟩, ⟨0xF020#16, 0x1020#16⟩, ⟨0xF020#16, 0x5000#16⟩, ⟨0xF020#16, 0x5020#16⟩,
   ⟨0xF020#16, 0x9000#16⟩, ⟨0xF020#16, 0x9020#16⟩, ⟨0xF000#16, 0x0000#16⟩, ⟨0xF000#16, 0x2000#16⟩]
  ++ [⟨0xF000#16, 0x3000#16⟩, ⟨0xF800#16, 0x4000#16⟩, ⟨0xF800#16, 0x4800#16⟩, ⟨0xF000#16, 0x6000#16⟩,
   ⟨0xF000#16, 0x7000#16⟩, ⟨0xF000#16, 0x8000#16⟩, ⟨0xF000#16, 0xA000#16⟩, ⟨0xF000#16, 0xB000#16⟩]
  ++ [⟨0xF000#16, 0xC000#16⟩, ⟨0xF010#16, 0xD000#16⟩, ⟨0xF030#16, 0xD010#16⟩, ⟨0xF030#16, 0xD030#16⟩,
   ⟨0xF000#16, 0xE000#16⟩, ⟨0xF000#16, 0xF000#16⟩]

/-- The low `nbits` bits of `w` as an instruction word, with 0 in every bit above them. -/
def tableWord (nbits w : Nat) : Word := BitVec.ofNat 16 (w % 2 ^ nbits)

/-- The instruction the decoder reads from a row's word, laid out low byte first (20_memory.md R44). -/
def decodeTableWord (nbits w : Nat) : Option Instr :=
  match decode [Word.lowByte (tableWord nbits w), Word.highByte (tableWord nbits w)] with
  | .ok (i, _) => some i
  | .error _ => none

end Sys2Proof
end

