-- ==== Sys2Proof/Machine/Memory.lean ====
section
/-! DEFINITION. The memory array (20_memory.md R40, R44): bytes kept as a list in one canonical form, words built from
two bytes with the even address low, and the masked word write of R48. -/

namespace Sys2Proof.Machine

/-- What an address that is not listed reads as. The spec leaves the array's power-on content open (70_reset_and_hazards.md
R262); this is its 'full-system reset', DESIGN CHOICE, log entry 1. -/
def Memory.unlisted : Byte := 0#8

/-- First byte address the array does not back: 0xFE00 (20_memory.md R56). -/
def Memory.limit : Nat := Config.mmioLo.toNat

/-- Whether addresses rise strictly from above `lo`, all below the limit, and no entry repeats the unlisted value. -/
def Memory.wfFrom : Nat → List Host.Cell → Bool
  | _, [] => true
  | lo, (a, b) :: m => decide (lo ≤ a) && decide (a < Memory.limit) && (b != Memory.unlisted) && Memory.wfFrom (a + 1) m

/-- The canonical form, so that equal memories are equal lists. -/
def Memory.wf (m : List Host.Cell) : Bool := Memory.wfFrom 0 m

/-- The byte at an address. -/
def Memory.read : List Host.Cell → Nat → Byte
  | [], _ => Memory.unlisted
  | (k, v) :: m, a => if k = a then v else if a < k then Memory.unlisted else Memory.read m a

/-- An entry before a list, unless its value need not be listed. -/
def Memory.entry (a : Nat) (b : Byte) (m : List Host.Cell) : List Host.Cell :=
  if b = Memory.unlisted then m else (a, b) :: m

/-- The memory with one byte changed, in canonical form again. -/
def Memory.write : List Host.Cell → Nat → Byte → List Host.Cell
  | [], a, b => Memory.entry a b []
  | (k, v) :: m, a, b =>
    if a < k then Memory.entry a b ((k, v) :: m)
    else if k = a then Memory.entry a b m
    else (k, v) :: Memory.write m a b

/-- `a & 0xFFFE`, the address of the word that contains byte address `a` (20_memory.md R40). -/
def evenAddr (a : Word) : Word := a &&& 0xFFFE#16

/-- The word whose even byte is at `a` (20_memory.md R44). -/
def Memory.readWord (m : List Host.Cell) (a : Word) : Word :=
  wordOfBytes (Memory.read m a.toNat) (Memory.read m (a.toNat + 1))

/-- Write the word whose even byte is at `a`. -/
def Memory.writeWord (m : List Host.Cell) (a v : Word) : List Host.Cell :=
  Memory.write (Memory.write m a.toNat (Word.lowByte v)) (a.toNat + 1) (Word.highByte v)

/-- `(old & ~mask) | (value & mask)` (20_memory.md R47, R48). -/
def mergeMask (old value mask : Word) : Word := (old &&& ~~~mask) ||| (value &&& mask)

end Sys2Proof.Machine
end

