-- ==== Sys2Proof/Machine/Devices.lean ====
section
/-! DEFINITION. The keyboard, the display and the machine-control register: their ticks (60_exceptions.md R234 to R245)
and the accessors that memory-mapped accesses are redirected to (20_memory.md R48, R57, R58). -/

namespace Sys2Proof.Machine

/-- A status word: ready in bit 15, interrupt enable in bit 14, the rest 0 (60_exceptions.md R234). -/
def statusWord (ready ie : Bool) : Word := BitVec.ofBool ready ++ BitVec.ofBool ie ++ 0#14

/-- The memory-mapped registers (20_memory.md R57). -/
inductive DevReg
  | kbsr | kbdr | dsr | ddr | iccr | icdr | mcr
  deriving DecidableEq, Repr

/-- The register at a word address (20_memory.md R57). -/
def devAt (w : Word) : Option DevReg :=
  if w = 0xFE00#16 then some .kbsr
  else if w = 0xFE02#16 then some .kbdr
  else if w = 0xFE04#16 then some .dsr
  else if w = 0xFE06#16 then some .ddr
  else if w = 0xFE10#16 then some .iccr
  else if w = 0xFE12#16 then some .icdr
  else if w = 0xFFFE#16 then some .mcr
  else none

/-- `dev_peek`: a register's value without side effect (60_exceptions.md R222, R223, R235, R237, R239, R242, R244). -/
def devPeek (d : DevReg) (s : State) : Word :=
  match d with
  | .kbsr => statusWord s.kbd.ready s.kbd.ie
  | .kbdr => s.kbd.data.setWidth 16
  | .dsr => statusWord s.dsp.ready s.dsp.ie
  | .ddr => s.dsp.data.setWidth 16
  | .iccr => s.pic.cmd
  | .icdr => s.pic.readData s.cfg
  | .mcr => s.mcr

/-- The state after `dev_get`: reading KBDR clears the keyboard's ready bit (60_exceptions.md R237), and no other read has a
side effect (20_memory.md R55). -/
def devReadEffect (d : DevReg) (s : State) : State :=
  match d with
  | .kbdr => { s with kbd := { s.kbd with ready := false } }
  | .kbsr | .dsr | .ddr | .iccr | .icdr | .mcr => s

/-- `dev_set` (60_exceptions.md R222, R223, R235, R237, R239, R240, R244). -/
def devSet (d : DevReg) (v : Word) (s : State) : State :=
  match d with
  | .kbsr => { s with kbd := { s.kbd with ie := v.getLsbD 14 } }
  | .kbdr => s
  | .dsr => { s with dsp := { s.dsp with ie := v.getLsbD 14 } }
  | .ddr =>
    if s.dsp.ready then { s with dsp := { s.dsp with data := Word.lowByte v, settle := s.cfg.dspDelay, ready := false } } else s
  | .iccr => { s with pic := { s.pic with cmd := v } }
  | .icdr => { s with pic := s.pic.writeData s.cfg v }
  | .mcr => { s with mcr := v }

/-- Whether a word address is in the reserved range 0xFE00 to 0xFFFE (20_memory.md R56). -/
def inMmio (w : Word) : Bool := Config.mmioLo.ule w

/-- `load_word(addr)`: the word that contains the byte address, through redirection (20_memory.md R48); a reserved address
reads as 0 (R58). -/
def loadWord (addr : Word) (s : State) : Word × State :=
  match devAt (evenAddr addr) with
  | some d => (devPeek d s, devReadEffect d s)
  | none => if inMmio (evenAddr addr) then (0#16, s) else (Memory.readWord s.mem (evenAddr addr), s)

/-- `store_word(addr, value, mask)`, through redirection (R48); a store to a reserved address is discarded (R58). -/
def storeWord (addr value mask : Word) (s : State) : State :=
  match devAt (evenAddr addr) with
  | some d => devSet d (mergeMask (devPeek d s) value mask) s
  | none =>
    if inMmio (evenAddr addr) then s
    else { s with mem := Memory.writeWord s.mem (evenAddr addr) (mergeMask (Memory.readWord s.mem (evenAddr addr)) value mask) }

/-- Whether the clock runs: MCR bit 15 (60_exceptions.md R244). -/
def State.clockOn (s : State) : Bool := s.mcr.getLsbD 15

/-- `mem.tick()` (20_memory.md R45). -/
def memTick (s : State) : State := { s with busy := s.busy - 1 }

/-- Whether the keyboard's next unread byte has arrived by this tick and can be taken (60_exceptions.md R236). -/
def State.nextKey (s : State) : Option Byte :=
  if s.kbd.ready then none
  else match s.input with
    | [] => none
    | (k, b) :: _ => if k ≤ s.ticks then some b else none

/-- Whether this tick takes the break byte (60_exceptions.md R238). -/
def State.breakArrives (s : State) : Bool := s.nextKey == some Config.breakByte

/-- The first half of `kbd.tick()`: latch an arrived byte while ready is 0 (R236). -/
def kbdLatch (s : State) : State :=
  match s.nextKey with
  | some b => { s with input := s.input.tail, kbd := { s.kbd with data := b, ready := true } }
  | none => s

/-- `kbd.tick()` for a byte that is not the break byte (R236). -/
def kbdTick (s : State) : State :=
  let s := kbdLatch s
  if s.kbd.ready && s.kbd.ie then { s with pic := s.pic.raise s.cfg.kbdIrq } else s

/-- The first half of `dsp.tick()`: count the settle delay down, and at 0 emit the byte (60_exceptions.md R241). -/
def dspSettle (s : State) : State :=
  if s.dsp.ready then s
  else if s.dsp.settle - 1 = 0 then
    { s with output := s.output ++ [s.dsp.data], dsp := { s.dsp with settle := 0, ready := true } }
  else { s with dsp := { s.dsp with settle := s.dsp.settle - 1 } }

/-- `dsp.tick()` (R241). -/
def dspTick (s : State) : State :=
  let s := dspSettle s
  if s.dsp.ready && s.dsp.ie then { s with pic := s.pic.raise s.cfg.dspIrq } else s

/-- The PIC's tick, and the latch of the pair it returns (40_microsequencer.md R90, 60_exceptions.md R219). -/
def picTick (s : State) : State :=
  match s.pic.tick s.intf s.psr.priority with
  | (c, some (v, p)) => { s with pic := c, intf := true, intv := v, intp := p }
  | (c, none) => { s with pic := c }

/-- Everything of one system tick that comes before the CPU's tick, in the fixed order memory, keyboard, display, PIC
(40_microsequencer.md R90), when the break byte is not taken. -/
def devicesTick (s : State) : State :=
  let s := picTick (dspTick (kbdTick (memTick s)))
  { s with ticks := s.ticks + 1 }

/-- `n` ticks of everything but the CPU. -/
def devicesTicks : Nat → State → State
  | 0, s => s
  | n + 1, s => devicesTicks n (devicesTick s)

end Sys2Proof.Machine
end

