-- ==== Sys2Proof/Machine/MemoryUnit.lean ====
section
/-! DEFINITION. The memory unit's call-until-done protocol (20_memory.md R45 to R47). -/

namespace Sys2Proof.Machine

/-- One call of `mem.read(addr)`: the value when the call is the completing one (20_memory.md R46). -/
def memRead (addr : Word) (s : State) : Option Word × State :=
  if !s.rdEn then (none, { s with rdEn := true, busy := s.cfg.memDelay })
  else if 0 < s.busy then (none, s)
  else
    let r := loadWord addr { s with rdEn := false }
    (some r.1, r.2)

/-- One call of `mem.write(addr, value, mask)`: whether it is the completing one (R47). -/
def memWrite (addr value mask : Word) (s : State) : Bool × State :=
  if !s.wrEn then (false, { s with wrEn := true, busy := s.cfg.memDelay })
  else if 0 < s.busy then (false, s)
  else (true, storeWord addr value mask { s with wrEn := false })

/-- `mem.ready()` (R45). -/
def memReady (s : State) : Bool := s.busy == 0

/-- `mem.reset()`: the array is not changed (R45). -/
def memReset (s : State) : State := { s with busy := 0, rdEn := false, wrEn := false }

end Sys2Proof.Machine
end

