-- ==== Sys2Proof/Machine/Registers.lean ====
section
/-! DEFINITION. Reading and writing the register file (10_state.md R10): eight ordinary registers, none hard-wired. -/

namespace Sys2Proof.Machine

/-- Read `x[r]`. -/
def Regs.get (x : Regs) : Reg → Word
  | .r0 => x.r0 | .r1 => x.r1 | .r2 => x.r2 | .r3 => x.r3
  | .r4 => x.r4 | .r5 => x.r5 | .r6 => x.r6 | .r7 => x.r7

/-- Write `x[r]`. -/
def Regs.set (x : Regs) (r : Reg) (v : Word) : Regs :=
  match r with
  | .r0 => { x with r0 := v } | .r1 => { x with r1 := v }
  | .r2 => { x with r2 := v } | .r3 => { x with r3 := v }
  | .r4 => { x with r4 := v } | .r5 => { x with r5 := v }
  | .r6 => { x with r6 := v } | .r7 => { x with r7 := v }

end Sys2Proof.Machine
end

