-- ==== Sys2Proof/Machine/Operands.lean ====
section
/-! DEFINITION. Operand forms: how each field of an instruction becomes an operand (30_encoding.md R73), the second
operand of the ALU instructions (41_alu.md R122), the shifter (R114) and the effective addresses (42_load_store.md R136). -/

namespace Sys2Proof.Machine

/-- `sext_5(imm5)` (30_encoding.md R73). -/
def immOperand (imm5 : BitVec 5) : Word := imm5.signExtend 16

/-- `sext_6(offset6)`: LDB and STB (R73). -/
def byteOffset (off6 : BitVec 6) : Word := off6.signExtend 16

/-- `sext_6(offset6) << 1`: LDW, STW, LDI and STI (R73). -/
def wordOffset (off6 : BitVec 6) : Word := off6.signExtend 16 <<< 1

/-- `sext_9(PCoffset9) << 1`: BR and LEA (R73). -/
def pcOffset9 (off9 : BitVec 9) : Word := off9.signExtend 16 <<< 1

/-- `sext_11(PCoffset11) << 1`: JSR (R73). -/
def pcOffset11 (off11 : BitVec 11) : Word := off11.signExtend 16 <<< 1

/-- `TVT_BASE + (zext_8(trapvect8) << 1)` (R73, 43_control.md R166). -/
def trapAddr (vect8 : BitVec 8) : Word := Config.tvtBase + (vect8.setWidth 16 <<< 1)

/-- `IVT_BASE | (v << 1)` (60_exceptions.md R212). -/
def ivtAddr (v : Vector8) : Word := Config.ivtBase ||| (v.setWidth 16 <<< 1)

/-- The second operand of ADD, AND and XOR, selected by IR bit 5 (41_alu.md R122). -/
inductive Operand2
  | reg (sr2 : Reg)
  | imm (imm5 : BitVec 5)
  deriving DecidableEq, Repr

/-- Its value (41_alu.md R122). -/
def operand2 (o : Operand2) (x : Regs) : Word :=
  match o with
  | .reg r => x.get r
  | .imm i => immOperand i

/-- SHF's three modes (41_alu.md R114). -/
inductive ShiftKind
  | left | rightLogical | rightArith
  deriving DecidableEq, Repr

/-- The mode that the bits `A` = IR[5] and `D` = IR[4] select; `A` is ignored when `D` is 0 (R114). -/
def shiftKindOf (a d : Bool) : ShiftKind :=
  if d then (if a then .rightArith else .rightLogical) else .left

/-- SHF's result (R114). -/
def shiftWord (k : ShiftKind) (v : Word) (amount4 : BitVec 4) : Word :=
  match k with
  | .left => v <<< amount4.toNat
  | .rightLogical => v >>> amount4.toNat
  | .rightArith => v.sshiftRight amount4.toNat

/-- Effective address of LDB and STB (42_load_store.md R136). -/
def byteAddress (x : Regs) (base : Reg) (off6 : BitVec 6) : Word := x.get base + byteOffset off6

/-- Effective address of LDW and STW, and first address of LDI and STI (R136). -/
def wordAddress (x : Regs) (base : Reg) (off6 : BitVec 6) : Word := x.get base + wordOffset off6

/-- Whether an address is odd, what the alignment check of 42_load_store.md R137 tests. -/
def isOdd (a : Word) : Bool := a.getLsbD 0

/-- `sext_8` of the byte lane that an address's bit 0 selects in the word (42_load_store.md R141). -/
def byteLane (addr w : Word) : Word :=
  (if isOdd addr then Word.highByte w else Word.lowByte w).signExtend 16

/-- A register's low byte in both lanes, which STB puts in MDR (42_load_store.md R149). -/
def bothLanes (v : Word) : Word := Word.lowByte v ++ Word.lowByte v

/-- STB's mask, by the address's bit 0 (42_load_store.md R150). -/
def laneMask (addr : Word) : Word := if isOdd addr then 0xFF00#16 else 0x00FF#16

end Sys2Proof.Machine
end

