-- ==== Sys2Proof/Machine/Ops.lean ====
section
/-! DEFINITION. The shared operations: the system tick, running micro-operations one tick each, the two memory waits,
raising an exception, the service sequence that takes an exception or an interrupt, and the return from one. -/

namespace Sys2Proof.Machine

/-- What a step answers. -/
abbrev Out := Host.Outcome State Fault Refusal

/-- Go on with the next state, if there is one. -/
def andThen (o : Out) (f : State → Out) : Out :=
  match o with
  | .next s => f s
  | .fault r => .fault r
  | .refused r => .refused r

/-- Go on if the microsequencer has come to state `k`. It has not when an exception was raised on the way, or when the clock
stopped. -/
def andAt (o : Out) (k : UState) (f : State → Out) : Out :=
  andThen o (fun s => if s.ustate = k then f s else .next s)

/-! ## Raising an exception -/

/-- `exception(v)`: latch the vector with the exception priority and force the fetch state; the service sequence starts
there (60_exceptions.md R203). -/
def raiseException (v : Vector8) (s : State) : State :=
  { s with intf := true, intv := v, intp := s.cfg.excPriority, ustate := 18#6 }

/-! ## Ticks -/

/-- What a micro-operation leaves: the state, the `done` flag of its memory call, and the exception it detected
(40_microsequencer.md R91, R93). -/
structure Micro where
  st : State
  ready : Bool := false
  exc : Option Vector8 := none

/-- The end of a CPU tick: the exception's latch, or the next state number (R91). -/
def conclude (r : Micro) (k : UState) : State :=
  match r.exc with
  | some v => raiseException v r.st
  | none => { r.st with ustate := k }

/-- One turn of the host's loop: nothing while the clock is off, else the ticks of memory, devices and PIC and then the
CPU's (40_microsequencer.md R90); the break byte ends the run before the PIC's (60_exceptions.md R238). -/
def systemTick (cpu : State → Out) (s : State) : Out :=
  if s.clockOn then
    if s.breakArrives then .fault .keyboardBreak else cpu (devicesTick s)
  else .next s

/-- A tick whose micro-operation is `u` and whose next state, sampled after it, is `k` (R91). -/
def microBy (k : State → UState) (u : State → Micro) (s : State) : Out :=
  systemTick (fun s => let r := u s; .next (conclude r (k r.st))) s

/-- A tick whose micro-operation is `u` and whose next state is `k`. -/
def microTo (k : UState) (u : State → Micro) (s : State) : Out := microBy (fun _ => k) u s

/-- A tick of a wait state `w`: on to `k` when the memory call is done, otherwise `w` again (R95, R100). -/
def waitTick (w k : UState) (u : State → Micro) (s : State) : Out :=
  systemTick (fun s => let r := u s; .next (conclude r (if r.ready then k else w))) s

/-- At most `n` ticks of a wait state, until its memory call is done. -/
def waitTicks (w k : UState) (u : State → Micro) : Nat → State → Out
  | 0, s => .next s
  | n + 1, s => andAt (waitTick w k u s) w (waitTicks w k u n)

/-- Ticks within which a wait state is left, whatever the memory unit was doing (40_microsequencer.md R104). -/
def waitBound (s : State) : Nat := s.busy + s.cfg.memDelay + 2

/-- A wait state to its end. -/
def waitFor (w k : UState) (u : State → Micro) (s : State) : Out := waitTicks w k u (waitBound s) s

/-! ## Micro-operations shared by several instructions -/

/-- No micro-operation: states 0, 4 and 51 (43_control.md R168, R171, R185). -/
def uNone (s : State) : Micro := { st := s }

/-- `(v, done) <- mem.read(MAR); if done then MDR <- v` (40_microsequencer.md R100). -/
def uRead (s : State) : Micro :=
  match memRead s.mar s with
  | (some v, s) => { st := { s with mdr := v }, ready := true }
  | (none, s) => { st := s }

/-- `done <- mem.write(MAR, MDR, 0xFFFF)` (42_load_store.md R153, 60_exceptions.md R208, R211). -/
def uWriteWord (s : State) : Micro :=
  let r := memWrite s.mar s.mdr 0xFFFF#16 s
  { st := r.2, ready := r.1 }

/-- `done <- mem.write(MAR, MDR, lane mask)` (42_load_store.md R150). -/
def uWriteByte (s : State) : Micro :=
  let r := memWrite s.mar s.mdr (laneMask s.mar) s
  { st := r.2, ready := r.1 }

/-- The alignment check of a state that has written MAR (42_load_store.md R137). -/
def checkEven (s : State) : Micro :=
  if isOdd s.mar then { st := s, exc := some s.cfg.excIllAddr } else { st := s }

/-- `DR <- v; setcc(v)` (10_state.md R12, R17). -/
def writeResult (dr : Reg) (v : Word) (s : State) : State :=
  { s with regs := s.regs.set dr v, psr := s.psr.setcc v }

/-- `MDR <- PC` (60_exceptions.md R209). -/
def uMdrPc (s : State) : Micro := { st := { s with mdr := s.pc } }

/-- `PC <- MDR` (43_control.md R176, R180). -/
def uPcMdr (s : State) : Micro := { st := { s with pc := s.mdr } }

/-! ## Taking an exception or an interrupt: the service sequence (60_exceptions.md R204 to R214) -/

/-- State 49: `MDR <- PSR.word; PC <- PC - 2` (R205). -/
def uServiceEntry (s : State) : Micro := { st := { s with mdr := s.psr.word, pc := s.pc - 2#16 } }

/-- State 45: `USP <- x[6]; x[6] <- SSP` (R206). -/
def uToSupervisorStack (s : State) : Micro :=
  { st := { s with usp := s.regs.get .r6, regs := s.regs.set .r6 s.ssp } }

/-- States 37 and 47: `x[6] <- x[6] - 2; MAR <- x[6]` (R207, R210). -/
def uPushAddress (s : State) : Micro :=
  { st := { s with regs := s.regs.set .r6 (s.regs.get .r6 - 2#16), mar := s.regs.get .r6 - 2#16 } }

/-- State 50: `MAR <- IVT_BASE | (intv << 1); PSR.priv <- 0; PSR.priority <- intp` (R212). -/
def uServiceMode (s : State) : Micro :=
  { st := { s with mar := ivtAddr s.intv, psr := { s.psr with priv := .supervisor, priority := s.intp } } }

/-- State 54: `PC <- MDR; intf <- 0` (R214). -/
def uServiceJump (s : State) : Micro := { st := { s with pc := s.mdr, intf := false } }

/-- The service sequence from state 37 on: push PSR, push PC, take the mode and the vector, jump (R207 to R214). -/
def servicePushes (s : State) : Out :=
  andAt (microTo 41#6 uPushAddress s) 41#6 fun s =>
  andAt (waitFor 41#6 43#6 uWriteWord s) 43#6 fun s =>
  andAt (microTo 47#6 uMdrPc s) 47#6 fun s =>
  andAt (microTo 48#6 uPushAddress s) 48#6 fun s =>
  andAt (waitFor 48#6 50#6 uWriteWord s) 50#6 fun s =>
  andAt (microTo 52#6 uServiceMode s) 52#6 fun s =>
  andAt (waitFor 52#6 54#6 uRead s) 54#6 fun s =>
  microTo 18#6 uServiceJump s

/-- The service sequence from the tick in state 49 to the handler's first fetch state (R204). It stops where it stands if a
push lands on MCR and clears the clock enable (70_reset_and_hazards.md R272). -/
def takeException (s : State) : Out :=
  andThen (microBy (fun s => if s.psr.priv = .user then 45#6 else 37#6) uServiceEntry s) fun s =>
    if s.ustate = 45#6 then andAt (microTo 37#6 uToSupervisorStack s) 37#6 servicePushes
    else if s.ustate = 37#6 then servicePushes s
    else .next s

/-! ## Returning from an exception or an interrupt: RTI (43_control.md R167, R177 to R187) -/

/-- State 8: `MAR <- x[6]` (R177). -/
def uRtiEntry (s : State) : Micro := { st := { s with mar := s.regs.get .r6 } }

/-- State 44: `exception(EXC_PRIV)` (R178). -/
def uPrivilegeViolation (s : State) : Micro := { st := s, exc := some s.cfg.excPriv }

/-- State 39: `x[6] <- x[6] + 2; MAR <- x[6]` (R181). -/
def uPopAddress (s : State) : Micro :=
  { st := { s with regs := s.regs.set .r6 (s.regs.get .r6 + 2#16), mar := s.regs.get .r6 + 2#16 } }

/-- State 42: `pic.finish(PSR.priority); PSR.word <- MDR` (R183). -/
def uRestorePsr (s : State) : Micro :=
  { st := { s with pic := s.pic.finish s.psr.priority, psr := Psr.ofWord s.mdr } }

/-- State 34: `x[6] <- x[6] + 2` (R184). -/
def uPopEnd (s : State) : Micro := { st := { s with regs := s.regs.set .r6 (s.regs.get .r6 + 2#16) } }

/-- State 59: `SSP <- x[6]; x[6] <- USP` (R187). -/
def uToUserStack (s : State) : Micro :=
  { st := { s with ssp := s.regs.get .r6, regs := s.regs.set .r6 s.usp } }

/-- RTI from state 36 on, in supervisor mode: the two pops, the end of interrupt, and the restored mode's stack (R179 to R187). -/
def returnPops (s : State) : Out :=
  andAt (waitFor 36#6 38#6 uRead s) 38#6 fun s =>
  andAt (microTo 39#6 uPcMdr s) 39#6 fun s =>
  andAt (microTo 40#6 uPopAddress s) 40#6 fun s =>
  andAt (waitFor 40#6 42#6 uRead s) 42#6 fun s =>
  andAt (microTo 34#6 uRestorePsr s) 34#6 fun s =>
  andThen (microBy (fun s => if s.psr.priv = .user then 59#6 else 51#6) uPopEnd s) fun s =>
    if s.ustate = 59#6 then microTo 18#6 uToUserStack s
    else if s.ustate = 51#6 then microTo 18#6 uNone s
    else .next s

/-- RTI's path: in user mode the Privilege Mode Violation, in supervisor mode the return (R167). -/
def returnFromException (s : State) : Out :=
  andThen (microBy (fun s => if s.psr.priv = .user then 44#6 else 36#6) uRtiEntry s) fun s =>
    if s.ustate = 44#6 then microTo 18#6 uPrivilegeViolation s
    else if s.ustate = 36#6 then returnPops s
    else .next s

end Sys2Proof.Machine
end

