-- ==== Sys2Proof/Machine/Alu.lean ====
section
/-! DEFINITION. The ALU family: ADD, AND, XOR, SHF, LEA (41_alu.md). Each is one tick in its execute state. -/

namespace Sys2Proof.Machine

/-- State 1: `r <- SR1 + op2; DR <- r; setcc(r)` (41_alu.md R116). -/
def uAdd (dr sr1 : Reg) (o : Operand2) (s : State) : Micro :=
  { st := writeResult dr (s.regs.get sr1 + operand2 o s.regs) s }

/-- State 5: `r <- SR1 & op2` (R117). -/
def uAnd (dr sr1 : Reg) (o : Operand2) (s : State) : Micro :=
  { st := writeResult dr (s.regs.get sr1 &&& operand2 o s.regs) s }

/-- State 9: `r <- SR1 ^ op2` (R118). -/
def uXor (dr sr1 : Reg) (o : Operand2) (s : State) : Micro :=
  { st := writeResult dr (s.regs.get sr1 ^^^ operand2 o s.regs) s }

/-- State 13: the shift of SR1 (R119). -/
def uShift (k : ShiftKind) (dr sr1 : Reg) (amount4 : BitVec 4) (s : State) : Micro :=
  { st := writeResult dr (shiftWord k (s.regs.get sr1) amount4) s }

/-- State 14: `r <- PC + (sext_9(PCoffset9) << 1)`, PC already incremented (R120). -/
def uLea (dr : Reg) (off9 : BitVec 9) (s : State) : Micro :=
  { st := writeResult dr (s.pc + pcOffset9 off9) s }

/-- ADD, register form (R110). -/
def execAddReg (dr sr1 sr2 : Reg) (s : State) : Out := microTo 18#6 (uAdd dr sr1 (.reg sr2)) s

/-- ADD, immediate form (R110). -/
def execAddImm (dr sr1 : Reg) (imm5 : BitVec 5) (s : State) : Out := microTo 18#6 (uAdd dr sr1 (.imm imm5)) s

/-- AND, register form (R111). -/
def execAndReg (dr sr1 sr2 : Reg) (s : State) : Out := microTo 18#6 (uAnd dr sr1 (.reg sr2)) s

/-- AND, immediate form (R111). -/
def execAndImm (dr sr1 : Reg) (imm5 : BitVec 5) (s : State) : Out := microTo 18#6 (uAnd dr sr1 (.imm imm5)) s

/-- XOR, register form (R112). -/
def execXorReg (dr sr1 sr2 : Reg) (s : State) : Out := microTo 18#6 (uXor dr sr1 (.reg sr2)) s

/-- XOR, immediate form (R112), NOT among them (R113). -/
def execXorImm (dr sr1 : Reg) (imm5 : BitVec 5) (s : State) : Out := microTo 18#6 (uXor dr sr1 (.imm imm5)) s

/-- SHF, left (R114). -/
def execLshf (dr sr1 : Reg) (amount4 : BitVec 4) (s : State) : Out := microTo 18#6 (uShift .left dr sr1 amount4) s

/-- SHF, logical right (R114). -/
def execRshfl (dr sr1 : Reg) (amount4 : BitVec 4) (s : State) : Out := microTo 18#6 (uShift .rightLogical dr sr1 amount4) s

/-- SHF, arithmetic right (R114). -/
def execRshfa (dr sr1 : Reg) (amount4 : BitVec 4) (s : State) : Out := microTo 18#6 (uShift .rightArith dr sr1 amount4) s

/-- LEA (R115). -/
def execLea (dr : Reg) (off9 : BitVec 9) (s : State) : Out := microTo 18#6 (uLea dr off9) s

end Sys2Proof.Machine
end

