-- ==== Sys2Proof/Machine/Control.lean ====
section
/-! DEFINITION. Control transfer and system instructions: BR, JMP, JSR, JSRR, TRAP, RTI (43_control.md). -/

namespace Sys2Proof.Machine

/-- State 22: `PC <- PC + (sext_9(PCoffset9) << 1)` (43_control.md R169). -/
def uBranch (off9 : BitVec 9) (s : State) : Micro := { st := { s with pc := s.pc + pcOffset9 off9 } }

/-- State 12: the check of the target, when the parameter asks for it, then `PC <- BaseR` (R170). -/
def uJump (base : Reg) (s : State) : Micro :=
  if s.cfg.jmpAlignCheck && isOdd (s.regs.get base) then { st := s, exc := some s.cfg.excIllAddr }
  else { st := { s with pc := s.regs.get base } }

/-- State 20: `x[7] <- PC; PC <- BaseR`, BaseR read after the link is written (R172). -/
def uCallRegister (base : Reg) (s : State) : Micro :=
  { st := { s with regs := s.regs.set .r7 s.pc, pc := (s.regs.set .r7 s.pc).get base } }

/-- State 21: `x[7] <- PC; PC <- PC + (sext_11(PCoffset11) << 1)` (R173). -/
def uCallRelative (off11 : BitVec 11) (s : State) : Micro :=
  { st := { s with regs := s.regs.set .r7 s.pc, pc := s.pc + pcOffset11 off11 } }

/-- State 15: `x[7] <- PC; MAR <- zext_8(trapvect8) << 1` (R174). -/
def uTrapEntry (vect8 : BitVec 8) (s : State) : Micro :=
  { st := { s with regs := s.regs.set .r7 s.pc, mar := trapAddr vect8 } }

/-- BR: the branch condition (which the decode state has latched already, from the same bits and flags), state 0, and
state 22 when it holds (R160, R168, R169). -/
def execBr (n z p : Bool) (off9 : BitVec 9) (s : State) : Out :=
  andAt (microBy (fun s => if s.ben then 22#6 else 18#6) uNone { s with ben := branchEnable n z p s.psr }) 22#6 fun s =>
  microTo 18#6 (uBranch off9) s

/-- JMP: state 12 (R162). -/
def execJmp (base : Reg) (s : State) : Out := microTo 18#6 (uJump base) s

/-- JSR: states 4, 21 (R163). -/
def execJsr (off11 : BitVec 11) (s : State) : Out :=
  andAt (microTo 21#6 uNone s) 21#6 fun s => microTo 18#6 (uCallRelative off11) s

/-- JSRR: states 4, 20 (R164). -/
def execJsrr (base : Reg) (s : State) : Out :=
  andAt (microTo 20#6 uNone s) 20#6 fun s => microTo 18#6 (uCallRegister base) s

/-- TRAP: states 15, 28, 30 (R166). -/
def execTrap (vect8 : BitVec 8) (s : State) : Out :=
  andAt (microTo 28#6 (uTrapEntry vect8) s) 28#6 fun s =>
  andAt (waitFor 28#6 30#6 uRead s) 30#6 fun s =>
  microTo 18#6 uPcMdr s

/-- RTI (R167). -/
def execRti (s : State) : Out := returnFromException s

end Sys2Proof.Machine
end

