-- ==== Sys2Proof/Machine/LoadStore.lean ====
section
/-! DEFINITION. Loads and stores: LDB, LDW, LDI, STB, STW, STI (42_load_store.md), each as the path of its micro-states. -/

namespace Sys2Proof.Machine

/-- States 2 and 3: `MAR <- BaseR + sext_6(offset6)`, no check (42_load_store.md R139, R148). -/
def uByteAddress (base : Reg) (off6 : BitVec 6) (s : State) : Micro :=
  { st := { s with mar := byteAddress s.regs base off6 } }

/-- States 6, 7, 10 and 11: `MAR <- BaseR + (sext_6(offset6) << 1)`, then the check (R142, R145, R151, R154). -/
def uWordAddress (base : Reg) (off6 : BitVec 6) (s : State) : Micro :=
  checkEven { s with mar := wordAddress s.regs base off6 }

/-- States 58 and 62: `MAR <- MDR`, then the check (R147, R156). -/
def uDereference (s : State) : Micro := checkEven { s with mar := s.mdr }

/-- State 27: `DR <- MDR; setcc(MDR)` (R144). -/
def uLoadWord (dr : Reg) (s : State) : Micro := { st := writeResult dr s.mdr s }

/-- State 31: the byte lane that MAR selects, sign-extended (R141). -/
def uLoadByte (dr : Reg) (s : State) : Micro := { st := writeResult dr (byteLane s.mar s.mdr) s }

/-- State 23: `MDR <- SR` (R152). -/
def uStoreData (sr : Reg) (s : State) : Micro := { st := { s with mdr := s.regs.get sr } }

/-- State 24: `MDR <- SR[7:0] ++ SR[7:0]` (R149). -/
def uStoreByteData (sr : Reg) (s : State) : Micro := { st := { s with mdr := bothLanes (s.regs.get sr) } }

/-- LDB: states 2, 29, 31 (R130). -/
def execLdb (dr base : Reg) (off6 : BitVec 6) (s : State) : Out :=
  andAt (microTo 29#6 (uByteAddress base off6) s) 29#6 fun s =>
  andAt (waitFor 29#6 31#6 uRead s) 31#6 fun s =>
  microTo 18#6 (uLoadByte dr) s

/-- LDW: states 6, 25, 27 (R131). -/
def execLdw (dr base : Reg) (off6 : BitVec 6) (s : State) : Out :=
  andAt (microTo 25#6 (uWordAddress base off6) s) 25#6 fun s =>
  andAt (waitFor 25#6 27#6 uRead s) 27#6 fun s =>
  microTo 18#6 (uLoadWord dr) s

/-- LDI: states 10, 56, 58, 25, 27 (R132). -/
def execLdi (dr base : Reg) (off6 : BitVec 6) (s : State) : Out :=
  andAt (microTo 56#6 (uWordAddress base off6) s) 56#6 fun s =>
  andAt (waitFor 56#6 58#6 uRead s) 58#6 fun s =>
  andAt (microTo 25#6 uDereference s) 25#6 fun s =>
  andAt (waitFor 25#6 27#6 uRead s) 27#6 fun s =>
  microTo 18#6 (uLoadWord dr) s

/-- STB: states 3, 24, 17, and on to the twin fetch state 19 (R133). -/
def execStb (sr base : Reg) (off6 : BitVec 6) (s : State) : Out :=
  andAt (microTo 24#6 (uByteAddress base off6) s) 24#6 fun s =>
  andAt (microTo 17#6 (uStoreByteData sr) s) 17#6 fun s =>
  waitFor 17#6 19#6 uWriteByte s

/-- STW: states 7, 23, 16 (R134). -/
def execStw (sr base : Reg) (off6 : BitVec 6) (s : State) : Out :=
  andAt (microTo 23#6 (uWordAddress base off6) s) 23#6 fun s =>
  andAt (microTo 16#6 (uStoreData sr) s) 16#6 fun s =>
  waitFor 16#6 18#6 uWriteWord s

/-- STI: states 11, 60, 62, 23, 16 (R135). -/
def execSti (sr base : Reg) (off6 : BitVec 6) (s : State) : Out :=
  andAt (microTo 60#6 (uWordAddress base off6) s) 60#6 fun s =>
  andAt (waitFor 60#6 62#6 uRead s) 62#6 fun s =>
  andAt (microTo 23#6 uDereference s) 23#6 fun s =>
  andAt (microTo 16#6 (uStoreData sr) s) 16#6 fun s =>
  waitFor 16#6 18#6 uWriteWord s

end Sys2Proof.Machine
end

