-- ==== Sys2Proof/Machine/Microcode.lean ====
section
/-! DEFINITION. The machine one tick at a time: the micro-operation of every control-store state, its operands taken from
IR (40_microsequencer.md R91, R94), and fetch and decode as a sequence of such ticks (R97 to R101). -/

namespace Sys2Proof.Machine

/-- States 18 and 19: `MAR <- PC; PC <- PC + 2` (40_microsequencer.md R97). -/
def uFetch (s : State) : Micro := { st := { s with mar := s.pc, pc := s.pc + 2#16 } }

/-- State 35: `IR <- MDR` (R99). -/
def uLatchIr (s : State) : Micro := { st := { s with ir := s.mdr } }

/-- State 32: `ben <- (N & IR[11]) | (Z & IR[10]) | (P & IR[9])` (R101). -/
def uDecode (s : State) : Micro :=
  { st := { s with ben := branchEnable (s.ir.getLsbD 11) (s.ir.getLsbD 10) (s.ir.getLsbD 9) s.psr } }

/-- The second operand IR bit 5 selects (41_alu.md R122). -/
def irOperand2 (w : Word) : Operand2 := if w.getLsbD 5 then .imm (Word.imm5 w) else .reg (Word.sr2 w)

/-- The micro-operation of a state, by the rule that the control-store table names for it; `none` for the seven unused
states (40_microsequencer.md R94, R96). -/
def microOp (k : UState) (s : State) : Option Micro :=
  match k.toNat with
  | 0 => some (uNone s)
  | 1 => some (uAdd (Word.dr s.ir) (Word.sr1 s.ir) (irOperand2 s.ir) s)
  | 2 => some (uByteAddress (Word.sr1 s.ir) (Word.offset6 s.ir) s)
  | 3 => some (uByteAddress (Word.sr1 s.ir) (Word.offset6 s.ir) s)
  | 4 => some (uNone s)
  | 5 => some (uAnd (Word.dr s.ir) (Word.sr1 s.ir) (irOperand2 s.ir) s)
  | 6 => some (uWordAddress (Word.sr1 s.ir) (Word.offset6 s.ir) s)
  | 7 => some (uWordAddress (Word.sr1 s.ir) (Word.offset6 s.ir) s)
  | 8 => some (uRtiEntry s)
  | 9 => some (uXor (Word.dr s.ir) (Word.sr1 s.ir) (irOperand2 s.ir) s)
  | 10 => some (uWordAddress (Word.sr1 s.ir) (Word.offset6 s.ir) s)
  | 11 => some (uWordAddress (Word.sr1 s.ir) (Word.offset6 s.ir) s)
  | 12 => some (uJump (Word.sr1 s.ir) s)
  | 13 => some (uShift (shiftKindOf (s.ir.getLsbD 5) (s.ir.getLsbD 4)) (Word.dr s.ir) (Word.sr1 s.ir) (Word.amount4 s.ir) s)
  | 14 => some (uLea (Word.dr s.ir) (Word.pcOffset9 s.ir) s)
  | 15 => some (uTrapEntry (Word.trapvect8 s.ir) s)
  | 16 => some (uWriteWord s)
  | 17 => some (uWriteByte s)
  | 18 => some (uFetch s)
  | 19 => some (uFetch s)
  | 20 => some (uCallRegister (Word.sr1 s.ir) s)
  | 21 => some (uCallRelative (Word.pcOffset11 s.ir) s)
  | 22 => some (uBranch (Word.pcOffset9 s.ir) s)
  | 23 => some (uStoreData (Word.dr s.ir) s)
  | 24 => some (uStoreByteData (Word.dr s.ir) s)
  | 25 => some (uRead s)
  | 27 => some (uLoadWord (Word.dr s.ir) s)
  | 28 => some (uRead s)
  | 29 => some (uRead s)
  | 30 => some (uPcMdr s)
  | 31 => some (uLoadByte (Word.dr s.ir) s)
  | 32 => some (uDecode s)
  | 33 => some (uRead s)
  | 34 => some (uPopEnd s)
  | 35 => some (uLatchIr s)
  | 36 => some (uRead s)
  | 37 => some (uPushAddress s)
  | 38 => some (uPcMdr s)
  | 39 => some (uPopAddress s)
  | 40 => some (uRead s)
  | 41 => some (uWriteWord s)
  | 42 => some (uRestorePsr s)
  | 43 => some (uMdrPc s)
  | 44 => some (uPrivilegeViolation s)
  | 45 => some (uToSupervisorStack s)
  | 47 => some (uPushAddress s)
  | 48 => some (uWriteWord s)
  | 49 => some (uServiceEntry s)
  | 50 => some (uServiceMode s)
  | 51 => some (uNone s)
  | 52 => some (uRead s)
  | 54 => some (uServiceJump s)
  | 56 => some (uRead s)
  | 58 => some (uDereference s)
  | 59 => some (uToUserStack s)
  | 60 => some (uRead s)
  | 62 => some (uDereference s)
  | _ => none

/-- `cpu.tick()` (R91); in an unused state it faults (R96). -/
def cpuTick (s : State) : Out :=
  match csEntry s.ustate, microOp s.ustate s with
  | some e, some r => .next (conclude r (e.next r.ready r.st))
  | _, _ => .fault .unusedMicroState

/-- One turn of the host's loop `while MCR[15] == 1: system_tick()` (R90). -/
def tick (s : State) : Out := systemTick cpuTick s

/-- `n` turns of the loop. -/
def ticksRun : Nat → State → Out
  | 0, s => .next s
  | n + 1, s => andThen (tick s) (ticksRun n)

/-- Turns of the loop, at least one and at most `n`, until the microsequencer is in a fetch state (R102). -/
def runToFetch : Nat → State → Out
  | 0, s => .next s
  | n + 1, s => andThen (tick s) fun s => if isFetchState s.ustate then .next s else runToFetch n s

/-- Ticks that suffice from any state to the next fetch state: at most three memory operations and eleven other states
lie between (R94, R104). -/
def runBound (s : State) : Nat := 16 + 4 * waitBound s

/-- Fetch and decode, from a fetch state: states 18 (or 19), 33, 35, 32 and on to the opcode's entry state, or from the
first tick to state 49 when an event is latched (R97 to R101). -/
def fetchDecode (s : State) : Out :=
  andAt (microBy (fun s => if s.intf then 49#6 else 33#6) uFetch s) 33#6 fun s =>
  andAt (waitFor 33#6 35#6 uRead s) 35#6 fun s =>
  andAt (microTo 32#6 uLatchIr s) 32#6 fun s =>
  microBy (fun s => (Word.opcode s.ir).setWidth 6) uDecode s

/-- Whether a state number is an opcode's entry state, 0 to 15 (30_encoding.md R74). -/
def isEntryState (k : UState) : Bool := decide (k.toNat < 16)

end Sys2Proof.Machine
end

