-- ==== Sys2Proof/Machine/Dispatch.lean ====
section
/-! DEFINITION. What each instruction does from its entry state on: one arm per constructor, one direct call of its meaning. -/

namespace Sys2Proof.Machine

def exec (i : Instr) (s : State) : Host.Outcome State Fault Refusal :=
  match i with
  | .addReg dr sr1 sr2 => Sys2Proof.Machine.execAddReg dr sr1 sr2 s
  | .addImm dr sr1 imm5 => Sys2Proof.Machine.execAddImm dr sr1 imm5 s
  | .andReg dr sr1 sr2 => Sys2Proof.Machine.execAndReg dr sr1 sr2 s
  | .andImm dr sr1 imm5 => Sys2Proof.Machine.execAndImm dr sr1 imm5 s
  | .xorReg dr sr1 sr2 => Sys2Proof.Machine.execXorReg dr sr1 sr2 s
  | .xorImm dr sr1 imm5 => Sys2Proof.Machine.execXorImm dr sr1 imm5 s
  | .br n z p off9 => Sys2Proof.Machine.execBr n z p off9 s
  | .ldb dr base off6 => Sys2Proof.Machine.execLdb dr base off6 s
  | .stb sr base off6 => Sys2Proof.Machine.execStb sr base off6 s
  | .jsrr base => Sys2Proof.Machine.execJsrr base s
  | .jsr off11 => Sys2Proof.Machine.execJsr off11 s
  | .ldw dr base off6 => Sys2Proof.Machine.execLdw dr base off6 s
  | .stw sr base off6 => Sys2Proof.Machine.execStw sr base off6 s
  | .rti => Sys2Proof.Machine.execRti s
  | .ldi dr base off6 => Sys2Proof.Machine.execLdi dr base off6 s
  | .sti sr base off6 => Sys2Proof.Machine.execSti sr base off6 s
  | .jmp base => Sys2Proof.Machine.execJmp base s
  | .lshf dr sr1 amount4 => Sys2Proof.Machine.execLshf dr sr1 amount4 s
  | .rshfl dr sr1 amount4 => Sys2Proof.Machine.execRshfl dr sr1 amount4 s
  | .rshfa dr sr1 amount4 => Sys2Proof.Machine.execRshfa dr sr1 amount4 s
  | .lea dr off9 => Sys2Proof.Machine.execLea dr off9 s
  | .trap vect8 => Sys2Proof.Machine.execTrap vect8 s

end Sys2Proof.Machine
end

