-- ==== Sys2Proof/Machine/Loader.lean ====
section
/-! DEFINITION. What the host does to the machine while the loop is not running (70_reset_and_hazards.md R261 to R267,
20_memory.md R49): reset, the immediate accesses, the loader's steps, and placing one instruction to run next. -/

namespace Sys2Proof.Machine

/-- The keyboard's reset (60_exceptions.md R243). -/
def Keyboard.reset (_ : Keyboard) : Keyboard := { ready := false, ie := true, data := 0#8 }

/-- The display's reset (R243). -/
def Display.reset (_ : Display) : Display := { ready := true, ie := false, data := 0#8, settle := 0 }

/-- A reset of a machine that has run: each component's reset and the CPU's (70_reset_and_hazards.md R260, R261). The
memory array, the output sink and the host's input stream stay (R262). -/
def hostReset (s : State) : State :=
  let s := memReset s
  { State.reset with
    cfg := s.cfg
    mem := s.mem, busy := s.busy, rdEn := s.rdEn, wrEn := s.wrEn
    pic := s.pic.reset, kbd := s.kbd.reset, dsp := s.dsp.reset
    ticks := s.ticks, input := s.input, output := s.output }

/-- `read_immediate(addr)` (20_memory.md R49). -/
def readImmediate (addr : Word) (s : State) : Word × State := loadWord addr s

/-- `write_immediate(addr, value)` (R49). -/
def writeImmediate (addr v : Word) (s : State) : State := storeWord addr v 0xFFFF#16 s

/-- One byte of `write_block`, in the lane its address selects (20_memory.md R44, R49). -/
def writeImmediateByte (addr : Word) (b : Byte) (s : State) : State := storeWord addr (b ++ b) (laneMask addr) s

/-- `write_block(base, bytes)`: byte `i` goes to `base + i` (20_memory.md R44). -/
def writeBlock (base : Word) : List Byte → State → State
  | [], s => s
  | b :: bs, s => writeBlock (base + 1#16) bs (writeImmediateByte base b s)

/-- The loader's blocks, in turn (70_reset_and_hazards.md R267). -/
def writeBlocks : List (Word × List Byte) → State → State
  | [], s => s
  | (base, bytes) :: rest, s => writeBlocks rest (writeBlock base bytes s)

/-- The loader protocol: reset, blocks, PC and the registers the program assumes, then the clock enable (R267). -/
def launch (blocks : List (Word × List Byte)) (pc : Word) (regs : Regs) (ssp usp : Word) (psr : Psr) (s : State) : State :=
  writeImmediate 0xFFFE#16 Config.clockEnable
    { writeBlocks blocks (hostReset s) with pc := pc, regs := regs, ssp := ssp, usp := usp, psr := psr }

/-- Where the loader leaves an instruction for the next step to run: its word at PC (moved out of the device range if it is
there), the clock enabled, the microsequencer in the fetch state with no event latched (R267). -/
def placeInstruction (w : Word) (s : State) : State :=
  let pc := if inMmio (evenAddr s.pc) then 0x3000#16 else s.pc
  { s with
    pc := pc
    mem := Memory.writeWord s.mem (evenAddr pc) w
    mcr := s.mcr ||| Config.clockEnable
    ustate := 18#6
    intf := false }

end Sys2Proof.Machine
end

