-- ==== Sys2Proof/Machine/Step.lean ====
section
/-! DEFINITION. One step: from a fetch boundary one instruction or one service sequence (40_microsequencer.md R102), and
from a micro-state in between (where the clock was stopped in a sequence) the rest of it. -/

namespace Sys2Proof.Machine

/-- From a fetch state: fetch and decode, then the instruction, or the service sequence when an event is latched. From any
other state: the ticks up to the next fetch state. While the clock is off nothing changes (60_exceptions.md R245). -/
def step (s : State) : Host.Outcome State Fault Refusal :=
  if isFetchState s.ustate then
    andThen (fetchDecode s) fun s =>
      if isEntryState s.ustate then exec (decodeWord s.ir) s
      else if s.ustate = 49#6 then takeException s
      else .next s
  else runToFetch (runBound s) s

/-- The state with the instruction of a table row placed for the very next step (log entry 6). -/
def State.withFetchWord (s : State) (nbits w : Nat) : State := placeInstruction (tableWord nbits w) s

end Sys2Proof.Machine
end

