-- ==== Sys2Proof/WellFormed.lean ====
section
/-! DEFINITION. Well-formedness. Every field of an instruction has the exact width its format gives it (30_encoding.md
R71, R72), so the types leave nothing to check there; what needs a check is the choice of parameters (00_scope.md R4). -/

namespace Sys2Proof

/-- Every term of `Instr` is well formed: its registers are eight names and its immediates bit fields of the format's
width, and every value of every field is an instruction (30_encoding.md R76, R78). One arm per constructor. -/
def Instr.wellFormed : Instr → Bool
  | .addReg _ _ _ | .addImm _ _ _ | .andReg _ _ _ | .andImm _ _ _ | .xorReg _ _ _ | .xorImm _ _ _ => true
  | .br _ _ _ _ => true
  | .ldb _ _ _ | .stb _ _ _ | .ldw _ _ _ | .stw _ _ _ | .ldi _ _ _ | .sti _ _ _ => true
  | .jsrr _ | .jsr _ | .jmp _ | .trap _ | .rti => true
  | .lshf _ _ _ | .rshfl _ _ _ | .rshfa _ _ _ | .lea _ _ => true

/-- The ranges of 00_scope.md R4: both delays at least 1, the two devices on different lines (93_implementation_defined.md
U11), and the four PIC command words distinct (92_eei_decisions.md D23). -/
def Params.wellFormed (c : Params) : Bool :=
  decide (1 ≤ c.memDelay) && decide (1 ≤ c.dspDelay) && decide (c.kbdIrq ≠ c.dspIrq)
    && decide ([c.cmdReadIrr, c.cmdReadIsr, c.cmdReadImr, c.cmdWriteImr].Nodup)

end Sys2Proof
end

