-- ==== Sys2Proof/Safety.lean ====
section
/-! DEFINITION. The terms that claims are stated in: when a machine runs, the invariants that rule out states no run
reaches, and what each instruction may write. -/

namespace Sys2Proof.Machine

/-! ## The control store's sets of states -/

/-- The states with no entry (R96). -/
def unusedStates : List UState := [26#6, 46#6, 53#6, 55#6, 57#6, 61#6, 63#6]

/-- The states of the service sequence (10_state.md R26). -/
def serviceStates : List UState := [49#6, 45#6, 37#6, 41#6, 43#6, 47#6, 48#6, 50#6, 52#6, 54#6]

/-- The wait states that call `mem.read` (40_microsequencer.md R94, R95). -/
def readStates : List UState := [25#6, 28#6, 29#6, 33#6, 36#6, 40#6, 52#6, 56#6, 60#6]

/-- The wait states that call `mem.write` (R94, R95). -/
def writeStates : List UState := [16#6, 17#6, 41#6, 48#6]

/-- The states between RTI's two pops and its restore of the PSR, entered from supervisor mode only (43_control.md R177). -/
def popStates : List UState := [36#6, 38#6, 39#6, 40#6, 42#6]

/-- The states that check the address they put in MAR (42_load_store.md R137). -/
def checkedStates : List UState := [6#6, 7#6, 10#6, 11#6, 58#6, 62#6]

/-! ## When a machine runs -/

/-- The keyboard stream holds no break byte (60_exceptions.md R238, 93_implementation_defined.md U16). -/
def State.noBreak (s : State) : Bool := s.input.all (fun k => k.2 != Config.breakByte)

/-- The clock is on, the parameters are in their ranges and no break byte is in the stream. -/
def State.runs (s : State) : Bool := s.clockOn && s.cfg.wellFormed && s.noBreak

/-- No memory operation is outstanding (10_state.md R27). -/
def State.memIdle (s : State) : Bool := !s.rdEn && !s.wrEn

/-- What an instruction finds in its entry state: a machine that runs, with no memory operation outstanding
(40_microsequencer.md R102). -/
def State.atEntry (s : State) : Bool := s.runs && s.memIdle

/-- What a step finds at a fetch boundary (R102). -/
def State.atFetch (s : State) : Bool := s.runs && s.memIdle && isFetchState s.ustate

/-! ## Invariants -/

/-- The microsequencer's state number is one with an entry; it is in the service sequence only while an event is latched
(10_state.md R26); RTI pops in supervisor mode only. -/
def State.sequencerInv (s : State) : Bool :=
  !unusedStates.contains s.ustate
    && (!serviceStates.contains s.ustate || s.intf)
    && (!popStates.contains s.ustate || s.psr.priv == .supervisor)

/-- An operation is outstanding only in a wait state of its kind, and only then has a delay left, at most `MEM_DELAY`
(10_state.md R27, 40_microsequencer.md R95). -/
def State.memUnitInv (s : State) : Bool :=
  (!s.rdEn || readStates.contains s.ustate)
    && (!s.wrEn || writeStates.contains s.ustate)
    && (s.busy == 0 || s.rdEn || s.wrEn)
    && decide (s.busy ≤ s.cfg.memDelay)

/-- Memory is in canonical form with nothing in the device range; no line is both requested and in service; the display's
counter runs exactly while it is not ready; the parameters are in their ranges (20_memory.md R40, R56, 10_state.md R28, R30). -/
def State.dataInv (s : State) : Bool :=
  Memory.wf s.mem
    && (s.pic.irr &&& s.pic.isr == 0#8)
    && (if s.dsp.ready then s.dsp.settle == 0 else decide (1 ≤ s.dsp.settle) && decide (s.dsp.settle ≤ s.cfg.dspDelay))
    && s.cfg.wellFormed

/-- The three together. -/
def State.inv (s : State) : Bool := s.sequencerInv && s.memUnitInv && s.dataInv

/-! ## Where an event is served from -/

/-- The supervisor stack pointer that the service sequence pushes through: `x[6]`, or SSP when it comes from user mode
(60_exceptions.md R204). -/
def State.serviceStack (s : State) : Word := if s.psr.priv = .user then s.ssp else s.regs.get .r6

/-- Neither push of the service sequence stops the clock: one that lands on MCR leaves it on only if the pushed word has
bit 15 set (70_reset_and_hazards.md R272). -/
def State.pushesKeepClock (s : State) : Bool :=
  (evenAddr (s.serviceStack - 2#16) != 0xFFFE#16 || s.psr.word.getLsbD 15)
    && (evenAddr (s.serviceStack - 4#16) != 0xFFFE#16 || s.pc.getLsbD 15)

/-- A fetch boundary at which, after this tick's PIC, no event is latched: the tick fetches an instruction (40_microsequencer.md R102). -/
def State.fetches (s : State) : Bool := s.atFetch && !(devicesTick s).intf

/-- A fetch boundary at which an event is latched: the tick enters the service sequence (R102). -/
def State.serves (s : State) : Bool := s.atFetch && (devicesTick s).intf

/-! ## Safe steps -/

/-- A step is safe if it answers a next state. -/
def SafeStep (s : State) : Prop := ∃ t, step s = .next t

/-- Whether the array (and not a device register or a reserved address) holds the word of a byte address (20_memory.md R56). -/
def inArray (addr : Word) : Bool := !inMmio (evenAddr addr)

end Sys2Proof.Machine

namespace Sys2Proof

/-! ## What an instruction may write (10_state.md R12, R17) -/

/-- The general registers an instruction may write. -/
def Instr.writesRegs : Instr → List Reg
  | .addReg dr _ _ | .andReg dr _ _ | .xorReg dr _ _ => [dr]
  | .addImm dr _ _ | .andImm dr _ _ | .xorImm dr _ _ => [dr]
  | .lshf dr _ _ | .rshfl dr _ _ | .rshfa dr _ _ => [dr]
  | .lea dr _ => [dr]
  | .ldb dr _ _ | .ldw dr _ _ | .ldi dr _ _ => [dr]
  | .jsr _ | .jsrr _ | .trap _ => [.r7]
  | .rti => [.r6]
  | .br _ _ _ _ | .stb _ _ _ | .stw _ _ _ | .sti _ _ _ | .jmp _ => []

/-- Whether an instruction writes the condition flags. -/
def Instr.writesFlags : Instr → Bool
  | .addReg _ _ _ | .andReg _ _ _ | .xorReg _ _ _ | .addImm _ _ _ | .andImm _ _ _ | .xorImm _ _ _ => true
  | .lshf _ _ _ | .rshfl _ _ _ | .rshfa _ _ _ | .lea _ _ | .ldb _ _ _ | .ldw _ _ _ | .ldi _ _ _ | .rti => true
  | .br _ _ _ _ | .stb _ _ _ | .stw _ _ _ | .sti _ _ _ | .jmp _ | .jsr _ | .jsrr _ | .trap _ => false

/-- Whether an instruction stores. -/
def Instr.stores : Instr → Bool
  | .stb _ _ _ | .stw _ _ _ | .sti _ _ _ => true
  | .addReg _ _ _ | .andReg _ _ _ | .xorReg _ _ _ | .addImm _ _ _ | .andImm _ _ _ | .xorImm _ _ _ => false
  | .lshf _ _ _ | .rshfl _ _ _ | .rshfa _ _ _ | .lea _ _ | .ldb _ _ _ | .ldw _ _ _ | .ldi _ _ _ | .rti => false
  | .br _ _ _ _ | .jmp _ | .jsr _ | .jsrr _ | .trap _ => false

end Sys2Proof
end

