-- ==== Sys2Proof/Certificates/Slice0/Obligations.lean ====
section
/-! DEFINITION. What is claimed of the model, for the provers. "D" in a docstring is `MEM_DELAY`; `devicesTicks n s` is `s`
after `n` ticks of everything but the CPU. A statement with a hypothesis has its witness in Sys2Proof/Tests/Slice0.lean. A
choice D<n> is the spec's own, in 92_eei_decisions.md; a log entry is the model's, in notes/assumptions/. The parameters
(memory delay, device lines, vectors) are those the state carries, whatever they are (log entry 2). -/

open Sys2Proof Sys2Proof.Machine

/-! ## Encoding (30_encoding.md) -/

/-- Decoding an instruction's bytes, whatever follows them, gives it back, at every value of every operand (R70 to R75).
Rests on the spec's own choices D1, D2. -/
def Obligations.DecodeAfterEncode : Prop :=
  ∀ (i : Instr) (rest : List Byte), i.wellFormed = true → decode (encode i ++ rest) = .ok (i, rest)

/-- A word that differs from the canonical one only in bits that R77 calls ignored is the same instruction. Rests on the
spec's own choices D2, D28. -/
def Obligations.IgnoredBitsAreIgnored : Prop :=
  ∀ (i : Instr) (junk : Word), decodeWord (encodeWord i ||| (junk &&& i.ignoredBits)) = i

/-- Every word is of exactly one row of the opcode table, the row of the instruction it decodes to (R76). Rests on the
spec's own choices D1, D2. -/
def Obligations.EveryWordIsOfOneRow : Prop :=
  ∀ w : Word, opcodeRows.filter (fun r => r.matchesWord w) = [(decodeWord w).row]

/-- Encoding what a word decodes to gives the word with its ignored bits at 0: no other bit is dropped (R72, R77). Rests
on the spec's own choices D1, D2, D28. -/
def Obligations.EncodeAfterDecode : Prop :=
  ∀ w : Word, encodeWord (decodeWord w) = w &&& ~~~(decodeWord w).ignoredBits

/-- The words of the spec's own worked examples decode to the instructions they are written for, and fewer than two bytes
are refused (95_test_vectors.md; R70, R84). Rests on the spec's own choices D1, D2. -/
def Obligations.SpecWordsDecode : Prop :=
  decodeWord 0x1025#16 = .addImm .r0 .r0 5#5
  ∧ decodeWord 0x5A6F#16 = .andImm .r5 .r1 15#5
  ∧ decodeWord 0x9283#16 = .xorReg .r1 .r2 .r3
  ∧ decodeWord 0x993F#16 = .xorImm .r4 .r4 31#5
  ∧ decodeWord 0xD272#16 = .rshfa .r1 .r1 2#4
  ∧ decodeWord 0xD252#16 = .rshfl .r1 .r1 2#4
  ∧ decodeWord 0xD242#16 = .lshf .r1 .r1 2#4
  ∧ decodeWord 0xE1FF#16 = .lea .r0 511#9
  ∧ decodeWord 0x2281#16 = .ldb .r1 .r2 1#6
  ∧ decodeWord 0x72BF#16 = .stw .r1 .r2 63#6
  ∧ decodeWord 0x0403#16 = .br false true false 3#9
  ∧ decodeWord 0x4FFE#16 = .jsr 0x7FE#11
  ∧ decodeWord 0x40C0#16 = .jsrr .r3
  ∧ decodeWord 0xC1C0#16 = .jmp .r7
  ∧ decodeWord 0xF025#16 = .trap 0x25#8
  ∧ decodeWord 0x8000#16 = .rti
  ∧ decode [] = .error .truncated ∧ (∀ b, decode [b] = .error .truncated)

/-- Every extended and scaled immediate is the number its field stands for (R73): signed fields keep their sign, word
offsets are doubled, nothing is lost. The last clause is no immediate: it is the interrupt vector table's address that the
service sequence computes, where the OR equals the sum (60_exceptions.md R212). Rests on the spec's own choices D2, D3. -/
def Obligations.ImmediatesAreExact : Prop :=
  (∀ i : BitVec 5, (immOperand i).toInt = i.toInt)
  ∧ (∀ o : BitVec 6, (byteOffset o).toInt = o.toInt)
  ∧ (∀ o : BitVec 6, (wordOffset o).toInt = 2 * o.toInt)
  ∧ (∀ o : BitVec 9, (pcOffset9 o).toInt = 2 * o.toInt)
  ∧ (∀ o : BitVec 11, (pcOffset11 o).toInt = 2 * o.toInt)
  ∧ (∀ v : BitVec 8, (trapAddr v).toNat = 2 * v.toNat)
  ∧ (∀ v : BitVec 8, (ivtAddr v).toNat = 0x200 + 2 * v.toNat)

/-! ## What each instruction does (41_alu.md, 42_load_store.md, 43_control.md) -/

/-- ADD, AND and XOR, register form: one tick that writes the destination and the flags of the result (R110 to R112). -/
def Obligations.AluRegisterForms : Prop :=
  ∀ (s : State) (dr a b : Reg), s.runs = true →
    exec (.addReg dr a b) s = .next { devicesTick s with
      regs := s.regs.set dr (s.regs.get a + s.regs.get b), psr := s.psr.setcc (s.regs.get a + s.regs.get b), ustate := 18#6 }
    ∧ exec (.andReg dr a b) s = .next { devicesTick s with
      regs := s.regs.set dr (s.regs.get a &&& s.regs.get b), psr := s.psr.setcc (s.regs.get a &&& s.regs.get b),
      ustate := 18#6 }
    ∧ exec (.xorReg dr a b) s = .next { devicesTick s with
      regs := s.regs.set dr (s.regs.get a ^^^ s.regs.get b), psr := s.psr.setcc (s.regs.get a ^^^ s.regs.get b),
      ustate := 18#6 }

/-- The same with the sign-extended 5-bit immediate as second operand (R110 to R112, R122). -/
def Obligations.AluImmediateForms : Prop :=
  ∀ (s : State) (dr a : Reg) (i : BitVec 5), s.runs = true →
    exec (.addImm dr a i) s = .next { devicesTick s with
      regs := s.regs.set dr (s.regs.get a + i.signExtend 16), psr := s.psr.setcc (s.regs.get a + i.signExtend 16),
      ustate := 18#6 }
    ∧ exec (.andImm dr a i) s = .next { devicesTick s with
      regs := s.regs.set dr (s.regs.get a &&& i.signExtend 16), psr := s.psr.setcc (s.regs.get a &&& i.signExtend 16),
      ustate := 18#6 }
    ∧ exec (.xorImm dr a i) s = .next { devicesTick s with
      regs := s.regs.set dr (s.regs.get a ^^^ i.signExtend 16), psr := s.psr.setcc (s.regs.get a ^^^ i.signExtend 16),
      ustate := 18#6 }

/-- SHF, told with numbers: left multiplies by a power of two modulo 2^16, logical right divides the unsigned value,
arithmetic right divides the signed value rounding toward minus infinity; the result goes to DR and sets the flags (R114).
Rests on the spec's own choices D2, D19. -/
def Obligations.ShiftForms : Prop :=
  ∀ (s : State) (dr a : Reg) (n : BitVec 4), s.runs = true →
    (∃ r : Word, r.toNat = (s.regs.get a).toNat * 2 ^ n.toNat % 65536 ∧ exec (.lshf dr a n) s = .next { devicesTick s with
      regs := s.regs.set dr r, psr := s.psr.setcc r, ustate := 18#6 })
    ∧ (∃ r : Word, r.toNat = (s.regs.get a).toNat / 2 ^ n.toNat ∧ exec (.rshfl dr a n) s = .next { devicesTick s with
      regs := s.regs.set dr r, psr := s.psr.setcc r, ustate := 18#6 })
    ∧ (∃ r : Word, r.toInt = (s.regs.get a).toInt / 2 ^ n.toNat ∧ exec (.rshfa dr a n) s = .next { devicesTick s with
      regs := s.regs.set dr r, psr := s.psr.setcc r, ustate := 18#6 })

/-- LEA: the (already incremented) PC plus twice the signed offset, modulo 2^16, in DR, with the flags of it (R115). Rests
on the spec's own choice D30. -/
def Obligations.LeaResult : Prop :=
  ∀ (s : State) (dr : Reg) (o : BitVec 9), s.runs = true →
    ∃ r : Word, r = s.pc + BitVec.ofInt 16 (2 * o.toInt) ∧ exec (.lea dr o) s = .next { devicesTick s with
      regs := s.regs.set dr r, psr := s.psr.setcc r, ustate := 18#6 }

/-- LDB: 1 tick for the address, D + 1 for the word, 1 to write the sign-extended byte that the address's bit 0 selects,
and its flags; never a trap (R130). Rests on the spec's own choices D19, D29. -/
def Obligations.LdbResult : Prop :=
  ∀ (s : State) (dr base : Reg) (o : BitVec 6), s.atEntry = true →
    let ea := s.regs.get base + o.signExtend 16
    let r := loadWord ea (devicesTicks (s.cfg.memDelay + 2) s)
    let v := if ea.getLsbD 0 then (r.1.extractLsb' 8 8).signExtend 16 else (r.1.extractLsb' 0 8).signExtend 16
    exec (.ldb dr base o) s = .next { devicesTick r.2 with
      regs := s.regs.set dr v, psr := s.psr.setcc v, mar := ea, mdr := r.1, ustate := 18#6, busy := 0 }

/-- LDW from an even address: 1 tick for the address, D + 1 for the word, 1 to write it and its flags (R131). Rests on the
spec's own choice D19. -/
def Obligations.LdwResult : Prop :=
  ∀ (s : State) (dr base : Reg) (o : BitVec 6), s.atEntry = true →
    let ea := s.regs.get base + o.signExtend 16 <<< 1
    let r := loadWord ea (devicesTicks (s.cfg.memDelay + 2) s)
    ea.getLsbD 0 = false →
    exec (.ldw dr base o) s = .next { devicesTick r.2 with
      regs := s.regs.set dr r.1, psr := s.psr.setcc r.1, mar := ea, mdr := r.1, ustate := 18#6, busy := 0 }

/-- LDI with both addresses even: the word at the address that the first word holds (R132). Rests on the spec's own
choices D3, D19. -/
def Obligations.LdiResult : Prop :=
  ∀ (s : State) (dr base : Reg) (o : BitVec 6), s.atEntry = true →
    let ea := s.regs.get base + o.signExtend 16 <<< 1
    let r1 := loadWord ea (devicesTicks (s.cfg.memDelay + 2) s)
    let r2 := loadWord r1.1 (devicesTicks (s.cfg.memDelay + 2) r1.2)
    ea.getLsbD 0 = false → r1.1.getLsbD 0 = false →
    exec (.ldi dr base o) s = .next { devicesTick r2.2 with
      regs := s.regs.set dr r2.1, psr := s.psr.setcc r2.1, mar := r1.1, mdr := r2.1, ustate := 18#6, busy := 0 }

/-- STB: 2 ticks for address and data, D + 1 for the write of the one lane that the address's bit 0 selects; then the twin
fetch state 19; never a trap, no register and no flag written (R133, R149, R150). Rests on the spec's own choices D7, D9,
D32. -/
def Obligations.StbResult : Prop :=
  ∀ (s : State) (sr base : Reg) (o : BitVec 6), s.atEntry = true →
    let ea := s.regs.get base + o.signExtend 16
    let b := (s.regs.get sr).extractLsb' 0 8
    exec (.stb sr base o) s = .next
      { storeWord ea (b ++ b) (if ea.getLsbD 0 then 0xFF00#16 else 0x00FF#16) (devicesTicks (s.cfg.memDelay + 3) s) with
        mar := ea, mdr := b ++ b, ustate := 19#6, busy := 0 }

/-- STW to an even address: 2 ticks for address and data, D + 1 for the write of the whole word (R134). Rests on the
spec's own choice D11. -/
def Obligations.StwResult : Prop :=
  ∀ (s : State) (sr base : Reg) (o : BitVec 6), s.atEntry = true →
    let ea := s.regs.get base + o.signExtend 16 <<< 1
    ea.getLsbD 0 = false →
    exec (.stw sr base o) s = .next
      { storeWord ea (s.regs.get sr) 0xFFFF#16 (devicesTicks (s.cfg.memDelay + 3) s) with
        mar := ea, mdr := s.regs.get sr, ustate := 18#6, busy := 0 }

/-- STI with both addresses even: the whole word goes to the address that the first word holds (R135). Rests on the spec's
own choice D3. -/
def Obligations.StiResult : Prop :=
  ∀ (s : State) (sr base : Reg) (o : BitVec 6), s.atEntry = true →
    let ea := s.regs.get base + o.signExtend 16 <<< 1
    let r1 := loadWord ea (devicesTicks (s.cfg.memDelay + 2) s)
    ea.getLsbD 0 = false → r1.1.getLsbD 0 = false →
    exec (.sti sr base o) s = .next
      { storeWord r1.1 (s.regs.get sr) 0xFFFF#16 (devicesTicks (s.cfg.memDelay + 3) r1.2) with
        mar := r1.1, mdr := s.regs.get sr, ustate := 18#6, busy := 0 }

/-- BR: taken iff a flag is set that the mask names; then PC moves by twice the signed offset, in 2 ticks; otherwise in 1
tick it does not (R160, R169). The branch latch in the next state is the model's: `exec` sets it from the instruction's own
mask, where the machine's decode has set it and state 0 writes nothing (10_state.md R23, R168); log entry 22. Rests on the
spec's own choice D30 and the model's log entry 22. -/
def Obligations.BranchResult : Prop :=
  ∀ (s : State) (n z p : Bool) (o : BitVec 9), s.runs = true →
    (((s.psr.n = true ∧ n = true) ∨ (s.psr.z = true ∧ z = true) ∨ (s.psr.p = true ∧ p = true)) →
      exec (.br n z p o) s = .next { devicesTicks 2 s with
        pc := s.pc + BitVec.ofInt 16 (2 * o.toInt), ben := true, ustate := 18#6 })
    ∧ (¬((s.psr.n = true ∧ n = true) ∨ (s.psr.z = true ∧ z = true) ∨ (s.psr.p = true ∧ p = true)) →
      exec (.br n z p o) s = .next { devicesTick s with ben := false, ustate := 18#6 })

/-- JMP, when the check is off or the target even: PC takes the register as it is (R162). Rests on the spec's own choice
D13. -/
def Obligations.JumpResult : Prop :=
  ∀ (s : State) (base : Reg), s.runs = true → (s.cfg.jmpAlignCheck = false ∨ (s.regs.get base).getLsbD 0 = false) →
    exec (.jmp base) s = .next { devicesTick s with pc := s.regs.get base, ustate := 18#6 }

/-- JSR and JSRR: the link register takes the incremented PC; JSRR reads its base after that write, so JSRR R7 goes on at
the next instruction; the target is not checked (R163, R164). Rests on the spec's own choices D20, D30. -/
def Obligations.CallResult : Prop :=
  ∀ (s : State), s.runs = true →
    (∀ o : BitVec 11, exec (.jsr o) s = .next { devicesTicks 2 s with
      regs := s.regs.set .r7 s.pc, pc := s.pc + BitVec.ofInt 16 (2 * o.toInt), ustate := 18#6 })
    ∧ (∀ base : Reg, base ≠ .r7 → exec (.jsrr base) s = .next { devicesTicks 2 s with
      regs := s.regs.set .r7 s.pc, pc := s.regs.get base, ustate := 18#6 })
    ∧ exec (.jsrr .r7) s = .next { devicesTicks 2 s with regs := s.regs.set .r7 s.pc, pc := s.pc, ustate := 18#6 }

/-- TRAP: the link register takes the incremented PC, and PC the word of the trap vector table's entry; no flag, mode,
priority or stack changes (R166). Rests on the spec's own choice D31. -/
def Obligations.TrapResult : Prop :=
  ∀ (s : State) (v : BitVec 8), s.atEntry = true →
    let r := loadWord (v.setWidth 16 <<< 1) (devicesTicks (s.cfg.memDelay + 2) s)
    exec (.trap v) s = .next { devicesTick r.2 with
      regs := s.regs.set .r7 s.pc, pc := r.1, mar := v.setWidth 16 <<< 1, mdr := r.1, ustate := 18#6, busy := 0 }

/-- RTI in supervisor mode: pop PC, pop the PSR, end the interrupt of the old priority, and go to the user stack if the
restored mode is user; 2D + 8 ticks (R167, R183). Rests on the spec's own choices D4, D16, D17. -/
def Obligations.RtiResult : Prop :=
  ∀ (s : State), s.atEntry = true → s.psr.priv = .supervisor →
    let sp := s.regs.get .r6
    let r1 := loadWord sp (devicesTicks (s.cfg.memDelay + 2) s)
    let r2 := loadWord (sp + 2#16) (devicesTicks (s.cfg.memDelay + 3) r1.2)
    let d := devicesTick r2.2
    let e := devicesTicks 2 { d with pic := d.pic.finish s.psr.priority, psr := Psr.ofWord r2.1 }
    exec .rti s = .next
      (if (Psr.ofWord r2.1).priv = .user then
        { e with regs := s.regs.set .r6 s.usp, ssp := sp + 4#16, pc := r1.1, mar := sp + 2#16, mdr := r2.1, ustate := 18#6,
                 busy := 0 }
      else
        { e with regs := s.regs.set .r6 (sp + 4#16), pc := r1.1, mar := sp + 2#16, mdr := r2.1, ustate := 18#6, busy := 0 })

/-! ## Where an instruction traps (60_exceptions.md R201, R203) -/

/-- LDW, STW, LDI and STI with an odd first address: after 1 tick the latch holds Illegal Operand Address, MAR the
address, and nothing else of the CPU or of memory has changed (R51, R137). Rests on the spec's own choices D13, D14. -/
def Obligations.OddFirstAddressTraps : Prop :=
  ∀ (s : State) (r base : Reg) (o : BitVec 6), s.runs = true →
    let ea := s.regs.get base + o.signExtend 16 <<< 1
    let t := { devicesTick s with
      mar := ea, intf := true, intv := s.cfg.excIllAddr, intp := s.cfg.excPriority, ustate := 18#6 }
    ea.getLsbD 0 = true →
    exec (.ldw r base o) s = .next t ∧ exec (.stw r base o) s = .next t
    ∧ exec (.ldi r base o) s = .next t ∧ exec (.sti r base o) s = .next t

/-- LDI and STI whose first word is odd: the first read has happened, then the same trap (R132, R135). Rests on the spec's
own choices D13, D14. -/
def Obligations.OddSecondAddressTraps : Prop :=
  ∀ (s : State) (r base : Reg) (o : BitVec 6), s.atEntry = true →
    let ea := s.regs.get base + o.signExtend 16 <<< 1
    let r1 := loadWord ea (devicesTicks (s.cfg.memDelay + 2) s)
    let t := { devicesTick r1.2 with
      mar := r1.1, mdr := r1.1, intf := true, intv := s.cfg.excIllAddr, intp := s.cfg.excPriority, ustate := 18#6, busy := 0 }
    ea.getLsbD 0 = false → r1.1.getLsbD 0 = true →
    exec (.ldi r base o) s = .next t ∧ exec (.sti r base o) s = .next t

/-- JMP to an odd address while the check is on: the trap, with PC as it was (R162). Rests on the spec's own choices D13,
D14. -/
def Obligations.OddJumpTraps : Prop :=
  ∀ (s : State) (base : Reg), s.runs = true → s.cfg.jmpAlignCheck = true → (s.regs.get base).getLsbD 0 = true →
    exec (.jmp base) s = .next { devicesTick s with
      intf := true, intv := s.cfg.excIllAddr, intp := s.cfg.excPriority, ustate := 18#6 }

/-- RTI in user mode: Privilege Mode Violation, with PC, PSR, the stack pointer and memory as they were (R167, R178).
Rests on the spec's own choice D14. -/
def Obligations.UserRtiTraps : Prop :=
  ∀ (s : State), s.runs = true → s.psr.priv = .user →
    exec .rti s = .next { devicesTicks 2 s with
      mar := s.regs.get .r6, intf := true, intv := s.cfg.excPriv, intp := s.cfg.excPriority, ustate := 18#6 }

/-! ## What an instruction leaves alone -/

/-- Every instruction, in every state: the general registers are unchanged except its destination, R7 of JSR, JSRR and
TRAP, and R6 of RTI (10_state.md R12). -/
def Obligations.RegisterFrame : Prop :=
  ∀ (i : Instr) (s t : State), exec i s = .next t → ∀ r : Reg, r ∉ i.writesRegs → t.regs.get r = s.regs.get r

/-- The flags change only under the eight flag-writing instructions and RTI; mode and priority only under RTI; and no
instruction takes the machine out of user mode (10_state.md R17, 60_exceptions.md R231, R233). Rests on the spec's own
choice D34. -/
def Obligations.StatusFrame : Prop :=
  ∀ (i : Instr) (s t : State), exec i s = .next t →
    (i.writesFlags = false → t.psr.n = s.psr.n ∧ t.psr.z = s.psr.z ∧ t.psr.p = s.psr.p)
    ∧ (i ≠ .rti → t.psr.priv = s.psr.priv ∧ t.psr.priority = s.psr.priority)
    ∧ (s.psr.priv = .user → t.psr.priv = .user)

/-- `exec`, which starts after decode, changes for no instruction the saved user stack pointer, only for RTI the saved
supervisor one, and takes no latched event away (10_state.md R19, R24). Three clauses are the model's: it does not write
IR, which state 35 has written for every instruction, and writes the branch latch only for BR, where decode has written it
for every one (R20, R23; log entry 22); and the parameters are part of State and never change (log entry 2). Rests on the
spec's own choice D18 and the model's log entries 2 and 22. -/
def Obligations.SpecialRegisterFrame : Prop :=
  ∀ (i : Instr) (s t : State), exec i s = .next t →
    t.cfg = s.cfg ∧ t.ir = s.ir ∧ t.usp = s.usp
    ∧ (i ≠ .rti → t.ssp = s.ssp)
    ∧ ((∀ n z p o, i ≠ .br n z p o) → t.ben = s.ben)
    ∧ (s.intf = true → t.intf = true)

/-- An instruction that is no store leaves every byte of memory and the machine-control register as they were
(20_memory.md R41). -/
def Obligations.MemoryFrameOfNonStores : Prop :=
  ∀ (i : Instr) (s t : State), exec i s = .next t → i.stores = false →
    t.mcr = s.mcr ∧ ∀ a : Nat, Memory.read t.mem a = Memory.read s.mem a

/-- A store changes no byte but those it stores to: STB the byte at its address, STW the two bytes of the word at its
address, STI the two bytes of the word at the address its first read gives (42_load_store.md R133 to R135). -/
def Obligations.MemoryFrameOfStores : Prop :=
  ∀ (s t : State) (sr base : Reg) (o : BitVec 6), s.atEntry = true → s.dataInv = true →
    (exec (.stb sr base o) s = .next t → ∀ a : Nat, a ≠ (byteAddress s.regs base o).toNat →
      Memory.read t.mem a = Memory.read s.mem a)
    ∧ (exec (.stw sr base o) s = .next t → ∀ ea : Word, ea = wordAddress s.regs base o →
      ∀ a : Nat, a ≠ (evenAddr ea).toNat → a ≠ (evenAddr ea).toNat + 1 → Memory.read t.mem a = Memory.read s.mem a)
    ∧ (exec (.sti sr base o) s = .next t →
      ∀ ea : Word, ea = (loadWord (wordAddress s.regs base o) (devicesTicks (s.cfg.memDelay + 2) s)).1 →
      ∀ a : Nat, a ≠ (evenAddr ea).toNat → a ≠ (evenAddr ea).toNat + 1 → Memory.read t.mem a = Memory.read s.mem a)

/-! ## A step (40_microsequencer.md R97 to R104) -/

/-- At a fetch boundary with no event latched, where the two bytes at PC decode to `i`, a step is `exec i` from the state
that fetch and decode leave: PC moved past the word, IR, MDR and MAR holding it and its address, the branch latch
computed, D + 4 ticks of the other blocks done (R97 to R102). Rests on the model's log entry 3. -/
def Obligations.StepRunsDecodedInstruction : Prop :=
  ∀ (s : State) (i : Instr) (w : Word), s.fetches = true → inArray s.pc = true →
    w = Memory.readWord s.mem (evenAddr s.pc) →
    decode [Memory.read s.mem (evenAddr s.pc).toNat, Memory.read s.mem ((evenAddr s.pc).toNat + 1)] = .ok (i, []) →
    step s = exec i { devicesTicks (s.cfg.memDelay + 4) s with
      pc := s.pc + 2#16, ir := w, mar := s.pc, mdr := w,
      ben := branchEnable (w.getLsbD 11) (w.getLsbD 10) (w.getLsbD 9) s.psr,
      ustate := (w.extractLsb' 12 4).setWidth 6, busy := 0 }

/-- At a fetch boundary with no event latched a step is `exec` of the decoded instruction wherever PC points: the fetch is
a word read like a load's, bit 0 of PC ignored and a device register's side effect included (40_microsequencer.md R97 to
R102, 20_memory.md R52, R55). Rests on the spec's own choice D13 and the model's log entry 3. -/
def Obligations.StepFetchesLikeALoad : Prop :=
  ∀ s : State, s.fetches = true →
    let r := loadWord s.pc (devicesTicks (s.cfg.memDelay + 2) s)
    step s = exec (decodeWord r.1) { devicesTicks 2 r.2 with
      pc := s.pc + 2#16, ir := r.1, mar := s.pc, mdr := r.1,
      ben := branchEnable (r.1.getLsbD 11) (r.1.getLsbD 10) (r.1.getLsbD 9) s.psr,
      ustate := (r.1.extractLsb' 12 4).setWidth 6, busy := 0 }

/-- At a fetch boundary with an event latched a step is the service sequence: PSR and the PC not incremented pushed on the
supervisor stack, the old stack pointer saved when it was the user's, supervisor mode at the event's priority, PC from the
vector table, the latch cleared, and everything else kept (60_exceptions.md R204). A push is a word store wherever it
lands, the array, a device register or a reserved address; the one premise is that none stops the clock
(70_reset_and_hazards.md R272), and `PushOntoMcrStopsTheClock` tells the rest. Rests on the spec's own choices D4, D14,
D16, D18. -/
def Obligations.StepServesLatchedEvent : Prop :=
  ∀ s : State, s.serves = true → s.pushesKeepClock = true →
    let d := s.cfg.memDelay
    let f := devicesTick s
    let a := storeWord (s.serviceStack - 2#16) s.psr.word 0xFFFF#16
      (devicesTicks (if s.psr.priv = .user then d + 5 else d + 4) s)
    let b := storeWord (s.serviceStack - 4#16) s.pc 0xFFFF#16 (devicesTicks (d + 3) a)
    let h := Memory.readWord b.mem (0x200#16 + f.intv.setWidth 16 <<< 1)
    step s = .next { devicesTicks (d + 3) b with
      regs := s.regs.set .r6 (s.serviceStack - 4#16), pc := h, mar := 0x200#16 + f.intv.setWidth 16 <<< 1, mdr := h,
      usp := if s.psr.priv = .user then s.regs.get .r6 else s.usp,
      psr := { s.psr with priv := .supervisor, priority := f.intp }, intf := false, ustate := 18#6, busy := 0 }

/-- The frame that the service sequence leaves: the saved PC at the stack pointer and the saved PSR above it, each where
the array backs the place it goes to, and no other byte of memory changed (60_exceptions.md R215, 70_reset_and_hazards.md
R272). Rests on the spec's own choice D16. -/
def Obligations.ServiceFrameLayout : Prop :=
  ∀ s : State, s.serves = true → s.dataInv = true → s.pushesKeepClock = true →
    ∃ t, step s = .next t ∧ t.regs.get .r6 = s.serviceStack - 4#16
      ∧ (inArray (s.serviceStack - 4#16) = true → (loadWord (t.regs.get .r6) t).1 = s.pc)
      ∧ (inArray (s.serviceStack - 2#16) = true → (loadWord (t.regs.get .r6 + 2#16) t).1 = s.psr.word)
      ∧ ∀ x : Nat, x ∉ [(evenAddr (s.serviceStack - 2#16)).toNat, (evenAddr (s.serviceStack - 2#16)).toNat + 1,
          (evenAddr (s.serviceStack - 4#16)).toNat, (evenAddr (s.serviceStack - 4#16)).toNat + 1] →
        Memory.read t.mem x = Memory.read s.mem x

/-- A push of a word with bit 15 clear that lands on the machine-control register stops the clock in the middle of the
sequence, with the latch still set. Of the PSR, that is a supervisor's, and the machine stands in state 43 with PC not yet
pushed; of the PC, from either mode, it stands in state 50 with PSR pushed, the supervisor stack taken and neither mode,
priority nor PC changed (70_reset_and_hazards.md R272, 93_implementation_defined.md U12). Rests on the spec's own choices
D6, D16, D22. -/
def Obligations.PushOntoMcrStopsTheClock : Prop :=
  ∀ s : State, s.serves = true →
    (s.psr.priv = .supervisor → evenAddr (s.regs.get .r6 - 2#16) = 0xFFFE#16 →
      step s = .next { devicesTicks (s.cfg.memDelay + 4) s with
        regs := s.regs.set .r6 (s.regs.get .r6 - 2#16), mar := s.regs.get .r6 - 2#16, mdr := s.psr.word, mcr := s.psr.word,
        ustate := 43#6, busy := 0 }
      ∧ s.psr.word.getLsbD 15 = false)
    ∧ (s.pc.getLsbD 15 = false → evenAddr (s.serviceStack - 4#16) = 0xFFFE#16 →
      let a := storeWord (s.serviceStack - 2#16) s.psr.word 0xFFFF#16
        (devicesTicks (if s.psr.priv = .user then s.cfg.memDelay + 5 else s.cfg.memDelay + 4) s)
      step s = .next { devicesTicks (s.cfg.memDelay + 3) a with
        regs := s.regs.set .r6 (s.serviceStack - 4#16), mar := s.serviceStack - 4#16, mdr := s.pc, mcr := s.pc,
        usp := if s.psr.priv = .user then s.regs.get .r6 else s.usp, ustate := 50#6, busy := 0 })

/-- While the clock is off, nothing ticks (60_exceptions.md R245); and a step of the model then changes nothing, which is
log entry 3. Rests on the spec's own choice D22 and the model's log entry 3. -/
def Obligations.StoppedClockKeepsState : Prop :=
  ∀ s : State, s.mcr.getLsbD 15 = false → tick s = .next s ∧ step s = .next s

/-- The break byte ends the run, before the byte is latched (60_exceptions.md R238). Rests on the spec's own choice D35
and the model's log entry 4. -/
def Obligations.BreakByteEndsTheRun : Prop :=
  ∀ (s : State) (k : Nat) (rest : List (Nat × Byte)), s.clockOn = true → s.kbd.ready = false → s.input = (k, 0x03#8) :: rest →
    k ≤ s.ticks → tick s = .fault .keyboardBreak ∧ step s = .fault .keyboardBreak

/-- A machine forced into a micro-state with no control-store entry has no successor (40_microsequencer.md R96). Rests on
the spec's own choice D8 and the model's log entry 5. -/
def Obligations.UnusedStatesFault : Prop :=
  ∀ s : State, s.runs = true → s.ustate ∈ [26#6, 46#6, 53#6, 55#6, 57#6, 61#6, 63#6] →
    tick s = .fault .unusedMicroState ∧ step s = .fault .unusedMicroState

/-- A step, one instruction or one service sequence at a time, is the microsequencer's loop run to the next fetch state:
the two levels of the spec agree, ticks, devices, faults and a clock that stops on the way included (R90, R91, R102).
Rests on the model's log entry 3. -/
def Obligations.StepIsTheTickLoop : Prop :=
  ∀ s : State, s.memUnitInv = true → step s = runToFetch (runBound s) s

/-- A running machine in a state that meets the invariant, whatever micro-state it is in, comes in one step to a fetch
state, or to a stopped clock: nothing blocks, nothing faults (R104). Rests on the model's log entry 3. -/
def Obligations.EveryStepCompletes : Prop :=
  ∀ s : State, s.inv = true → s.runs = true → SafeStep s ∧
    ∀ t, step s = .next t → isFetchState t.ustate = true ∨ t.clockOn = false

/-! ## Invariants -/

/-- Every tick, and so every step, keeps the invariant: the micro-state has an entry and is in the service sequence only
with an event latched; a memory operation is outstanding only in a wait state of its kind; memory stays in canonical form;
no line is requested and in service at once; the display counts exactly while it is busy; the parameters stay in their
ranges (10_state.md R26 to R30, 40_microsequencer.md R94 to R96, 60_exceptions.md R241). That memory is a list in canonical
form is the model's log entry 1, that the parameters are part of State its log entry 2, what a step is its log entry 3.
Rests on the spec's own choice D6 and the model's log entries 1, 2 and 3. -/
def Obligations.StepKeepsInvariant : Prop :=
  ∀ s t : State, s.inv = true → (tick s = .next t → t.inv = true) ∧ (step s = .next t → t.inv = true)

/-- The reset values, of `State.reset` and of a machine that has run and is reset: every register of the CPU and of the
PIC, the latches, the display's counter and MCR at 0, so supervisor mode, priority 0 and the clock off; the fetch state 18;
the memory unit idle; KBSR 0x4000, DSR 0x8000, both data registers 0. A reset keeps the memory array, the output sink and
the host's input, and the model's parameters and tick count; and the invariant holds after it (70_reset_and_hazards.md R260
to R262). Rests on the spec's own choices D21 to D25 and the model's log entries 1, 2, 7 and 8. -/
def Obligations.ResetMeetsInvariant : Prop :=
  (∀ t : State, (t = State.reset ∨ ∃ s, t = hostReset s) →
    (∀ r : Reg, t.regs.get r = 0#16) ∧ t.pc = 0#16 ∧ t.ssp = 0#16 ∧ t.usp = 0#16
    ∧ t.psr = { priv := .supervisor, priority := 0#3, n := false, z := false, p := false } ∧ t.psr.word = 0#16
    ∧ t.ir = 0#16 ∧ t.mar = 0#16 ∧ t.mdr = 0#16 ∧ t.ben = false ∧ t.intf = false ∧ t.intv = 0#8 ∧ t.intp = 0#3
    ∧ t.ustate = 18#6 ∧ t.busy = 0 ∧ t.rdEn = false ∧ t.wrEn = false
    ∧ t.pic.irr = 0#8 ∧ t.pic.isr = 0#8 ∧ t.pic.imr = 0#8 ∧ t.pic.cmd = 0#16
    ∧ (loadWord 0xFE00#16 t).1 = 0x4000#16 ∧ (loadWord 0xFE02#16 t).1 = 0#16
    ∧ (loadWord 0xFE04#16 t).1 = 0x8000#16 ∧ (loadWord 0xFE06#16 t).1 = 0#16 ∧ t.dsp.settle = 0
    ∧ t.mcr = 0#16 ∧ t.clockOn = false)
  ∧ State.reset.inv = true
  ∧ ∀ s : State, (s.dataInv = true → (hostReset s).inv = true)
      ∧ (hostReset s).mem = s.mem ∧ (hostReset s).output = s.output ∧ (hostReset s).input = s.input
      ∧ (hostReset s).cfg = s.cfg ∧ (hostReset s).ticks = s.ticks

/-! ## The microsequencer tick by tick -/

/-- State 35 latches IR from MDR and goes to 32 (R99). -/
def Obligations.TickLatchesIr : Prop :=
  ∀ s : State, s.runs = true → s.ustate = 35#6 → tick s = .next { devicesTick s with ir := s.mdr, ustate := 32#6 }

/-- State 32 computes the branch-enable latch for every opcode and dispatches to the state that the opcode numbers (R101).
-/
def Obligations.TickDecodes : Prop :=
  ∀ s : State, s.runs = true → s.ustate = 32#6 → tick s = .next { devicesTick s with
    ben := (s.psr.n && s.ir.getLsbD 11) || (s.psr.z && s.ir.getLsbD 10) || (s.psr.p && s.ir.getLsbD 9),
    ustate := BitVec.ofNat 6 (s.ir.toNat / 4096) }

/-- The alignment check: after a checked state has written MAR, an odd MAR ends it with the exception latched and nothing
else changed, an even one goes on; LDB and STB are never checked (42_load_store.md R137). Rests on the spec's own choices
D6, D13, D14. -/
def Obligations.TickChecksAlignment : Prop :=
  ∀ s : State, s.runs = true →
    let ea := s.regs.get (Word.sr1 s.ir) + (Word.offset6 s.ir).signExtend 16 <<< 1
    let go : Word → UState → Out := fun a k =>
      if a.getLsbD 0 then .next { devicesTick s with
        mar := a, intf := true, intv := s.cfg.excIllAddr, intp := s.cfg.excPriority, ustate := 18#6 }
      else .next { devicesTick s with mar := a, ustate := k }
    (s.ustate = 6#6 → tick s = go ea 25#6) ∧ (s.ustate = 7#6 → tick s = go ea 23#6)
    ∧ (s.ustate = 10#6 → tick s = go ea 56#6) ∧ (s.ustate = 11#6 → tick s = go ea 60#6)
    ∧ (s.ustate = 58#6 → tick s = go s.mdr 25#6) ∧ (s.ustate = 62#6 → tick s = go s.mdr 23#6)
    ∧ (s.ustate ∈ [2#6, 3#6] → tick s = .next { devicesTick s with
        mar := s.regs.get (Word.sr1 s.ir) + (Word.offset6 s.ir).signExtend 16,
        ustate := if s.ustate = 2#6 then 29#6 else 24#6 })

/-- A wait state makes one call of the memory unit a tick: the first starts the operation, the calls while the delay runs
change nothing, the completing one reads MAR's word into MDR, or stores MDR under the mask, and moves on to the state with
bit 1 set (R100, R95, 20_memory.md R46, R47). Rests on the spec's own choices D6, D11. -/
def Obligations.TickOfWaitStates : Prop :=
  ∀ s : State, s.runs = true →
    let d := devicesTick s
    (s.ustate ∈ readStates →
      (s.rdEn = false → tick s = .next { d with rdEn := true, busy := s.cfg.memDelay })
      ∧ (s.rdEn = true → 0 < d.busy → tick s = .next d)
      ∧ (s.rdEn = true → d.busy = 0 → tick s = .next { (loadWord s.mar d).2 with
          mdr := (loadWord s.mar d).1, rdEn := false, ustate := s.ustate ||| 2#6 }))
    ∧ (s.ustate ∈ writeStates →
      (s.wrEn = false → tick s = .next { d with wrEn := true, busy := s.cfg.memDelay })
      ∧ (s.wrEn = true → 0 < d.busy → tick s = .next d)
      ∧ (s.wrEn = true → d.busy = 0 → tick s = .next
          { storeWord s.mar s.mdr (if s.ustate = 17#6 then laneMask s.mar else 0xFFFF#16) d with
            wrEn := false, ustate := s.ustate ||| 2#6 }))

/-- Each register of the datapath is written only in the states that the spec names for it, and the latch is cleared only
in state 54 (10_state.md R19 to R24). Rests on the spec's own choice D6. -/
def Obligations.RegistersChangeOnlyInTheirStates : Prop :=
  ∀ s t : State, tick s = .next t →
    (s.ustate ≠ 35#6 → t.ir = s.ir)
    ∧ (s.ustate ≠ 32#6 → t.ben = s.ben)
    ∧ (s.ustate ∉ [18#6, 19#6, 2#6, 3#6, 6#6, 7#6, 10#6, 11#6, 58#6, 62#6, 15#6, 8#6, 39#6, 37#6, 47#6, 50#6] → t.mar = s.mar)
    ∧ (s.ustate ∉ readStates ++ [23#6, 24#6, 49#6, 43#6] → t.mdr = s.mdr)
    ∧ (s.ustate ≠ 45#6 → t.usp = s.usp) ∧ (s.ustate ≠ 59#6 → t.ssp = s.ssp)
    ∧ (s.ustate ≠ 54#6 → s.intf = true → t.intf = true)

/-- The mode changes in two ways only: to supervisor in state 50 of the service sequence, to user in state 42 of an RTI
that started in supervisor mode (60_exceptions.md R233). Rests on the spec's own choice D6. -/
def Obligations.ModeChangesOnlyThere : Prop :=
  ∀ s t : State, s.sequencerInv = true → tick s = .next t → t.psr.priv ≠ s.psr.priv →
    (s.ustate = 50#6 ∧ t.psr.priv = .supervisor) ∨ (s.ustate = 42#6 ∧ t.psr.priv = .user)

/-! ## Flags, memory, interrupt controller, devices, host -/

/-- `setcc`: N iff the high bit is set, Z iff the value is zero, P iff neither; so exactly one of the three; the rest of
the PSR stays (10_state.md R18). -/
def Obligations.ConditionFlags : Prop :=
  ∀ (q : Psr) (v : Word),
    ((q.setcc v).n = true ↔ v.toInt < 0) ∧ ((q.setcc v).z = true ↔ v.toInt = 0) ∧ ((q.setcc v).p = true ↔ 0 < v.toInt)
    ∧ (q.setcc v).priv = q.priv ∧ (q.setcc v).priority = q.priority
    ∧ ((q.setcc 0x000A#16).n, (q.setcc 0x000A#16).z, (q.setcc 0x000A#16).p) = (false, false, true)
    ∧ ((q.setcc 0x0000#16).n, (q.setcc 0x0000#16).z, (q.setcc 0x0000#16).p) = (false, true, false)
    ∧ ((q.setcc 0x8000#16).n, (q.setcc 0x8000#16).z, (q.setcc 0x8000#16).p) = (true, false, false)
    ∧ ((q.setcc 0xFFFF#16).n, (q.setcc 0xFFFF#16).z, (q.setcc 0xFFFF#16).p) = (true, false, false)

/-- The PSR's 16-bit view, field by field: bit 15 the mode (1 is user), bits 10:8 the priority, bits 2, 1, 0 the flags N, Z,
P as they come, 0 in every reserved bit when read and nothing of them when written; so a word written and read back keeps
those fields alone, and every PSR survives a push and a pop (10_state.md R15, R16). Rests on the spec's own choice D4. -/
def Obligations.PsrWordView : Prop :=
  (∀ q : Psr, q.word.getLsbD 15 = (q.priv == .user) ∧ q.word.extractLsb' 8 3 = q.priority
      ∧ q.word.getLsbD 2 = q.n ∧ q.word.getLsbD 1 = q.z ∧ q.word.getLsbD 0 = q.p ∧ q.word &&& 0x78F8#16 = 0#16)
  ∧ (∀ w : Word, Psr.ofWord w = {
      priv := if w.getLsbD 15 then .user else .supervisor, priority := w.extractLsb' 8 3,
      n := w.getLsbD 2, z := w.getLsbD 1, p := w.getLsbD 0 })
  ∧ (∀ w : Word, (Psr.ofWord w).word = w &&& 0x8707#16) ∧ (∀ q : Psr, Psr.ofWord q.word = q)

/-- A load after a store gives the value stored, lane by lane; the other words, and the other lane of a byte store, keep
what they held (20_memory.md R44, R47, R60). Rests on the spec's own choices D9, D11. -/
def Obligations.LoadAfterStore : Prop :=
  ∀ (s : State) (a b v : Word), s.dataInv = true → inArray a = true →
    (loadWord a (storeWord a v 0xFFFF#16 s)).1 = v
    ∧ (loadWord a (storeWord a (bothLanes v) (laneMask a) s)).1
        = (if a.getLsbD 0 then v.extractLsb' 0 8 ++ (loadWord a s).1.extractLsb' 0 8
           else (loadWord a s).1.extractLsb' 8 8 ++ v.extractLsb' 0 8)
    ∧ (evenAddr b ≠ evenAddr a → ∀ m : Word, (loadWord b (storeWord a v m s)).1 = (loadWord b s).1)

/-- The loader's block write puts byte `k` of the block at its base plus `k`, and changes no other byte (20_memory.md R44,
R49). Rests on the spec's own choice D9 and the model's log entry 1. -/
def Obligations.WriteBlockPlacesBytes : Prop :=
  ∀ (s : State) (base : Word) (bytes : List Byte), s.dataInv = true → base.toNat + bytes.length ≤ 0xFE00 →
    ∀ x : Nat, Memory.read (writeBlock base bytes s).mem x
      = if h : base.toNat ≤ x ∧ x - base.toNat < bytes.length then bytes[x - base.toNat]'h.2 else Memory.read s.mem x

/-- An instruction that the loader's steps placed is the first to run, with no byte in the keyboard's stream: after reset,
one block with its bytes, PC and the clock enable, a step is `exec` of it, PC past it (70_reset_and_hazards.md R267). A byte
that waits may interrupt first, since reset leaves the keyboard's interrupt enabled (R264). Rests on the model's log entries
2 and 6. -/
def Obligations.LoadedInstructionRunsFirst : Prop :=
  ∀ (s : State) (i : Instr) (pc : Word) (x : Regs) (ssp usp : Word) (q : Psr), s.dataInv = true →
    s.input = [] → pc.getLsbD 0 = false → pc.toNat < 0xFE00 →
    ∃ u, step (launch [(pc, encode i)] pc x ssp usp q s) = exec i u ∧ u.regs = x ∧ u.psr = q ∧ u.pc = pc + 2#16
      ∧ u.ssp = ssp ∧ u.usp = usp ∧ u.ir = encodeWord i ∧ u.runs = true ∧ u.memIdle = true

/-- The PIC's tick: nothing while an event is latched; otherwise the highest requested line above the priority, if there
is one, moves from request to service and is handed over with its vector, whatever is masked or in service; the caller
latches the pair; the worked case of the rule, and the tick after it (60_exceptions.md R219). -/
def Obligations.PicDispatch : Prop :=
  (∀ (c : Pic) (prio : Line),
    c.tick true prio = (c, none)
    ∧ (∀ l : Line, hasLine c.irr l = true → prio.toNat < l.toNat →
        (∀ m : Line, l.toNat < m.toNat → hasLine c.irr m = false) →
        ∃ c', c.tick false prio = (c', some (0x80#8 + l.setWidth 8, l)) ∧ c'.imr = c.imr ∧ c'.cmd = c.cmd
          ∧ ∀ m : Line, hasLine c'.irr m = (hasLine c.irr m && m != l) ∧ hasLine c'.isr m = (hasLine c.isr m || m == l))
    ∧ ((∀ l : Line, prio.toNat < l.toNat → hasLine c.irr l = false) → c.tick false prio = (c, none))
    ∧ (c.irr = 0x20#8 → c.isr = 0#8 → c.tick false 3#3 = ({ c with irr := 0#8, isr := 0x20#8 }, some (0x85#8, 5#3))
        ∧ ∀ (pending : Bool) (q : Line),
            ({ c with irr := 0#8, isr := 0x20#8 } : Pic).tick pending q = ({ c with irr := 0#8, isr := 0x20#8 }, none)))
  ∧ ∀ (s : State) (c : Pic) (v : Vector8) (l : Line), s.pic.tick s.intf s.psr.priority = (c, some (v, l)) →
      picTick s = { s with pic := c, intf := true, intv := v, intp := l }

/-- Raising a line sets its request bit unless the line is masked or in service; finishing one clears its in-service bit;
neither changes any other bit (60_exceptions.md R217, R218). Rests on the spec's own choices D17, D24. -/
def Obligations.PicRaiseAndFinish : Prop :=
  ∀ (c : Pic) (l m : Line),
    hasLine (c.raise l).irr m = (hasLine c.irr m || (m == l && !hasLine c.imr l && !hasLine c.isr l))
    ∧ (c.raise l).isr = c.isr ∧ (c.raise l).imr = c.imr ∧ (c.raise l).cmd = c.cmd
    ∧ hasLine (c.finish l).isr m = (hasLine c.isr m && m != l)
    ∧ (c.finish l).irr = c.irr ∧ (c.finish l).imr = c.imr ∧ (c.finish l).cmd = c.cmd

/-- A latched event is not replaced or taken away by any tick of the devices and the PIC, and no line then leaves request
(60_exceptions.md R227). -/
def Obligations.LatchedEventIsStable : Prop :=
  ∀ (s : State) (n : Nat), s.intf = true →
    (devicesTicks n s).intf = true ∧ (devicesTicks n s).intv = s.intv ∧ (devicesTicks n s).intp = s.intp
    ∧ (devicesTicks n s).pic.isr = s.pic.isr
    ∧ ∀ l : Line, hasLine s.pic.irr l = true → hasLine (devicesTicks n s).pic.irr l = true

/-- A byte other than the break byte that has arrived at an empty keyboard is latched; with its interrupt enabled and its line free and above the
priority (and the display's not competing), the same tick dispatches it; an unread byte is never overwritten, however many
ticks run, and while it is unread and the interrupt enabled every tick raises the line again: unmasked and not in service
it is requested after the tick, or in service if that tick dispatched it (60_exceptions.md R217, R226, R236). `BreakByteEndsTheRun` tells what the break byte does (R238). Rests on the spec's
own choice D25 and the model's log entry 7. -/
def Obligations.KeyboardByteInterrupts : Prop :=
  ∀ s : State,
    (∀ (k : Nat) (b : Byte) (rest : List (Nat × Byte)), s.kbd.ready = false → s.input = (k, b) :: rest → k ≤ s.ticks →
      b ≠ Config.breakByte →
      (devicesTick s).kbd.data = b ∧ (devicesTick s).kbd.ready = true ∧ (devicesTick s).input = rest
      ∧ (s.kbd.ie = true → s.dsp.ie = false → s.pic.irr = 0#8 → hasLine s.pic.imr s.cfg.kbdIrq = false →
          hasLine s.pic.isr s.cfg.kbdIrq = false → s.psr.priority.toNat < s.cfg.kbdIrq.toNat → s.intf = false →
          (devicesTick s).intf = true ∧ (devicesTick s).intv = 0x80#8 + s.cfg.kbdIrq.setWidth 8
          ∧ (devicesTick s).intp = s.cfg.kbdIrq))
    ∧ (s.kbd.ready = true → ∀ n : Nat, (devicesTicks n s).kbd = s.kbd ∧ (devicesTicks n s).input = s.input)
    ∧ (s.kbd.ready = true → s.kbd.ie = true → ∀ n : Nat,
        let u := devicesTicks n s
        let t := devicesTicks (n + 1) s
        hasLine u.pic.imr s.cfg.kbdIrq = false → hasLine u.pic.isr s.cfg.kbdIrq = false →
          (hasLine t.pic.irr s.cfg.kbdIrq = true ∨ hasLine t.pic.isr s.cfg.kbdIrq = true)
          ∧ (u.intf = true ∨ s.cfg.kbdIrq.toNat ≤ s.psr.priority.toNat → hasLine t.pic.irr s.cfg.kbdIrq = true))

/-- A byte stored to a ready display is emitted `DSP_DELAY` ticks later, once, and the display is not ready in between. And
the devices' lines, in every tick that does not take the break byte: a device that is then ready with its interrupt enabled
raises its own line, the display in the very tick that emits, and nothing else is raised; the PIC's tick follows, and what
it dispatches is latched (40_microsequencer.md R90, 60_exceptions.md R219, R236, R240, R241). Rests on the spec's own
choices D25, D26 and the model's log entries 7 and 21. -/
def Obligations.DisplayEmitsAfterItsDelay : Prop :=
  ∀ s : State,
    (∀ (v : Word) (n : Nat), s.dsp.ready = true → 1 ≤ s.cfg.dspDelay →
      (n < s.cfg.dspDelay → (devicesTicks n (storeWord 0xFE06#16 v 0xFFFF#16 s)).output = s.output
        ∧ (devicesTicks n (storeWord 0xFE06#16 v 0xFFFF#16 s)).dsp.ready = false)
      ∧ (s.cfg.dspDelay ≤ n → (devicesTicks n (storeWord 0xFE06#16 v 0xFFFF#16 s)).output = s.output ++ [v.extractLsb' 0 8]
        ∧ (devicesTicks n (storeWord 0xFE06#16 v 0xFFFF#16 s)).dsp.ready = true))
    ∧ (s.breakArrives = false →
      let t := devicesTick s
      let k := if t.kbd.ready = true ∧ s.kbd.ie = true then s.pic.raise s.cfg.kbdIrq else s.pic
      let d := if t.dsp.ready = true ∧ s.dsp.ie = true then k.raise s.cfg.dspIrq else k
      let r := d.tick s.intf s.psr.priority
      t.kbd.ie = s.kbd.ie ∧ t.dsp.ie = s.dsp.ie ∧ t.pic = r.1
      ∧ (∀ v l, r.2 = some (v, l) → t.intf = true ∧ t.intv = v ∧ t.intp = l)
      ∧ (r.2 = none → t.intf = s.intf ∧ t.intv = s.intv ∧ t.intp = s.intp))

/-- The device registers: what a word load of each gives and changes, and what a word store to each changes; the rest of
the device range reads as 0 and discards what is stored; bit 0 of the address is ignored, and a masked store is one word
store of the register's value merged with the new one, so a byte store to KBSR's upper byte alone writes its interrupt
enable (20_memory.md R48, R57, R58, 60_exceptions.md R222, R223, R235, R237, R239, R240, R242, R244). Rests on the spec's
own choices D12, D22, D23, D25. -/
def Obligations.DeviceRegisters : Prop :=
  ∀ (s : State) (v : Word),
    loadWord 0xFE00#16 s = (BitVec.ofBool s.kbd.ready ++ BitVec.ofBool s.kbd.ie ++ 0#14, s)
    ∧ storeWord 0xFE00#16 v 0xFFFF#16 s = { s with kbd := { s.kbd with ie := v.getLsbD 14 } }
    ∧ loadWord 0xFE02#16 s = (0#8 ++ s.kbd.data, { s with kbd := { s.kbd with ready := false } })
    ∧ storeWord 0xFE02#16 v 0xFFFF#16 s = s
    ∧ loadWord 0xFE04#16 s = (BitVec.ofBool s.dsp.ready ++ BitVec.ofBool s.dsp.ie ++ 0#14, s)
    ∧ storeWord 0xFE04#16 v 0xFFFF#16 s = { s with dsp := { s.dsp with ie := v.getLsbD 14 } }
    ∧ loadWord 0xFE06#16 s = (0#8 ++ s.dsp.data, s)
    ∧ (s.dsp.ready = true → storeWord 0xFE06#16 v 0xFFFF#16 s
        = { s with dsp := { s.dsp with data := v.extractLsb' 0 8, settle := s.cfg.dspDelay, ready := false } })
    ∧ (s.dsp.ready = false → storeWord 0xFE06#16 v 0xFFFF#16 s = s)
    ∧ loadWord 0xFE10#16 s = (s.pic.cmd, s)
    ∧ storeWord 0xFE10#16 v 0xFFFF#16 s = { s with pic := { s.pic with cmd := v } }
    ∧ (s.pic.cmd = s.cfg.cmdWriteImr → storeWord 0xFE12#16 v 0xFFFF#16 s = { s with pic := { s.pic with imr := v.extractLsb' 0 8 } })
    ∧ (s.pic.cmd ≠ s.cfg.cmdWriteImr → storeWord 0xFE12#16 v 0xFFFF#16 s = s)
    ∧ loadWord 0xFFFE#16 s = (s.mcr, s)
    ∧ storeWord 0xFFFE#16 v 0xFFFF#16 s = { s with mcr := v }
    ∧ (∀ a m : Word, 0xFE00 ≤ (evenAddr a).toNat →
        evenAddr a ∉ [0xFE00#16, 0xFE02#16, 0xFE04#16, 0xFE06#16, 0xFE10#16, 0xFE12#16, 0xFFFE#16] →
        loadWord a s = (0#16, s) ∧ storeWord a v m s = s)
    ∧ (∀ a m : Word, loadWord a s = loadWord (evenAddr a) s
        ∧ storeWord a v m s
          = storeWord (evenAddr a) (((loadWord (evenAddr a) s).1 &&& ~~~m) ||| (v &&& m)) 0xFFFF#16 s)
    ∧ storeWord 0xFE01#16 v 0xFF00#16 s = { s with kbd := { s.kbd with ie := v.getLsbD 14 } }
    ∧ storeWord 0xFE00#16 v 0x00FF#16 s = s

/-- The PIC's data register shows the register that the last command selects, whatever distinct words the commands are,
and 0 under any other command (60_exceptions.md R223). Rests on the spec's own choice D23. -/
def Obligations.PicDataRegister : Prop :=
  ∀ s : State, s.cfg.wellFormed = true →
    (s.pic.cmd = s.cfg.cmdReadIrr → loadWord 0xFE12#16 s = (0#8 ++ s.pic.irr, s))
    ∧ (s.pic.cmd = s.cfg.cmdReadIsr → loadWord 0xFE12#16 s = (0#8 ++ s.pic.isr, s))
    ∧ (s.pic.cmd = s.cfg.cmdReadImr → loadWord 0xFE12#16 s = (0#8 ++ s.pic.imr, s))
    ∧ (s.pic.cmd ∉ [s.cfg.cmdReadIrr, s.cfg.cmdReadIsr, s.cfg.cmdReadImr] → loadWord 0xFE12#16 s = (0#16, s))
end

