-- ==== Sys2Proof/Laws/State.lean ====
section
/-! SUPPORT. The small lemmas of the state: the register file, extensionality, and one lemma per field for each named
update of the state, so that no proof unfolds an update. -/

namespace Sys2Proof.Machine

/-! ### The register file -/

@[simp] theorem Regs.get_set_self (x : Regs) (r : Reg) (v : Word) : (x.set r v).get r = v := by
  cases r <;> rfl

theorem Regs.get_set_ne (x : Regs) {r q : Reg} (h : q ≠ r) (v : Word) : (x.set r v).get q = x.get q := by
  cases r <;> cases q <;> first | rfl | exact absurd rfl h

@[simp] theorem Regs.set_set (x : Regs) (r : Reg) (v w : Word) : (x.set r v).set r w = x.set r w := by
  cases r <;> rfl

@[simp] theorem Regs.set_get (x : Regs) (r : Reg) : x.set r (x.get r) = x := by cases r <;> rfl

theorem Regs.ext_get {x y : Regs} (h : ∀ r, x.get r = y.get r) : x = y := by
  have h0 := h .r0; have h1 := h .r1; have h2 := h .r2; have h3 := h .r3
  have h4 := h .r4; have h5 := h .r5; have h6 := h .r6; have h7 := h .r7
  cases x; cases y
  simp only [Regs.get] at *
  subst_vars
  rfl

/-! ### States with equal fields are equal -/

theorem State.ext_fields {s t : State}
    (h_cfg : s.cfg = t.cfg)
    (h_regs : s.regs = t.regs)
    (h_pc : s.pc = t.pc)
    (h_psr : s.psr = t.psr)
    (h_ssp : s.ssp = t.ssp)
    (h_usp : s.usp = t.usp)
    (h_ir : s.ir = t.ir)
    (h_mar : s.mar = t.mar)
    (h_mdr : s.mdr = t.mdr)
    (h_ben : s.ben = t.ben)
    (h_intf : s.intf = t.intf)
    (h_intv : s.intv = t.intv)
    (h_intp : s.intp = t.intp)
    (h_ustate : s.ustate = t.ustate)
    (h_mem : s.mem = t.mem)
    (h_busy : s.busy = t.busy)
    (h_rdEn : s.rdEn = t.rdEn)
    (h_wrEn : s.wrEn = t.wrEn)
    (h_pic : s.pic = t.pic)
    (h_kbd : s.kbd = t.kbd)
    (h_dsp : s.dsp = t.dsp)
    (h_mcr : s.mcr = t.mcr)
    (h_ticks : s.ticks = t.ticks)
    (h_input : s.input = t.input)
    (h_output : s.output = t.output) : s = t := by
  cases s; cases t
  simp only at *
  subst_vars
  rfl

/-! ### `raiseException`: 60_exceptions.md R203 -/

@[simp] theorem raiseException_cfg (v : Vector8) (s : State) : (raiseException v s).cfg = s.cfg := rfl
@[simp] theorem raiseException_regs (v : Vector8) (s : State) : (raiseException v s).regs = s.regs := rfl
@[simp] theorem raiseException_pc (v : Vector8) (s : State) : (raiseException v s).pc = s.pc := rfl
@[simp] theorem raiseException_psr (v : Vector8) (s : State) : (raiseException v s).psr = s.psr := rfl
@[simp] theorem raiseException_ssp (v : Vector8) (s : State) : (raiseException v s).ssp = s.ssp := rfl
@[simp] theorem raiseException_usp (v : Vector8) (s : State) : (raiseException v s).usp = s.usp := rfl
@[simp] theorem raiseException_ir (v : Vector8) (s : State) : (raiseException v s).ir = s.ir := rfl
@[simp] theorem raiseException_mar (v : Vector8) (s : State) : (raiseException v s).mar = s.mar := rfl
@[simp] theorem raiseException_mdr (v : Vector8) (s : State) : (raiseException v s).mdr = s.mdr := rfl
@[simp] theorem raiseException_ben (v : Vector8) (s : State) : (raiseException v s).ben = s.ben := rfl
@[simp] theorem raiseException_intf (v : Vector8) (s : State) : (raiseException v s).intf = true := rfl
@[simp] theorem raiseException_intv (v : Vector8) (s : State) : (raiseException v s).intv = v := rfl
@[simp] theorem raiseException_intp (v : Vector8) (s : State) : (raiseException v s).intp = s.cfg.excPriority := rfl
@[simp] theorem raiseException_ustate (v : Vector8) (s : State) : (raiseException v s).ustate = 18#6 := rfl
@[simp] theorem raiseException_mem (v : Vector8) (s : State) : (raiseException v s).mem = s.mem := rfl
@[simp] theorem raiseException_busy (v : Vector8) (s : State) : (raiseException v s).busy = s.busy := rfl
@[simp] theorem raiseException_rdEn (v : Vector8) (s : State) : (raiseException v s).rdEn = s.rdEn := rfl
@[simp] theorem raiseException_wrEn (v : Vector8) (s : State) : (raiseException v s).wrEn = s.wrEn := rfl
@[simp] theorem raiseException_pic (v : Vector8) (s : State) : (raiseException v s).pic = s.pic := rfl
@[simp] theorem raiseException_kbd (v : Vector8) (s : State) : (raiseException v s).kbd = s.kbd := rfl
@[simp] theorem raiseException_dsp (v : Vector8) (s : State) : (raiseException v s).dsp = s.dsp := rfl
@[simp] theorem raiseException_mcr (v : Vector8) (s : State) : (raiseException v s).mcr = s.mcr := rfl
@[simp] theorem raiseException_ticks (v : Vector8) (s : State) : (raiseException v s).ticks = s.ticks := rfl
@[simp] theorem raiseException_input (v : Vector8) (s : State) : (raiseException v s).input = s.input := rfl
@[simp] theorem raiseException_output (v : Vector8) (s : State) : (raiseException v s).output = s.output := rfl

/-! ### `writeResult`: 10_state.md R12 -/

@[simp] theorem writeResult_cfg (dr : Reg) (v : Word) (s : State) : (writeResult dr v s).cfg = s.cfg := rfl
@[simp] theorem writeResult_regs (dr : Reg) (v : Word) (s : State) : (writeResult dr v s).regs = s.regs.set dr v := rfl
@[simp] theorem writeResult_pc (dr : Reg) (v : Word) (s : State) : (writeResult dr v s).pc = s.pc := rfl
@[simp] theorem writeResult_psr (dr : Reg) (v : Word) (s : State) : (writeResult dr v s).psr = s.psr.setcc v := rfl
@[simp] theorem writeResult_ssp (dr : Reg) (v : Word) (s : State) : (writeResult dr v s).ssp = s.ssp := rfl
@[simp] theorem writeResult_usp (dr : Reg) (v : Word) (s : State) : (writeResult dr v s).usp = s.usp := rfl
@[simp] theorem writeResult_ir (dr : Reg) (v : Word) (s : State) : (writeResult dr v s).ir = s.ir := rfl
@[simp] theorem writeResult_mar (dr : Reg) (v : Word) (s : State) : (writeResult dr v s).mar = s.mar := rfl
@[simp] theorem writeResult_mdr (dr : Reg) (v : Word) (s : State) : (writeResult dr v s).mdr = s.mdr := rfl
@[simp] theorem writeResult_ben (dr : Reg) (v : Word) (s : State) : (writeResult dr v s).ben = s.ben := rfl
@[simp] theorem writeResult_intf (dr : Reg) (v : Word) (s : State) : (writeResult dr v s).intf = s.intf := rfl
@[simp] theorem writeResult_intv (dr : Reg) (v : Word) (s : State) : (writeResult dr v s).intv = s.intv := rfl
@[simp] theorem writeResult_intp (dr : Reg) (v : Word) (s : State) : (writeResult dr v s).intp = s.intp := rfl
@[simp] theorem writeResult_ustate (dr : Reg) (v : Word) (s : State) : (writeResult dr v s).ustate = s.ustate := rfl
@[simp] theorem writeResult_mem (dr : Reg) (v : Word) (s : State) : (writeResult dr v s).mem = s.mem := rfl
@[simp] theorem writeResult_busy (dr : Reg) (v : Word) (s : State) : (writeResult dr v s).busy = s.busy := rfl
@[simp] theorem writeResult_rdEn (dr : Reg) (v : Word) (s : State) : (writeResult dr v s).rdEn = s.rdEn := rfl
@[simp] theorem writeResult_wrEn (dr : Reg) (v : Word) (s : State) : (writeResult dr v s).wrEn = s.wrEn := rfl
@[simp] theorem writeResult_pic (dr : Reg) (v : Word) (s : State) : (writeResult dr v s).pic = s.pic := rfl
@[simp] theorem writeResult_kbd (dr : Reg) (v : Word) (s : State) : (writeResult dr v s).kbd = s.kbd := rfl
@[simp] theorem writeResult_dsp (dr : Reg) (v : Word) (s : State) : (writeResult dr v s).dsp = s.dsp := rfl
@[simp] theorem writeResult_mcr (dr : Reg) (v : Word) (s : State) : (writeResult dr v s).mcr = s.mcr := rfl
@[simp] theorem writeResult_ticks (dr : Reg) (v : Word) (s : State) : (writeResult dr v s).ticks = s.ticks := rfl
@[simp] theorem writeResult_input (dr : Reg) (v : Word) (s : State) : (writeResult dr v s).input = s.input := rfl
@[simp] theorem writeResult_output (dr : Reg) (v : Word) (s : State) : (writeResult dr v s).output = s.output := rfl

/-! ### `memTick`: 20_memory.md R45 -/

@[simp] theorem memTick_cfg (s : State) : (memTick s).cfg = s.cfg := rfl
@[simp] theorem memTick_regs (s : State) : (memTick s).regs = s.regs := rfl
@[simp] theorem memTick_pc (s : State) : (memTick s).pc = s.pc := rfl
@[simp] theorem memTick_psr (s : State) : (memTick s).psr = s.psr := rfl
@[simp] theorem memTick_ssp (s : State) : (memTick s).ssp = s.ssp := rfl
@[simp] theorem memTick_usp (s : State) : (memTick s).usp = s.usp := rfl
@[simp] theorem memTick_ir (s : State) : (memTick s).ir = s.ir := rfl
@[simp] theorem memTick_mar (s : State) : (memTick s).mar = s.mar := rfl
@[simp] theorem memTick_mdr (s : State) : (memTick s).mdr = s.mdr := rfl
@[simp] theorem memTick_ben (s : State) : (memTick s).ben = s.ben := rfl
@[simp] theorem memTick_intf (s : State) : (memTick s).intf = s.intf := rfl
@[simp] theorem memTick_intv (s : State) : (memTick s).intv = s.intv := rfl
@[simp] theorem memTick_intp (s : State) : (memTick s).intp = s.intp := rfl
@[simp] theorem memTick_ustate (s : State) : (memTick s).ustate = s.ustate := rfl
@[simp] theorem memTick_mem (s : State) : (memTick s).mem = s.mem := rfl
@[simp] theorem memTick_busy (s : State) : (memTick s).busy = s.busy - 1 := rfl
@[simp] theorem memTick_rdEn (s : State) : (memTick s).rdEn = s.rdEn := rfl
@[simp] theorem memTick_wrEn (s : State) : (memTick s).wrEn = s.wrEn := rfl
@[simp] theorem memTick_pic (s : State) : (memTick s).pic = s.pic := rfl
@[simp] theorem memTick_kbd (s : State) : (memTick s).kbd = s.kbd := rfl
@[simp] theorem memTick_dsp (s : State) : (memTick s).dsp = s.dsp := rfl
@[simp] theorem memTick_mcr (s : State) : (memTick s).mcr = s.mcr := rfl
@[simp] theorem memTick_ticks (s : State) : (memTick s).ticks = s.ticks := rfl
@[simp] theorem memTick_input (s : State) : (memTick s).input = s.input := rfl
@[simp] theorem memTick_output (s : State) : (memTick s).output = s.output := rfl

/-! ### `memReset`: 20_memory.md R45 -/

@[simp] theorem memReset_cfg (s : State) : (memReset s).cfg = s.cfg := rfl
@[simp] theorem memReset_regs (s : State) : (memReset s).regs = s.regs := rfl
@[simp] theorem memReset_pc (s : State) : (memReset s).pc = s.pc := rfl
@[simp] theorem memReset_psr (s : State) : (memReset s).psr = s.psr := rfl
@[simp] theorem memReset_ssp (s : State) : (memReset s).ssp = s.ssp := rfl
@[simp] theorem memReset_usp (s : State) : (memReset s).usp = s.usp := rfl
@[simp] theorem memReset_ir (s : State) : (memReset s).ir = s.ir := rfl
@[simp] theorem memReset_mar (s : State) : (memReset s).mar = s.mar := rfl
@[simp] theorem memReset_mdr (s : State) : (memReset s).mdr = s.mdr := rfl
@[simp] theorem memReset_ben (s : State) : (memReset s).ben = s.ben := rfl
@[simp] theorem memReset_intf (s : State) : (memReset s).intf = s.intf := rfl
@[simp] theorem memReset_intv (s : State) : (memReset s).intv = s.intv := rfl
@[simp] theorem memReset_intp (s : State) : (memReset s).intp = s.intp := rfl
@[simp] theorem memReset_ustate (s : State) : (memReset s).ustate = s.ustate := rfl
@[simp] theorem memReset_mem (s : State) : (memReset s).mem = s.mem := rfl
@[simp] theorem memReset_busy (s : State) : (memReset s).busy = 0 := rfl
@[simp] theorem memReset_rdEn (s : State) : (memReset s).rdEn = false := rfl
@[simp] theorem memReset_wrEn (s : State) : (memReset s).wrEn = false := rfl
@[simp] theorem memReset_pic (s : State) : (memReset s).pic = s.pic := rfl
@[simp] theorem memReset_kbd (s : State) : (memReset s).kbd = s.kbd := rfl
@[simp] theorem memReset_dsp (s : State) : (memReset s).dsp = s.dsp := rfl
@[simp] theorem memReset_mcr (s : State) : (memReset s).mcr = s.mcr := rfl
@[simp] theorem memReset_ticks (s : State) : (memReset s).ticks = s.ticks := rfl
@[simp] theorem memReset_input (s : State) : (memReset s).input = s.input := rfl
@[simp] theorem memReset_output (s : State) : (memReset s).output = s.output := rfl

/-! ### The PSR -/

@[simp] theorem Psr.setcc_priv (p : Psr) (v : Word) : (p.setcc v).priv = p.priv := rfl
@[simp] theorem Psr.setcc_priority (p : Psr) (v : Word) : (p.setcc v).priority = p.priority := rfl
@[simp] theorem Psr.setcc_n (p : Psr) (v : Word) : (p.setcc v).n = v.getLsbD 15 := rfl
@[simp] theorem Psr.setcc_z (p : Psr) (v : Word) : (p.setcc v).z = (v == 0#16) := rfl
@[simp] theorem Psr.setcc_p (p : Psr) (v : Word) : (p.setcc v).p = (!v.getLsbD 15 && v != 0#16) := rfl

/-- Writing back the word that was read leaves the PSR as it was (10_state.md R16). -/
@[simp] theorem Psr.ofWord_word (p : Psr) : Psr.ofWord p.word = p := by
  obtain ⟨m, l, n, z, q⟩ := p
  have h : ∀ l : Line, ∀ n z q : Bool, ∀ m : Bool,
      Psr.ofWord (Psr.word ⟨Mode.ofBool m, l, n, z, q⟩) = ⟨Mode.ofBool m, l, n, z, q⟩ := by decide
  cases m
  · exact h l n z q false
  · exact h l n z q true

end Sys2Proof.Machine
end

