-- ==== Sys2Proof/Laws/Devices.lean ====
section
/-! SUPPORT. What the ticks of memory, devices and PIC can do, said once: what they leave alone, and that they do not look
at the CPU's own registers other than the priority. -/

namespace Sys2Proof.Machine

/-! ## What each part of a tick changes -/

theorem kbdLatch_cases (s : State) :
    kbdLatch s = s ∨ ∃ b, s.nextKey = some b ∧
      kbdLatch s = { s with input := s.input.tail, kbd := { s.kbd with data := b, ready := true } } := by
  unfold kbdLatch
  cases h : s.nextKey with
  | none => exact .inl rfl
  | some b => exact .inr ⟨b, rfl, rfl⟩

theorem kbdTick_shape (s : State) :
    ∃ c d i, kbdTick s = { s with pic := c, kbd := d, input := i } ∧ (i = s.input ∨ i = s.input.tail)
      ∧ (c = s.pic ∨ c = s.pic.raise s.cfg.kbdIrq) := by
  unfold kbdTick
  rcases kbdLatch_cases s with h | ⟨b, _, h⟩ <;> rw [h] <;> simp only <;> split
  · exact ⟨_, _, _, rfl, .inl rfl, .inr rfl⟩
  · exact ⟨_, _, _, rfl, .inl rfl, .inl rfl⟩
  · exact ⟨_, _, _, rfl, .inr rfl, .inr rfl⟩
  · exact ⟨_, _, _, rfl, .inr rfl, .inl rfl⟩

theorem dspSettle_shape (s : State) : ∃ d o, dspSettle s = { s with dsp := d, output := o } := by
  unfold dspSettle
  split
  · exact ⟨_, _, rfl⟩
  · split <;> exact ⟨_, _, rfl⟩

theorem dspTick_shape (s : State) :
    ∃ c d o, dspTick s = { s with pic := c, dsp := d, output := o } ∧ (c = s.pic ∨ c = s.pic.raise s.cfg.dspIrq) := by
  unfold dspTick
  obtain ⟨d, o, h⟩ := dspSettle_shape s
  rw [h]
  simp only
  split
  · exact ⟨_, _, _, rfl, .inr rfl⟩
  · exact ⟨_, _, _, rfl, .inl rfl⟩

theorem picTick_shape (s : State) :
    ∃ c f v p, picTick s = { s with pic := c, intf := f, intv := v, intp := p }
      ∧ (c = s.pic ∧ f = s.intf ∧ v = s.intv ∧ p = s.intp
        ∨ ∃ l, s.pic.select s.intf s.psr.priority = some l ∧ c = s.pic.dispatch l ∧ f = true
          ∧ v = Config.irqBase ||| l.setWidth 8 ∧ p = l) := by
  unfold picTick Pic.tick
  cases h : s.pic.select s.intf s.psr.priority with
  | none => exact ⟨_, _, _, _, rfl, .inl ⟨rfl, rfl, rfl, rfl⟩⟩
  | some l => exact ⟨_, _, _, _, rfl, .inr ⟨l, rfl, rfl, rfl, rfl, rfl⟩⟩

/-- A tick of everything but the CPU changes the PIC, the devices, the latch, the streams, the delay and the count of
ticks, and nothing else. -/
theorem devicesTick_shape (s : State) :
    ∃ c kb ds i o f v p, devicesTick s = { s with
      pic := c, kbd := kb, dsp := ds, input := i, output := o, intf := f, intv := v, intp := p,
      busy := s.busy - 1, ticks := s.ticks + 1 } ∧ (i = s.input ∨ i = s.input.tail) := by
  unfold devicesTick
  obtain ⟨c1, d1, i1, h1, hi, -⟩ := kbdTick_shape (memTick s)
  obtain ⟨c2, d2, o2, h2, -⟩ := dspTick_shape (kbdTick (memTick s))
  obtain ⟨c3, f3, v3, p3, h3, -⟩ := picTick_shape (dspTick (kbdTick (memTick s)))
  rw [h3, h2, h1]
  exact ⟨_, _, _, _, _, _, _, _, rfl, hi⟩

/-! ## Frames, field by field -/

@[simp] theorem devicesTick_cfg (s : State) : (devicesTick s).cfg = s.cfg := by
  obtain ⟨_, _, _, _, _, _, _, _, h, _⟩ := devicesTick_shape s; rw [h]

@[simp] theorem devicesTick_regs (s : State) : (devicesTick s).regs = s.regs := by
  obtain ⟨_, _, _, _, _, _, _, _, h, _⟩ := devicesTick_shape s; rw [h]

@[simp] theorem devicesTick_pc (s : State) : (devicesTick s).pc = s.pc := by
  obtain ⟨_, _, _, _, _, _, _, _, h, _⟩ := devicesTick_shape s; rw [h]

@[simp] theorem devicesTick_psr (s : State) : (devicesTick s).psr = s.psr := by
  obtain ⟨_, _, _, _, _, _, _, _, h, _⟩ := devicesTick_shape s; rw [h]

@[simp] theorem devicesTick_ssp (s : State) : (devicesTick s).ssp = s.ssp := by
  obtain ⟨_, _, _, _, _, _, _, _, h, _⟩ := devicesTick_shape s; rw [h]

@[simp] theorem devicesTick_usp (s : State) : (devicesTick s).usp = s.usp := by
  obtain ⟨_, _, _, _, _, _, _, _, h, _⟩ := devicesTick_shape s; rw [h]

@[simp] theorem devicesTick_ir (s : State) : (devicesTick s).ir = s.ir := by
  obtain ⟨_, _, _, _, _, _, _, _, h, _⟩ := devicesTick_shape s; rw [h]

@[simp] theorem devicesTick_mar (s : State) : (devicesTick s).mar = s.mar := by
  obtain ⟨_, _, _, _, _, _, _, _, h, _⟩ := devicesTick_shape s; rw [h]

@[simp] theorem devicesTick_mdr (s : State) : (devicesTick s).mdr = s.mdr := by
  obtain ⟨_, _, _, _, _, _, _, _, h, _⟩ := devicesTick_shape s; rw [h]

@[simp] theorem devicesTick_ben (s : State) : (devicesTick s).ben = s.ben := by
  obtain ⟨_, _, _, _, _, _, _, _, h, _⟩ := devicesTick_shape s; rw [h]

@[simp] theorem devicesTick_ustate (s : State) : (devicesTick s).ustate = s.ustate := by
  obtain ⟨_, _, _, _, _, _, _, _, h, _⟩ := devicesTick_shape s; rw [h]

@[simp] theorem devicesTick_mem (s : State) : (devicesTick s).mem = s.mem := by
  obtain ⟨_, _, _, _, _, _, _, _, h, _⟩ := devicesTick_shape s; rw [h]

@[simp] theorem devicesTick_rdEn (s : State) : (devicesTick s).rdEn = s.rdEn := by
  obtain ⟨_, _, _, _, _, _, _, _, h, _⟩ := devicesTick_shape s; rw [h]

@[simp] theorem devicesTick_wrEn (s : State) : (devicesTick s).wrEn = s.wrEn := by
  obtain ⟨_, _, _, _, _, _, _, _, h, _⟩ := devicesTick_shape s; rw [h]

@[simp] theorem devicesTick_mcr (s : State) : (devicesTick s).mcr = s.mcr := by
  obtain ⟨_, _, _, _, _, _, _, _, h, _⟩ := devicesTick_shape s; rw [h]

@[simp] theorem devicesTick_busy (s : State) : (devicesTick s).busy = s.busy - 1 := by
  obtain ⟨_, _, _, _, _, _, _, _, h, _⟩ := devicesTick_shape s; rw [h]

@[simp] theorem devicesTick_ticks (s : State) : (devicesTick s).ticks = s.ticks + 1 := by
  obtain ⟨_, _, _, _, _, _, _, _, h, _⟩ := devicesTick_shape s; rw [h]

@[simp] theorem devicesTick_clockOn (s : State) : (devicesTick s).clockOn = s.clockOn := by simp [State.clockOn]

theorem devicesTicks_succ (n : Nat) (s : State) : devicesTicks (n + 1) s = devicesTick (devicesTicks n s) := by
  induction n generalizing s with
  | zero => rfl
  | succ n ih => exact ih (devicesTick s)

theorem devicesTicks_add (m n : Nat) (s : State) : devicesTicks (m + n) s = devicesTicks n (devicesTicks m s) := by
  induction m generalizing s with
  | zero => simp [devicesTicks]
  | succ m ih => rw [Nat.succ_add]; exact ih (devicesTick s)


@[simp] theorem devicesTicks_cfg (n : Nat) (s : State) : (devicesTicks n s).cfg = s.cfg := by
  induction n with
  | zero => rfl
  | succ n ih => rw [devicesTicks_succ]; simp [ih]

@[simp] theorem devicesTicks_regs (n : Nat) (s : State) : (devicesTicks n s).regs = s.regs := by
  induction n with
  | zero => rfl
  | succ n ih => rw [devicesTicks_succ]; simp [ih]

@[simp] theorem devicesTicks_pc (n : Nat) (s : State) : (devicesTicks n s).pc = s.pc := by
  induction n with
  | zero => rfl
  | succ n ih => rw [devicesTicks_succ]; simp [ih]

@[simp] theorem devicesTicks_psr (n : Nat) (s : State) : (devicesTicks n s).psr = s.psr := by
  induction n with
  | zero => rfl
  | succ n ih => rw [devicesTicks_succ]; simp [ih]

@[simp] theorem devicesTicks_ssp (n : Nat) (s : State) : (devicesTicks n s).ssp = s.ssp := by
  induction n with
  | zero => rfl
  | succ n ih => rw [devicesTicks_succ]; simp [ih]

@[simp] theorem devicesTicks_usp (n : Nat) (s : State) : (devicesTicks n s).usp = s.usp := by
  induction n with
  | zero => rfl
  | succ n ih => rw [devicesTicks_succ]; simp [ih]

@[simp] theorem devicesTicks_ir (n : Nat) (s : State) : (devicesTicks n s).ir = s.ir := by
  induction n with
  | zero => rfl
  | succ n ih => rw [devicesTicks_succ]; simp [ih]

@[simp] theorem devicesTicks_mar (n : Nat) (s : State) : (devicesTicks n s).mar = s.mar := by
  induction n with
  | zero => rfl
  | succ n ih => rw [devicesTicks_succ]; simp [ih]

@[simp] theorem devicesTicks_mdr (n : Nat) (s : State) : (devicesTicks n s).mdr = s.mdr := by
  induction n with
  | zero => rfl
  | succ n ih => rw [devicesTicks_succ]; simp [ih]

@[simp] theorem devicesTicks_ben (n : Nat) (s : State) : (devicesTicks n s).ben = s.ben := by
  induction n with
  | zero => rfl
  | succ n ih => rw [devicesTicks_succ]; simp [ih]

@[simp] theorem devicesTicks_ustate (n : Nat) (s : State) : (devicesTicks n s).ustate = s.ustate := by
  induction n with
  | zero => rfl
  | succ n ih => rw [devicesTicks_succ]; simp [ih]

@[simp] theorem devicesTicks_mem (n : Nat) (s : State) : (devicesTicks n s).mem = s.mem := by
  induction n with
  | zero => rfl
  | succ n ih => rw [devicesTicks_succ]; simp [ih]

@[simp] theorem devicesTicks_rdEn (n : Nat) (s : State) : (devicesTicks n s).rdEn = s.rdEn := by
  induction n with
  | zero => rfl
  | succ n ih => rw [devicesTicks_succ]; simp [ih]

@[simp] theorem devicesTicks_wrEn (n : Nat) (s : State) : (devicesTicks n s).wrEn = s.wrEn := by
  induction n with
  | zero => rfl
  | succ n ih => rw [devicesTicks_succ]; simp [ih]

@[simp] theorem devicesTicks_mcr (n : Nat) (s : State) : (devicesTicks n s).mcr = s.mcr := by
  induction n with
  | zero => rfl
  | succ n ih => rw [devicesTicks_succ]; simp [ih]

@[simp] theorem devicesTicks_ticks (n : Nat) (s : State) : (devicesTicks n s).ticks = s.ticks + n := by
  induction n with
  | zero => rfl
  | succ n ih => rw [devicesTicks_succ]; simp [ih]; omega

@[simp] theorem devicesTicks_busy (n : Nat) (s : State) : (devicesTicks n s).busy = s.busy - n := by
  induction n with
  | zero => rfl
  | succ n ih => rw [devicesTicks_succ]; simp [ih]; omega

/-! ## The CPU's own registers put over another machine's devices -/

/-- `s` with the registers of `c` that only the CPU and the memory unit's protocol use. -/
def State.withCpu (s c : State) : State :=
  { s with regs := c.regs, pc := c.pc, psr := c.psr, ssp := c.ssp, usp := c.usp, ir := c.ir, mar := c.mar, mdr := c.mdr,
           ben := c.ben, ustate := c.ustate, busy := c.busy, rdEn := c.rdEn, wrEn := c.wrEn }

theorem withCpu_ite {p : Prop} [Decidable p] (a b c : State) :
    (if p then a else b).withCpu c = if p then a.withCpu c else b.withCpu c := apply_ite (State.withCpu · c) p a b

theorem kbdTick_withCpu (s c : State) : kbdTick (s.withCpu c) = (kbdTick s).withCpu c := by
  have hk : (s.withCpu c).nextKey = s.nextKey := rfl
  unfold kbdTick
  have hl : kbdLatch (s.withCpu c) = (kbdLatch s).withCpu c := by
    unfold kbdLatch
    rw [hk]
    cases s.nextKey <;> rfl
  rw [hl, withCpu_ite]
  rfl

theorem dspTick_withCpu (s c : State) : dspTick (s.withCpu c) = (dspTick s).withCpu c := by
  unfold dspTick
  have hl : dspSettle (s.withCpu c) = (dspSettle s).withCpu c := by
    unfold dspSettle
    rw [withCpu_ite, withCpu_ite]
    rfl
  rw [hl, withCpu_ite]
  rfl

theorem picTick_withCpu (s c : State) (h : c.psr.priority = s.psr.priority) :
    picTick (s.withCpu c) = (picTick s).withCpu c := by
  simp only [picTick, Pic.tick, State.withCpu, h]
  cases s.pic.select s.intf s.psr.priority <;> rfl

theorem devicesTick_withCpu (s c : State) (h : c.psr.priority = s.psr.priority) :
    devicesTick (s.withCpu c) = (devicesTick s).withCpu { c with busy := c.busy - 1 } := by
  have h1 : memTick (s.withCpu c) = (memTick s).withCpu { c with busy := c.busy - 1 } := rfl
  unfold devicesTick
  rw [h1, kbdTick_withCpu, dspTick_withCpu, picTick_withCpu]
  · rfl
  · obtain ⟨_, _, _, hd, _⟩ := dspTick_shape (kbdTick (memTick s))
    obtain ⟨_, _, _, hk, _⟩ := kbdTick_shape (memTick s)
    rw [hd, hk]; exact h

theorem picTick_intf {s : State} (h : s.intf = true) : picTick s = s := by
  simp only [picTick, Pic.tick, Pic.select, h, if_true]
  rw [← h]

/-- While an event is latched the PIC's tick does nothing, so the latch stays as it is (60_exceptions.md R219, R227). -/
theorem devicesTick_latch {s : State} (h : s.intf = true) :
    (devicesTick s).intf = true ∧ (devicesTick s).intv = s.intv ∧ (devicesTick s).intp = s.intp := by
  obtain ⟨_, _, _, hk, _⟩ := kbdTick_shape (memTick s)
  obtain ⟨_, _, _, hd, _⟩ := dspTick_shape (kbdTick (memTick s))
  have hi : (dspTick (kbdTick (memTick s))).intf = true := by rw [hd, hk]; exact h
  unfold devicesTick
  rw [picTick_intf hi, hd, hk]
  exact ⟨h, rfl, rfl⟩

theorem devicesTicks_latch {s : State} (h : s.intf = true) (n : Nat) :
    (devicesTicks n s).intf = true ∧ (devicesTicks n s).intv = s.intv ∧ (devicesTicks n s).intp = s.intp := by
  induction n with
  | zero => exact ⟨h, rfl, rfl⟩
  | succ n ih =>
    rw [devicesTicks_succ]
    obtain ⟨h1, h2, h3⟩ := devicesTick_latch ih.1
    exact ⟨h1, h2.trans ih.2.1, h3.trans ih.2.2⟩

/-- While an event is latched not even the priority is looked at. -/
theorem devicesTick_withCpu_latched (s c : State) (h : s.intf = true) :
    devicesTick (s.withCpu c) = (devicesTick s).withCpu { c with busy := c.busy - 1 } := by
  have h1 : memTick (s.withCpu c) = (memTick s).withCpu { c with busy := c.busy - 1 } := rfl
  obtain ⟨_, _, _, hk, _⟩ := kbdTick_shape (memTick s)
  obtain ⟨_, _, _, hd, _⟩ := dspTick_shape (kbdTick (memTick s))
  have hi : (dspTick (kbdTick (memTick s))).intf = true := by rw [hd, hk]; exact h
  unfold devicesTick
  rw [h1, kbdTick_withCpu, dspTick_withCpu, picTick_intf hi, picTick_intf (by exact hi)]
  rfl

theorem devPeek_withCpu (d : DevReg) (s c : State) : devPeek d (s.withCpu c) = devPeek d s := by cases d <;> rfl

theorem devReadEffect_withCpu (d : DevReg) (s c : State) : devReadEffect d (s.withCpu c) = (devReadEffect d s).withCpu c := by
  cases d <;> rfl

theorem devSet_withCpu (d : DevReg) (v : Word) (s c : State) : devSet d v (s.withCpu c) = (devSet d v s).withCpu c := by
  cases d <;> try rfl
  simp only [devSet]
  rw [withCpu_ite]
  rfl

theorem loadWord_withCpu (a : Word) (s c : State) :
    loadWord a (s.withCpu c) = ((loadWord a s).1, (loadWord a s).2.withCpu c) := by
  unfold loadWord
  cases devAt (evenAddr a) with
  | some d => simp only [devPeek_withCpu, devReadEffect_withCpu]
  | none => simp only; split <;> rfl

theorem storeWord_withCpu (a v m : Word) (s c : State) : storeWord a v m (s.withCpu c) = (storeWord a v m s).withCpu c := by
  unfold storeWord
  cases devAt (evenAddr a) with
  | some d => simp only [devPeek_withCpu, devSet_withCpu]
  | none => simp only; split <;> rfl

/-- `c`'s own registers over the other blocks of `d`, whose ticks then run as they do under `d`'s own registers: the priority
is the same, or is not looked at because an event is latched. -/
def State.IsOver (c d : State) : Prop := c = d.withCpu c ∧ (c.psr.priority = d.psr.priority ∨ d.intf = true)

theorem devicesTicks_over {c d : State} (h : c.IsOver d) (n : Nat) :
    devicesTicks n c = (devicesTicks n d).withCpu { c with busy := c.busy - n } := by
  induction n with
  | zero => exact h.1
  | succ n ih =>
    rw [devicesTicks_succ, devicesTicks_succ, ih]
    rcases h.2 with hp | hi
    · rw [devicesTick_withCpu _ _ (by simpa using hp)]; rfl
    · rw [devicesTick_withCpu_latched _ _ (devicesTicks_latch hi n).1]; rfl

theorem devicesTick_over {c d : State} (h : c.IsOver d) :
    devicesTick c = (devicesTick d).withCpu { c with busy := c.busy - 1 } := devicesTicks_over h 1

/-! The same, for a state written as an update: the forms a simplifier applies. -/

theorem devicesTick_cpu (s : State) (x : Regs) (pc : Word) (q : Psr) (sp up ir ar dr : Word) (be : Bool) (k : UState) (n : Nat) (rd wr : Bool)
    (h : q.priority = s.psr.priority) :
    devicesTick { s with
      regs := x, pc := pc, psr := q, ssp := sp, usp := up, ir := ir, mar := ar, mdr := dr, ben := be,
      ustate := k, busy := n, rdEn := rd, wrEn := wr }
      = { devicesTick s with
      regs := x, pc := pc, psr := q, ssp := sp, usp := up, ir := ir, mar := ar, mdr := dr, ben := be,
      ustate := k, busy := n - 1, rdEn := rd, wrEn := wr } :=
  devicesTick_withCpu s { s with
      regs := x, pc := pc, psr := q, ssp := sp, usp := up, ir := ir, mar := ar, mdr := dr, ben := be,
      ustate := k, busy := n, rdEn := rd, wrEn := wr } h

theorem devicesTicks_cpu (i : Nat) (s : State) (x : Regs) (pc : Word) (q : Psr) (sp up ir ar dr : Word) (be : Bool) (k : UState) (n : Nat) (rd wr : Bool)
    (h : q.priority = s.psr.priority) :
    devicesTicks i { s with
      regs := x, pc := pc, psr := q, ssp := sp, usp := up, ir := ir, mar := ar, mdr := dr, ben := be,
      ustate := k, busy := n, rdEn := rd, wrEn := wr }
      = { devicesTicks i s with
      regs := x, pc := pc, psr := q, ssp := sp, usp := up, ir := ir, mar := ar, mdr := dr, ben := be,
      ustate := k, busy := n - i, rdEn := rd, wrEn := wr } := by
  induction i with
  | zero => rfl
  | succ i ih =>
    rw [devicesTicks_succ, devicesTicks_succ, ih, devicesTick_cpu _ _ _ _ _ _ _ _ _ _ _ _ _ _ (by simpa using h), Nat.sub_sub]

theorem loadWord_cpu (a : Word) (s : State) (x : Regs) (pc : Word) (q : Psr) (sp up ir ar dr : Word) (be : Bool) (k : UState) (n : Nat) (rd wr : Bool) :
    loadWord a { s with
      regs := x, pc := pc, psr := q, ssp := sp, usp := up, ir := ir, mar := ar, mdr := dr, ben := be,
      ustate := k, busy := n, rdEn := rd, wrEn := wr }
      = ((loadWord a s).1, { (loadWord a s).2 with
      regs := x, pc := pc, psr := q, ssp := sp, usp := up, ir := ir, mar := ar, mdr := dr, ben := be,
      ustate := k, busy := n, rdEn := rd, wrEn := wr }) :=
  loadWord_withCpu a s { s with
      regs := x, pc := pc, psr := q, ssp := sp, usp := up, ir := ir, mar := ar, mdr := dr, ben := be,
      ustate := k, busy := n, rdEn := rd, wrEn := wr }

theorem storeWord_cpu (a v m : Word) (s : State) (x : Regs) (pc : Word) (q : Psr) (sp up ir ar dr : Word) (be : Bool) (k : UState) (n : Nat) (rd wr : Bool) :
    storeWord a v m { s with
      regs := x, pc := pc, psr := q, ssp := sp, usp := up, ir := ir, mar := ar, mdr := dr, ben := be,
      ustate := k, busy := n, rdEn := rd, wrEn := wr }
      = { storeWord a v m s with
      regs := x, pc := pc, psr := q, ssp := sp, usp := up, ir := ir, mar := ar, mdr := dr, ben := be,
      ustate := k, busy := n, rdEn := rd, wrEn := wr } :=
  storeWord_withCpu a v m s { s with
      regs := x, pc := pc, psr := q, ssp := sp, usp := up, ir := ir, mar := ar, mdr := dr, ben := be,
      ustate := k, busy := n, rdEn := rd, wrEn := wr }

@[simp] theorem runs_cpu (s : State) (x : Regs) (pc : Word) (q : Psr) (sp up ir ar dr : Word) (be : Bool) (k : UState) (n : Nat) (rd wr : Bool) :
    State.runs { s with
      regs := x, pc := pc, psr := q, ssp := sp, usp := up, ir := ir, mar := ar, mdr := dr, ben := be,
      ustate := k, busy := n, rdEn := rd, wrEn := wr } = s.runs := rfl

/-! ## What a device access leaves alone -/

theorem devReadEffect_shape (d : DevReg) (s : State) : ∃ k, devReadEffect d s = { s with kbd := k } := by
  cases d <;> exact ⟨_, rfl⟩

theorem loadWord_shape (a : Word) (s : State) : ∃ k, (loadWord a s).2 = { s with kbd := k } := by
  unfold loadWord
  cases devAt (evenAddr a) with
  | some d => exact devReadEffect_shape d s
  | none => simp only; split <;> exact ⟨_, rfl⟩

theorem devSet_shape (d : DevReg) (v : Word) (s : State) :
    ∃ k ds c m, devSet d v s = { s with kbd := k, dsp := ds, pic := c, mcr := m } := by
  cases d <;> try exact ⟨_, _, _, _, rfl⟩
  simp only [devSet]
  split <;> exact ⟨_, _, _, _, rfl⟩

theorem storeWord_shape (a v m : Word) (s : State) :
    ∃ k ds c mc me, storeWord a v m s = { s with kbd := k, dsp := ds, pic := c, mcr := mc, mem := me } := by
  unfold storeWord
  cases devAt (evenAddr a) with
  | some d => obtain ⟨k, ds, c, mc, h⟩ := devSet_shape d (mergeMask (devPeek d s) v m) s; exact ⟨k, ds, c, mc, _, h⟩
  | none => simp only; split <;> exact ⟨_, _, _, _, _, rfl⟩

@[simp] theorem loadWord_cfg (a : Word) (s : State) : (loadWord a s).2.cfg = s.cfg := by
  obtain ⟨_, h⟩ := loadWord_shape a s; rw [h]

@[simp] theorem loadWord_regs (a : Word) (s : State) : (loadWord a s).2.regs = s.regs := by
  obtain ⟨_, h⟩ := loadWord_shape a s; rw [h]

@[simp] theorem loadWord_pc (a : Word) (s : State) : (loadWord a s).2.pc = s.pc := by
  obtain ⟨_, h⟩ := loadWord_shape a s; rw [h]

@[simp] theorem loadWord_psr (a : Word) (s : State) : (loadWord a s).2.psr = s.psr := by
  obtain ⟨_, h⟩ := loadWord_shape a s; rw [h]

@[simp] theorem loadWord_ssp (a : Word) (s : State) : (loadWord a s).2.ssp = s.ssp := by
  obtain ⟨_, h⟩ := loadWord_shape a s; rw [h]

@[simp] theorem loadWord_usp (a : Word) (s : State) : (loadWord a s).2.usp = s.usp := by
  obtain ⟨_, h⟩ := loadWord_shape a s; rw [h]

@[simp] theorem loadWord_ir (a : Word) (s : State) : (loadWord a s).2.ir = s.ir := by
  obtain ⟨_, h⟩ := loadWord_shape a s; rw [h]

@[simp] theorem loadWord_mar (a : Word) (s : State) : (loadWord a s).2.mar = s.mar := by
  obtain ⟨_, h⟩ := loadWord_shape a s; rw [h]

@[simp] theorem loadWord_mdr (a : Word) (s : State) : (loadWord a s).2.mdr = s.mdr := by
  obtain ⟨_, h⟩ := loadWord_shape a s; rw [h]

@[simp] theorem loadWord_ben (a : Word) (s : State) : (loadWord a s).2.ben = s.ben := by
  obtain ⟨_, h⟩ := loadWord_shape a s; rw [h]

@[simp] theorem loadWord_ustate (a : Word) (s : State) : (loadWord a s).2.ustate = s.ustate := by
  obtain ⟨_, h⟩ := loadWord_shape a s; rw [h]

@[simp] theorem loadWord_mem (a : Word) (s : State) : (loadWord a s).2.mem = s.mem := by
  obtain ⟨_, h⟩ := loadWord_shape a s; rw [h]

@[simp] theorem loadWord_busy (a : Word) (s : State) : (loadWord a s).2.busy = s.busy := by
  obtain ⟨_, h⟩ := loadWord_shape a s; rw [h]

@[simp] theorem loadWord_rdEn (a : Word) (s : State) : (loadWord a s).2.rdEn = s.rdEn := by
  obtain ⟨_, h⟩ := loadWord_shape a s; rw [h]

@[simp] theorem loadWord_wrEn (a : Word) (s : State) : (loadWord a s).2.wrEn = s.wrEn := by
  obtain ⟨_, h⟩ := loadWord_shape a s; rw [h]

@[simp] theorem loadWord_mcr (a : Word) (s : State) : (loadWord a s).2.mcr = s.mcr := by
  obtain ⟨_, h⟩ := loadWord_shape a s; rw [h]

@[simp] theorem loadWord_pic (a : Word) (s : State) : (loadWord a s).2.pic = s.pic := by
  obtain ⟨_, h⟩ := loadWord_shape a s; rw [h]

@[simp] theorem loadWord_dsp (a : Word) (s : State) : (loadWord a s).2.dsp = s.dsp := by
  obtain ⟨_, h⟩ := loadWord_shape a s; rw [h]

@[simp] theorem loadWord_intf (a : Word) (s : State) : (loadWord a s).2.intf = s.intf := by
  obtain ⟨_, h⟩ := loadWord_shape a s; rw [h]

@[simp] theorem loadWord_intv (a : Word) (s : State) : (loadWord a s).2.intv = s.intv := by
  obtain ⟨_, h⟩ := loadWord_shape a s; rw [h]

@[simp] theorem loadWord_intp (a : Word) (s : State) : (loadWord a s).2.intp = s.intp := by
  obtain ⟨_, h⟩ := loadWord_shape a s; rw [h]

@[simp] theorem loadWord_ticks (a : Word) (s : State) : (loadWord a s).2.ticks = s.ticks := by
  obtain ⟨_, h⟩ := loadWord_shape a s; rw [h]

@[simp] theorem loadWord_input (a : Word) (s : State) : (loadWord a s).2.input = s.input := by
  obtain ⟨_, h⟩ := loadWord_shape a s; rw [h]

@[simp] theorem loadWord_output (a : Word) (s : State) : (loadWord a s).2.output = s.output := by
  obtain ⟨_, h⟩ := loadWord_shape a s; rw [h]

@[simp] theorem storeWord_cfg (a v m : Word) (s : State) : (storeWord a v m s).cfg = s.cfg := by
  obtain ⟨_, _, _, _, _, h⟩ := storeWord_shape a v m s; rw [h]

@[simp] theorem storeWord_regs (a v m : Word) (s : State) : (storeWord a v m s).regs = s.regs := by
  obtain ⟨_, _, _, _, _, h⟩ := storeWord_shape a v m s; rw [h]

@[simp] theorem storeWord_pc (a v m : Word) (s : State) : (storeWord a v m s).pc = s.pc := by
  obtain ⟨_, _, _, _, _, h⟩ := storeWord_shape a v m s; rw [h]

@[simp] theorem storeWord_psr (a v m : Word) (s : State) : (storeWord a v m s).psr = s.psr := by
  obtain ⟨_, _, _, _, _, h⟩ := storeWord_shape a v m s; rw [h]

@[simp] theorem storeWord_ssp (a v m : Word) (s : State) : (storeWord a v m s).ssp = s.ssp := by
  obtain ⟨_, _, _, _, _, h⟩ := storeWord_shape a v m s; rw [h]

@[simp] theorem storeWord_usp (a v m : Word) (s : State) : (storeWord a v m s).usp = s.usp := by
  obtain ⟨_, _, _, _, _, h⟩ := storeWord_shape a v m s; rw [h]

@[simp] theorem storeWord_ir (a v m : Word) (s : State) : (storeWord a v m s).ir = s.ir := by
  obtain ⟨_, _, _, _, _, h⟩ := storeWord_shape a v m s; rw [h]

@[simp] theorem storeWord_mar (a v m : Word) (s : State) : (storeWord a v m s).mar = s.mar := by
  obtain ⟨_, _, _, _, _, h⟩ := storeWord_shape a v m s; rw [h]

@[simp] theorem storeWord_mdr (a v m : Word) (s : State) : (storeWord a v m s).mdr = s.mdr := by
  obtain ⟨_, _, _, _, _, h⟩ := storeWord_shape a v m s; rw [h]

@[simp] theorem storeWord_ben (a v m : Word) (s : State) : (storeWord a v m s).ben = s.ben := by
  obtain ⟨_, _, _, _, _, h⟩ := storeWord_shape a v m s; rw [h]

@[simp] theorem storeWord_ustate (a v m : Word) (s : State) : (storeWord a v m s).ustate = s.ustate := by
  obtain ⟨_, _, _, _, _, h⟩ := storeWord_shape a v m s; rw [h]

@[simp] theorem storeWord_busy (a v m : Word) (s : State) : (storeWord a v m s).busy = s.busy := by
  obtain ⟨_, _, _, _, _, h⟩ := storeWord_shape a v m s; rw [h]

@[simp] theorem storeWord_rdEn (a v m : Word) (s : State) : (storeWord a v m s).rdEn = s.rdEn := by
  obtain ⟨_, _, _, _, _, h⟩ := storeWord_shape a v m s; rw [h]

@[simp] theorem storeWord_wrEn (a v m : Word) (s : State) : (storeWord a v m s).wrEn = s.wrEn := by
  obtain ⟨_, _, _, _, _, h⟩ := storeWord_shape a v m s; rw [h]

@[simp] theorem storeWord_intf (a v m : Word) (s : State) : (storeWord a v m s).intf = s.intf := by
  obtain ⟨_, _, _, _, _, h⟩ := storeWord_shape a v m s; rw [h]

@[simp] theorem storeWord_intv (a v m : Word) (s : State) : (storeWord a v m s).intv = s.intv := by
  obtain ⟨_, _, _, _, _, h⟩ := storeWord_shape a v m s; rw [h]

@[simp] theorem storeWord_intp (a v m : Word) (s : State) : (storeWord a v m s).intp = s.intp := by
  obtain ⟨_, _, _, _, _, h⟩ := storeWord_shape a v m s; rw [h]

@[simp] theorem storeWord_ticks (a v m : Word) (s : State) : (storeWord a v m s).ticks = s.ticks := by
  obtain ⟨_, _, _, _, _, h⟩ := storeWord_shape a v m s; rw [h]

@[simp] theorem storeWord_input (a v m : Word) (s : State) : (storeWord a v m s).input = s.input := by
  obtain ⟨_, _, _, _, _, h⟩ := storeWord_shape a v m s; rw [h]

@[simp] theorem storeWord_output (a v m : Word) (s : State) : (storeWord a v m s).output = s.output := by
  obtain ⟨_, _, _, _, _, h⟩ := storeWord_shape a v m s; rw [h]

/-! ## When a machine goes on running -/

theorem mem_of_mem_input {s : State} {i : List (Nat × Byte)} (h : i = s.input ∨ i = s.input.tail) {k : Nat × Byte}
    (hk : k ∈ i) : k ∈ s.input := by
  rcases h with rfl | rfl
  · exact hk
  · exact List.mem_of_mem_tail hk

theorem devicesTick_noBreak {s : State} (h : s.noBreak = true) : (devicesTick s).noBreak = true := by
  obtain ⟨_, _, _, i, _, _, _, _, hs, hi⟩ := devicesTick_shape s
  rw [hs]
  simp only [State.noBreak, List.all_eq_true] at *
  exact fun k hk => h k (mem_of_mem_input hi hk)

theorem runs_clockOn {s : State} (h : s.runs = true) : s.clockOn = true := by
  simp only [State.runs, Bool.and_eq_true] at h; exact h.1.1

theorem runs_noBreak {s : State} (h : s.runs = true) : s.noBreak = true := by
  simp only [State.runs, Bool.and_eq_true] at h; exact h.2

theorem runs_wellFormed {s : State} (h : s.runs = true) : s.cfg.wellFormed = true := by
  simp only [State.runs, Bool.and_eq_true] at h; exact h.1.2

theorem runs_memDelay {s : State} (h : s.runs = true) : 1 ≤ s.cfg.memDelay := by
  have h := runs_wellFormed h
  simp only [Params.wellFormed, Bool.and_eq_true, decide_eq_true_eq] at h
  exact h.1.1.1

theorem breakArrives_of_noBreak {s : State} (h : s.noBreak = true) : s.breakArrives = false := by
  simp only [State.noBreak, List.all_eq_true] at h
  unfold State.breakArrives State.nextKey
  split
  · rfl
  · split
    · rfl
    · rename_i k b rest hi
      split
      · have := h (k, b) (by rw [hi]; exact List.mem_cons_self)
        simpa using this
      · rfl

theorem devicesTick_runs {s : State} (h : s.runs = true) : (devicesTick s).runs = true := by
  have h1 := devicesTick_noBreak (runs_noBreak h)
  simp only [State.runs, Bool.and_eq_true] at *
  simp [h.1.1, h.1.2, h1]

theorem devicesTicks_runs {s : State} (h : s.runs = true) (n : Nat) : (devicesTicks n s).runs = true := by
  induction n with
  | zero => exact h
  | succ n ih => rw [devicesTicks_succ]; exact devicesTick_runs ih

@[simp] theorem loadWord_runs (a : Word) (s : State) : (loadWord a s).2.runs = s.runs := by
  simp [State.runs, State.clockOn, State.noBreak]

/-- A store that leaves the clock on leaves the machine running. -/
theorem storeWord_runs {s : State} (hr : s.runs = true) {a v m : Word} (h : (storeWord a v m s).clockOn = true) :
    (storeWord a v m s).runs = true := by
  have hn : s.input.all (fun k => k.2 != Config.breakByte) = true := runs_noBreak hr
  simp only [State.runs, State.noBreak, h, storeWord_cfg, storeWord_input, runs_wellFormed hr, hn, Bool.and_self]

end Sys2Proof.Machine
end

