-- ==== Sys2Proof/Laws/Memory.lean ====
section
/-! SUPPORT. The laws of the memory array: every operation keeps the canonical form, a read after a write to the same place
gives the value written, and a write leaves every other place alone (20_memory.md R40, R44, R48). -/

namespace Sys2Proof.Machine

/-! ## The canonical form -/

theorem Memory.wfFrom_mono {lo lo' : Nat} {m : List Host.Cell} (h : Memory.wfFrom lo m = true) (hl : lo' ≤ lo) :
    Memory.wfFrom lo' m = true := by
  cases m with
  | nil => rfl
  | cons c m =>
    obtain ⟨k, v⟩ := c
    simp only [Memory.wfFrom, Bool.and_eq_true, decide_eq_true_eq] at *
    exact ⟨⟨⟨by omega, h.1.1.2⟩, h.1.2⟩, h.2⟩

theorem Memory.entry_wf {a : Nat} {b : Byte} {m : List Host.Cell} {lo : Nat} (h : Memory.wfFrom (a + 1) m = true)
    (hl : lo ≤ a) (ha : a < Memory.limit) : Memory.wfFrom lo (Memory.entry a b m) = true := by
  unfold Memory.entry
  split
  · exact Memory.wfFrom_mono h (by omega)
  · rename_i hb
    simp [Memory.wfFrom, hl, ha, hb, h]

theorem Memory.write_wfFrom {m : List Host.Cell} {lo a : Nat} {b : Byte} (h : Memory.wfFrom lo m = true) (hl : lo ≤ a)
    (ha : a < Memory.limit) : Memory.wfFrom lo (Memory.write m a b) = true := by
  induction m generalizing lo with
  | nil => exact Memory.entry_wf rfl hl ha
  | cons c m ih =>
    obtain ⟨k, v⟩ := c
    have hc := h
    simp only [Memory.wfFrom, Bool.and_eq_true, decide_eq_true_eq] at h
    simp only [Memory.write]
    split
    · exact Memory.entry_wf (Memory.wfFrom_mono (lo := k) (by simp [Memory.wfFrom, h.1.1.2, h.1.2, h.2]) (by omega)) hl ha
    · split
      · rename_i hk; subst hk; exact Memory.entry_wf h.2 hl ha
      · simp only [Memory.wfFrom, Bool.and_eq_true, decide_eq_true_eq]
        exact ⟨⟨h.1.1, h.1.2⟩, ih h.2 (by omega)⟩

/-- A byte write below the limit keeps the canonical form. -/
theorem Memory.write_wf {m : List Host.Cell} (h : Memory.wf m = true) {a : Nat} (ha : a < Memory.limit) (b : Byte) :
    Memory.wf (Memory.write m a b) = true := Memory.write_wfFrom h (Nat.zero_le a) ha

/-! ## Reading after writing -/

theorem Memory.read_below {m : List Host.Cell} {lo a : Nat} (h : Memory.wfFrom lo m = true) (ha : a < lo) :
    Memory.read m a = Memory.unlisted := by
  cases m with
  | nil => rfl
  | cons c m =>
    obtain ⟨k, v⟩ := c
    simp only [Memory.wfFrom, Bool.and_eq_true, decide_eq_true_eq] at h
    have h1 : k ≠ a := by omega
    have h2 : a < k := by omega
    simp [Memory.read, h1, h2]

theorem Memory.read_entry {m : List Host.Cell} {a x : Nat} {b : Byte} (h : Memory.wfFrom (a + 1) m = true) :
    Memory.read (Memory.entry a b m) x = if x = a then b else Memory.read m x := by
  unfold Memory.entry
  by_cases hx : x = a
  · subst hx
    split
    · rename_i hb; rw [Memory.read_below h (by omega), hb]; simp
    · simp [Memory.read]
  · rw [if_neg hx]
    split
    · rfl
    · simp only [Memory.read]
      split
      · omega
      · split
        · rename_i hl; rw [Memory.read_below h (by omega)]
        · rfl

theorem Memory.read_writeFrom {m : List Host.Cell} {lo a : Nat} {b : Byte} (h : Memory.wfFrom lo m = true) (x : Nat) :
    Memory.read (Memory.write m a b) x = if x = a then b else Memory.read m x := by
  induction m generalizing lo with
  | nil => exact Memory.read_entry rfl
  | cons c m ih =>
    obtain ⟨k, v⟩ := c
    simp only [Memory.wfFrom, Bool.and_eq_true, decide_eq_true_eq] at h
    simp only [Memory.write]
    split
    · exact Memory.read_entry (Memory.wfFrom_mono (lo := k) (by simp [Memory.wfFrom, h.1.1.2, h.1.2, h.2]) (by omega))
    · split
      · rename_i hk; subst hk
        rw [Memory.read_entry h.2]
        by_cases hx : x = k
        · simp [hx]
        · have hne : k ≠ x := fun e => hx e.symm
          simp only [hx, if_false, Memory.read, hne]
          split
          · rw [Memory.read_below h.2 (by omega)]
          · rfl
      · rename_i hl hk
        simp only [Memory.read, ih h.2]
        by_cases hx : x = a
        · subst hx; simp [hk, hl]
        · simp [hx]

/-- A read after a write: the value written there, the old value elsewhere. -/
theorem Memory.read_write {m : List Host.Cell} (h : Memory.wf m = true) (a x : Nat) (b : Byte) :
    Memory.read (Memory.write m a b) x = if x = a then b else Memory.read m x := Memory.read_writeFrom h x

/-! ## Words -/

theorem Memory.writeWord_wf {m : List Host.Cell} (h : Memory.wf m = true) {a : Word} (ha : a.toNat + 1 < Memory.limit)
    (v : Word) : Memory.wf (Memory.writeWord m a v) = true :=
  Memory.write_wf (Memory.write_wf h (by omega) _) ha _

theorem Memory.read_writeWord {m : List Host.Cell} (h : Memory.wf m = true) {a : Word} (ha : a.toNat + 1 < Memory.limit)
    (v : Word) (x : Nat) :
    Memory.read (Memory.writeWord m a v) x
      = if x = a.toNat then Word.lowByte v else if x = a.toNat + 1 then Word.highByte v else Memory.read m x := by
  unfold Memory.writeWord
  rw [Memory.read_write (Memory.write_wf h (by omega) _), Memory.read_write h]
  by_cases h1 : x = a.toNat + 1
  · have : x ≠ a.toNat := by omega
    simp [h1]
  · simp [h1]

theorem wordOfBytes_lanes (v : Word) : wordOfBytes (Word.lowByte v) (Word.highByte v) = v := by
  unfold wordOfBytes Word.lowByte Word.highByte
  apply BitVec.eq_of_getLsbD_eq
  intro i hi
  simp only [BitVec.getLsbD_append, BitVec.getLsbD_extractLsb']
  by_cases h : i < 8
  · simp [h]
  · have : 8 + (i - 8) = i := by omega
    simp [h, this, hi]
    omega

theorem Memory.readWord_writeWord_self {m : List Host.Cell} (h : Memory.wf m = true) {a : Word}
    (ha : a.toNat + 1 < Memory.limit) (v : Word) : Memory.readWord (Memory.writeWord m a v) a = v := by
  unfold Memory.readWord
  rw [Memory.read_writeWord h ha, Memory.read_writeWord h ha]
  simp [wordOfBytes_lanes]

theorem evenAddr_toNat (a : Word) : (evenAddr a).toNat = 2 * (a.toNat / 2) := by
  have h : evenAddr a = (a >>> 1) <<< 1 := by
    unfold evenAddr
    apply BitVec.eq_of_getLsbD_eq
    intro i hi
    have : i = 0 ∨ (1 ≤ i) := by omega
    rcases this with rfl | h1
    · simp
    · have : BitVec.getLsbD (0xFFFE#16) i = true := by
        have : ∀ j : Fin 16, 1 ≤ j.val → BitVec.getLsbD (0xFFFE#16) j.val = true := by decide
        exact this ⟨i, hi⟩ h1
      have e : 1 + (i - 1) = i := by omega
      have h2 : ¬ i < 1 := by omega
      rw [BitVec.getLsbD_and, this, BitVec.getLsbD_shiftLeft, BitVec.getLsbD_ushiftRight, e]
      simp [hi, h2]
  rw [h]
  simp only [BitVec.toNat_shiftLeft, BitVec.toNat_ushiftRight, Nat.shiftRight_one, Nat.shiftLeft_eq, Nat.pow_one]
  have := a.isLt
  omega

theorem inMmio_false {w : Word} : inMmio w = false ↔ w.toNat < Memory.limit := by
  unfold inMmio BitVec.ule Memory.limit
  simp

/-- The word of an array address fits below the limit. -/
theorem evenAddr_lt_limit {a : Word} (h : inMmio (evenAddr a) = false) : (evenAddr a).toNat + 1 < Memory.limit := by
  have h1 := inMmio_false.mp h
  rw [evenAddr_toNat] at *
  have : Memory.limit = 65024 := by decide
  omega

/-! ## Loads and stores -/

theorem devAt_of_array {w : Word} (h : inMmio w = false) : devAt w = none := by
  have h1 := inMmio_false.mp h
  have hl : Memory.limit = 65024 := by decide
  have hn : ∀ c : Word, Memory.limit ≤ c.toNat → w ≠ c := fun c hc e => by subst e; omega
  unfold devAt
  rw [if_neg (hn _ (by decide)), if_neg (hn _ (by decide)), if_neg (hn _ (by decide)), if_neg (hn _ (by decide)),
    if_neg (hn _ (by decide)), if_neg (hn _ (by decide)), if_neg (hn _ (by decide))]

theorem loadWord_array {a : Word} (s : State) (h : inArray a = true) :
    loadWord a s = (Memory.readWord s.mem (evenAddr a), s) := by
  have h : inMmio (evenAddr a) = false := by simpa [inArray] using h
  unfold loadWord
  rw [devAt_of_array h]
  simp [h]

theorem storeWord_array {a : Word} (s : State) (h : inArray a = true) (v m : Word) :
    storeWord a v m s
      = { s with mem := Memory.writeWord s.mem (evenAddr a) (mergeMask (Memory.readWord s.mem (evenAddr a)) v m) } := by
  have h : inMmio (evenAddr a) = false := by simpa [inArray] using h
  unfold storeWord
  rw [devAt_of_array h]
  simp [h]

@[simp] theorem mergeMask_full (old v : Word) : mergeMask old v 0xFFFF#16 = v := by
  unfold mergeMask
  have : (0xFFFF#16 : Word) = BitVec.allOnes 16 := by decide
  rw [this, BitVec.and_allOnes]
  simp

theorem devSet_mem (d : DevReg) (v : Word) (s : State) : (devSet d v s).mem = s.mem := by
  cases d <;> try rfl
  simp only [devSet]
  split <;> rfl

/-- A store changes memory only where it is backed by the array. -/
theorem storeWord_mem_device {a : Word} (s : State) (h : inArray a = false) (v m : Word) : (storeWord a v m s).mem = s.mem := by
  have h : inMmio (evenAddr a) = true := by simpa [inArray] using h
  unfold storeWord
  cases devAt (evenAddr a) with
  | some d => exact devSet_mem _ _ _
  | none => simp [h]

/-- A word store to MCR (20_memory.md R57, 60_exceptions.md R244). -/
theorem storeWord_mcr {a : Word} (h : evenAddr a = 0xFFFE#16) (v : Word) (s : State) :
    storeWord a v 0xFFFF#16 s = { s with mcr := v } := by
  have hd : devAt 0xFFFE#16 = some .mcr := by decide
  simp [storeWord, h, hd, devSet]

/-- No other store touches the clock enable. -/
theorem storeWord_clockOn {a : Word} (h : evenAddr a ≠ 0xFFFE#16) (v m : Word) (s : State) :
    (storeWord a v m s).clockOn = s.clockOn := by
  unfold storeWord
  cases hd : devAt (evenAddr a) with
  | none => by_cases hi : inMmio (evenAddr a) = true <;> simp [hi, State.clockOn]
  | some d =>
    cases d with
    | mcr => simp [devAt, h] at hd; (repeat' split at hd) <;> simp_all
    | ddr => simp only [devSet]; split <;> rfl
    | kbsr | kbdr | dsr | iccr | icdr => rfl

/-- Every store keeps the canonical form. -/
theorem storeWord_wf {s : State} (h : Memory.wf s.mem = true) (a v m : Word) : Memory.wf (storeWord a v m s).mem = true := by
  cases ha : inArray a with
  | false => rw [storeWord_mem_device s ha]; exact h
  | true =>
    rw [storeWord_array s ha]
    exact Memory.writeWord_wf h (evenAddr_lt_limit (by simpa [inArray] using ha)) _

theorem reset_memory_wf : Memory.wf State.reset.mem = true := rfl

end Sys2Proof.Machine
end

