-- ==== Sys2Proof/Laws/Ops.lean ====
section
/-! SUPPORT. What each shared operation answers on a machine that runs: one lemma each, cited by whoever follows an
instruction through its micro-states. -/

namespace Sys2Proof.Machine

@[simp] theorem andThen_next (s : State) (f : State → Out) : andThen (.next s) f = f s := rfl

theorem andAt_next (s : State) (k : UState) (f : State → Out) : andAt (.next s) k f = if s.ustate = k then f s else .next s := rfl

@[simp] theorem conclude_none (t : State) (r : Bool) (k : UState) : conclude ⟨t, r, none⟩ k = { t with ustate := k } := rfl

@[simp] theorem conclude_some (t : State) (r : Bool) (v : Vector8) (k : UState) :
    conclude ⟨t, r, some v⟩ k = raiseException v t := rfl

theorem systemTick_runs {s : State} (h : s.runs = true) (f : State → Out) : systemTick f s = f (devicesTick s) := by
  simp [systemTick, runs_clockOn h, breakArrives_of_noBreak (runs_noBreak h)]

/-- A tick with one micro-operation, on a machine that runs. -/
theorem microBy_runs {s : State} (h : s.runs = true) (k : State → UState) (u : State → Micro) :
    microBy k u s = .next (conclude (u (devicesTick s)) (k (u (devicesTick s)).st)) := systemTick_runs h _

theorem microTo_runs {s : State} (h : s.runs = true) (k : UState) (u : State → Micro) :
    microTo k u s = .next (conclude (u (devicesTick s)) k) := microBy_runs h _ _

/-- Everything a tick can answer: the state as it is while the clock is off, the break's fault, or the CPU's part after the
others' ticks. -/
theorem systemTick_cases (f : State → Out) (s : State) :
    (s.clockOn = false ∧ systemTick f s = .next s)
    ∨ (s.clockOn = true ∧ s.breakArrives = true ∧ systemTick f s = .fault .keyboardBreak)
    ∨ (s.clockOn = true ∧ s.breakArrives = false ∧ systemTick f s = f (devicesTick s)) := by
  unfold systemTick
  cases hc : s.clockOn <;> cases hb : s.breakArrives <;> simp

/-! ## The wait states -/

theorem waitTicks_read {w k : UState} (hw : k ≠ w) (n : Nat) : ∀ (b : Nat) (t : State), t.runs = true → t.rdEn = true →
    t.busy = b → 1 ≤ b → b ≤ n →
    waitTicks w k uRead n t = .next { (loadWord t.mar (devicesTicks b t)).2 with
      mdr := (loadWord t.mar (devicesTicks b t)).1, ustate := k, rdEn := false, busy := 0 } := by
  induction n with
  | zero => intro b t _ _ _ h1 h2; omega
  | succ n ih =>
    intro b t hr hd hb h1 h2
    unfold waitTicks waitTick
    rw [systemTick_runs hr]
    by_cases hb1 : b = 1
    · subst hb1
      have h0 : (devicesTick t).busy = 0 := by rw [devicesTick_busy, hb]
      simp only [uRead, memRead, devicesTick_rdEn, hd, h0, devicesTick_mar, Bool.not_true, Bool.false_eq_true, if_false,
        Nat.lt_irrefl, conclude_none, if_true, loadWord_cpu, andAt_next, devicesTicks, if_neg hw]
      congr 1
      apply State.ext_fields <;> simp
    · have h0 : (devicesTick t).busy = b - 1 := by rw [devicesTick_busy, hb]
      have hp : 0 < b - 1 := by omega
      simp only [uRead, memRead, devicesTick_rdEn, hd, h0, Bool.not_true, Bool.false_eq_true, if_false, hp, if_true,
        conclude_none, andAt_next]
      rw [ih (b - 1) _ (by exact devicesTick_runs hr) (by simp) (by simp) (by omega) (by omega)]
      obtain ⟨c, rfl⟩ : ∃ c, b = c + 1 := ⟨b - 1, by omega⟩
      simp only [Nat.add_sub_cancel, devicesTicks]
      rw [devicesTicks_cpu _ _ _ _ _ _ _ _ _ _ _ _ _ _ _ rfl]
      simp only [loadWord_cpu, devicesTick_mar]
      congr 1
      apply State.ext_fields <;> simp

/-- A read's wait state, from a machine with no operation outstanding: `MEM_DELAY + 1` ticks, the read on the last of
them, and the value in MDR (20_memory.md R46, 40_microsequencer.md R100). -/
theorem waitFor_read {s : State} (hr : s.runs = true) (hi : s.memIdle = true) {w k : UState} (hw : k ≠ w) :
    waitFor w k uRead s = .next { (loadWord s.mar (devicesTicks (s.cfg.memDelay + 1) s)).2 with
      mdr := (loadWord s.mar (devicesTicks (s.cfg.memDelay + 1) s)).1, ustate := k, busy := 0 } := by
  have hd : s.rdEn = false := by
    simp only [State.memIdle, Bool.and_eq_true, Bool.not_eq_true'] at hi; exact hi.1
  have hm := runs_memDelay hr
  unfold waitFor waitBound
  rw [show s.busy + s.cfg.memDelay + 2 = (s.busy + s.cfg.memDelay + 1) + 1 from rfl]
  unfold waitTicks waitTick
  rw [systemTick_runs hr]
  simp only [uRead, memRead, devicesTick_rdEn, hd, Bool.not_false, if_true, conclude_none, andAt_next, Bool.false_eq_true,
    if_false]
  rw [waitTicks_read hw _ (devicesTick s).cfg.memDelay _ (by exact devicesTick_runs hr) rfl rfl (by simpa using hm)
    (by simp; omega)]
  simp only [devicesTicks]
  rw [devicesTicks_cpu _ _ _ _ _ _ _ _ _ _ _ _ _ _ _ rfl]
  simp only [loadWord_cpu, devicesTick_mar, devicesTick_cfg]
  congr 1
  apply State.ext_fields <;> simp [hd]

/-- One call of the write protocol with the mask that the address selects. -/
def uWriteMasked (m : Word → Word) (s : State) : Micro :=
  let r := memWrite s.mar s.mdr (m s.mar) s
  { st := r.2, ready := r.1 }

theorem uWriteWord_eq : uWriteWord = uWriteMasked (fun _ => 0xFFFF#16) := rfl

theorem uWriteByte_eq : uWriteByte = uWriteMasked laneMask := rfl

theorem waitTicks_write {w k : UState} (hw : k ≠ w) (m : Word → Word) (n : Nat) : ∀ (b : Nat) (t : State), t.runs = true →
    t.wrEn = true → t.busy = b → 1 ≤ b → b ≤ n →
    waitTicks w k (uWriteMasked m) n t = .next { storeWord t.mar t.mdr (m t.mar) (devicesTicks b t) with
      ustate := k, wrEn := false, busy := 0 } := by
  induction n with
  | zero => intro b t _ _ _ h1 h2; omega
  | succ n ih =>
    intro b t hr hd hb h1 h2
    unfold waitTicks waitTick
    rw [systemTick_runs hr]
    by_cases hb1 : b = 1
    · subst hb1
      have h0 : (devicesTick t).busy = 0 := by rw [devicesTick_busy, hb]
      simp only [uWriteMasked, memWrite, devicesTick_wrEn, hd, h0, devicesTick_mar, devicesTick_mdr, Bool.not_true,
        Bool.false_eq_true, if_false, Nat.lt_irrefl, conclude_none, if_true, storeWord_cpu, andAt_next, devicesTicks, if_neg hw]
      congr 1
      apply State.ext_fields <;> simp
    · have h0 : (devicesTick t).busy = b - 1 := by rw [devicesTick_busy, hb]
      have hp : 0 < b - 1 := by omega
      simp only [uWriteMasked, memWrite, devicesTick_wrEn, hd, h0, Bool.not_true, Bool.false_eq_true, if_false, hp, if_true,
        conclude_none, andAt_next]
      rw [ih (b - 1) _ (by exact devicesTick_runs hr) (by simp) (by simp) (by omega) (by omega)]
      obtain ⟨c, rfl⟩ : ∃ c, b = c + 1 := ⟨b - 1, by omega⟩
      simp only [Nat.add_sub_cancel, devicesTicks]
      rw [devicesTicks_cpu _ _ _ _ _ _ _ _ _ _ _ _ _ _ _ rfl]
      simp only [storeWord_cpu, devicesTick_mar, devicesTick_mdr]
      congr 1
      apply State.ext_fields <;> simp

/-- A write's wait state, from a machine with no operation outstanding: `MEM_DELAY + 1` ticks, the store on the last of
them (20_memory.md R47, 40_microsequencer.md R100). -/
theorem waitFor_write {s : State} (hr : s.runs = true) (hi : s.memIdle = true) {w k : UState} (hw : k ≠ w) (m : Word → Word) :
    waitFor w k (uWriteMasked m) s = .next { storeWord s.mar s.mdr (m s.mar) (devicesTicks (s.cfg.memDelay + 1) s) with
      ustate := k, busy := 0 } := by
  have hd : s.wrEn = false := by
    simp only [State.memIdle, Bool.and_eq_true, Bool.not_eq_true'] at hi; exact hi.2
  have hm := runs_memDelay hr
  unfold waitFor waitBound
  rw [show s.busy + s.cfg.memDelay + 2 = (s.busy + s.cfg.memDelay + 1) + 1 from rfl]
  unfold waitTicks waitTick
  rw [systemTick_runs hr]
  simp only [uWriteMasked, memWrite, devicesTick_wrEn, hd, Bool.not_false, if_true, conclude_none, andAt_next,
    Bool.false_eq_true, if_false]
  have := waitTicks_write hw m (s.busy + s.cfg.memDelay + 1) (devicesTick s).cfg.memDelay
    { devicesTick s with wrEn := true, busy := (devicesTick s).cfg.memDelay, ustate := w }
    (devicesTick_runs hr) rfl rfl (by simpa using hm) (by simp; omega)
  rw [this]
  simp only [devicesTicks]
  rw [devicesTicks_cpu _ _ _ _ _ _ _ _ _ _ _ _ _ _ _ rfl]
  simp only [storeWord_cpu, devicesTick_mar, devicesTick_mdr, devicesTick_cfg]
  congr 1
  apply State.ext_fields <;> simp [hd]

theorem atEntry_runs {s : State} (h : s.atEntry = true) : s.runs = true := by
  simp only [State.atEntry, Bool.and_eq_true] at h; exact h.1

theorem atEntry_memIdle {s : State} (h : s.atEntry = true) : s.memIdle = true := by
  simp only [State.atEntry, Bool.and_eq_true] at h; exact h.2

theorem atEntry_of {s : State} (h : s.runs = true) (hi : s.memIdle = true) : s.atEntry = true := by
  simp [State.atEntry, h, hi]

theorem over_runs {c d : State} (h : c.IsOver d) (hd : d.runs = true) : c.runs = true := by rw [h.1]; exact hd

/-- A read's wait state, told by the other blocks' state `d` under `c`. -/
theorem waitFor_read_over {c d : State} (h : c.IsOver d) (hd : d.runs = true) (hr : c.rdEn = false) (hwr : c.wrEn = false)
    {w k : UState} (hw : k ≠ w) :
    waitFor w k uRead c = .next ({ (loadWord c.mar (devicesTicks (d.cfg.memDelay + 1) d)).2.withCpu c with
      mdr := (loadWord c.mar (devicesTicks (d.cfg.memDelay + 1) d)).1, ustate := k, busy := 0 }) := by
  rw [waitFor_read (over_runs h hd) (by simp [State.memIdle, hr, hwr]) hw]
  have hc : c.cfg = d.cfg := by rw [h.1]; rfl
  have key : devicesTicks (d.cfg.memDelay + 1) c
      = (devicesTicks (d.cfg.memDelay + 1) d).withCpu { c with busy := c.busy - (d.cfg.memDelay + 1) } := devicesTicks_over h _
  rw [hc, key, loadWord_withCpu]
  rfl

/-- A write's wait state, told by the other blocks' state `d` under `c`. -/
theorem waitFor_write_over {c d : State} (h : c.IsOver d) (hd : d.runs = true) (hr : c.rdEn = false) (hwr : c.wrEn = false)
    {w k : UState} (hw : k ≠ w) (m : Word → Word) :
    waitFor w k (uWriteMasked m) c = .next ({ (storeWord c.mar c.mdr (m c.mar) (devicesTicks (d.cfg.memDelay + 1) d)).withCpu c with
      ustate := k, busy := 0 }) := by
  rw [waitFor_write (over_runs h hd) (by simp [State.memIdle, hr, hwr]) hw]
  have hc : c.cfg = d.cfg := by rw [h.1]; rfl
  have key : devicesTicks (d.cfg.memDelay + 1) c
      = (devicesTicks (d.cfg.memDelay + 1) d).withCpu { c with busy := c.busy - (d.cfg.memDelay + 1) } := devicesTicks_over h _
  rw [hc, key, storeWord_withCpu]
  rfl

/-- A tick with one micro-operation, told by the other blocks' state `d` under `c`. -/
theorem microBy_over {c d : State} (h : c.IsOver d) (hd : d.runs = true) (k : State → UState) (u : State → Micro) :
    microBy k u c = .next (conclude (u ((devicesTick d).withCpu { c with busy := c.busy - 1 }))
      (k (u ((devicesTick d).withCpu { c with busy := c.busy - 1 })).st)) := by
  rw [microBy_runs (over_runs h hd)]
  rw [devicesTick_over h]

theorem microTo_over {c d : State} (h : c.IsOver d) (hd : d.runs = true) (k : UState) (u : State → Micro) :
    microTo k u c = .next (conclude (u ((devicesTick d).withCpu { c with busy := c.busy - 1 })) k) :=
  microBy_over h hd _ u

/-! ## The service sequence -/

theorem ivtAddr_array (v : Vector8) : inArray (ivtAddr v) = true := by revert v; decide +kernel
theorem ivtAddr_even (v : Vector8) : evenAddr (ivtAddr v) = ivtAddr v := by revert v; decide +kernel

theorem microTo_stopped {s : State} (h : s.clockOn = false) (k : UState) (u : State → Micro) : microTo k u s = .next s := by
  simp [microTo, microBy, systemTick, h]

/-- One push of the service sequence, wherever it lands: `x[6]` down by 2, and MDR stored there `MEM_DELAY + 2` ticks later
(60_exceptions.md R207, R208, R210, R211). What follows it is `f`. -/
theorem push_over {c g : State} (hc : c.IsOver g) (hg : g.runs = true) (hi : g.intf = true) (h1 : c.rdEn = false)
    (h2 : c.wrEn = false) {w k : UState} (hw : k ≠ w) (f : State → Out) :
    (andAt (microTo w uPushAddress c) w fun s => andAt (waitFor w k uWriteWord s) k f)
      = f { (storeWord (c.regs.get .r6 - 2#16) c.mdr 0xFFFF#16 (devicesTicks (g.cfg.memDelay + 2) g)).withCpu c with
        regs := c.regs.set .r6 (c.regs.get .r6 - 2#16), mar := c.regs.get .r6 - 2#16, ustate := k, busy := 0 } := by
  rw [microTo_over hc hg]
  simp only [uPushAddress, State.withCpu, conclude_none, andAt_next, if_true, uWriteWord_eq]
  rw [waitFor_write_over (d := devicesTick g) (by exact ⟨rfl, .inr (devicesTick_latch hi).1⟩) (devicesTick_runs hg)
    (by exact h1) (by exact h2) hw]
  simp only [andAt_next, if_true, devicesTick_cfg]
  rfl

/-- What a push leaves latched. -/
theorem push_latch {g : State} (hi : g.intf = true) (a v m : Word) (n : Nat) :
    (storeWord a v m (devicesTicks n g)).intf = true ∧ (storeWord a v m (devicesTicks n g)).intv = g.intv
    ∧ (storeWord a v m (devicesTicks n g)).intp = g.intp := by
  simpa using devicesTicks_latch hi n

/-- The service sequence from state 37 to the end of its second push, where the first leaves the clock on: what is left to
do is the mode, the vector and the jump. -/
theorem servicePushes_pushed {c g : State} (hc : c.IsOver g) (hg : g.runs = true) (hi : g.intf = true)
    (h1 : c.rdEn = false) (h2 : c.wrEn = false) {S : Word} (hS : c.regs.get .r6 = S)
    (ha : (storeWord (S - 2#16) c.mdr 0xFFFF#16 (devicesTicks (g.cfg.memDelay + 2) g)).clockOn = true) :
    let a := storeWord (S - 2#16) c.mdr 0xFFFF#16 (devicesTicks (g.cfg.memDelay + 2) g)
    let b := storeWord (S - 4#16) c.pc 0xFFFF#16 (devicesTicks (g.cfg.memDelay + 3) a)
    servicePushes c = andAt (microTo 52#6 uServiceMode { b.withCpu c with
        regs := c.regs.set .r6 (S - 4#16), mar := S - 4#16, mdr := c.pc, ustate := 50#6, busy := 0 }) 52#6 fun s =>
      andAt (waitFor 52#6 54#6 uRead s) 54#6 fun s => microTo 18#6 uServiceJump s := by
  intro a b
  unfold servicePushes
  rw [push_over hc hg hi h1 h2 (by decide), hS]
  have Ra : a.runs = true := storeWord_runs (devicesTicks_runs hg _) ha
  have Ia : a.intf = true := (push_latch hi _ _ _ _).1
  have Ca : a.cfg = g.cfg := by simp [a]
  rw [microTo_over (d := a) (c := { a.withCpu c with
    regs := c.regs.set .r6 (S - 2#16), mar := S - 2#16, ustate := 43#6, busy := 0 }) ⟨rfl, .inr Ia⟩ Ra]
  simp only [uMdrPc, State.withCpu, conclude_none, andAt_next, if_true]
  rw [push_over (g := devicesTick a) (by exact ⟨rfl, .inr (devicesTick_latch Ia).1⟩) (devicesTick_runs Ra)
    (devicesTick_latch Ia).1 (by exact h1) (by exact h2) (by decide)]
  have hS4 : S - 2#16 - 2#16 = S - 4#16 := by bv_omega
  simp only [State.withCpu, Regs.get_set_self, Regs.set_set, hS4, devicesTick_cfg, Ca]
  rfl

/-- The service sequence from state 37 on, where both pushes leave the clock on: two pushes, the mode, the vector, the jump
(60_exceptions.md R207 to R214). -/
theorem servicePushes_completes {c g : State} (hc : c.IsOver g) (hg : g.runs = true) (hi : g.intf = true)
    (h1 : c.rdEn = false) (h2 : c.wrEn = false) {S : Word} (hS : c.regs.get .r6 = S) :
    let D := g.cfg.memDelay
    let a := storeWord (S - 2#16) c.mdr 0xFFFF#16 (devicesTicks (D + 2) g)
    let b := storeWord (S - 4#16) c.pc 0xFFFF#16 (devicesTicks (D + 3) a)
    let r := Memory.readWord b.mem (ivtAddr g.intv)
    a.clockOn = true → b.clockOn = true →
    servicePushes c = .next { (devicesTicks (D + 3) b).withCpu c with
       regs := c.regs.set .r6 (S - 4#16), pc := r, mar := ivtAddr g.intv, mdr := r, intf := false,
       psr := { c.psr with priv := .supervisor, priority := g.intp }, ustate := 18#6, busy := 0 } := by
  intro D a b r ha hb
  rw [servicePushes_pushed hc hg hi h1 h2 hS ha]
  have Ra : a.runs = true := storeWord_runs (devicesTicks_runs hg _) ha
  have Rb : b.runs = true := storeWord_runs (devicesTicks_runs Ra _) hb
  have La := push_latch hi (S - 2#16) c.mdr 0xFFFF#16 (D + 2)
  have Lb := push_latch La.1 (S - 4#16) c.pc 0xFFFF#16 (D + 3)
  have Ib : b.intf = true := Lb.1
  have Vb : b.intv = g.intv := Lb.2.1.trans La.2.1
  have Pb : b.intp = g.intp := Lb.2.2.trans La.2.2
  have Cb : b.cfg = g.cfg := by simp [b, a]
  have eb : storeWord (S - 4#16) c.pc 0xFFFF#16 (devicesTicks (g.cfg.memDelay + 3)
    (storeWord (S - 2#16) c.mdr 0xFFFF#16 (devicesTicks (g.cfg.memDelay + 2) g))) = b := rfl
  rw [eb]
  clear_value b
  rw [microTo_over (d := b) (by exact ⟨rfl, .inr Ib⟩) Rb]
  have L := devicesTick_latch Ib
  simp only [uServiceMode, State.withCpu, conclude_none, andAt_next, if_true]
  rw [L.2.1, L.2.2, Vb, Pb]
  rw [waitFor_read_over (d := devicesTick b) (by exact ⟨by simp only [State.withCpu, L.2.1, L.2.2, Vb, Pb], .inr L.1⟩)
    (devicesTick_runs Rb) (by exact h1) (by exact h2) (by decide)]
  simp only [andAt_next, if_true, devicesTick_cfg, Cb]
  have er : loadWord (ivtAddr g.intv) (devicesTicks (g.cfg.memDelay + 1) (devicesTick b)) = (r, devicesTicks (D + 2) b) := by
    rw [loadWord_array _ (ivtAddr_array _), ivtAddr_even]
    simp only [devicesTicks_mem, devicesTick_mem]
    rfl
  simp only [er]
  rw [microTo_over (d := devicesTicks (D + 2) b) (by exact ⟨rfl, .inr (devicesTicks_latch Ib _).1⟩) (devicesTicks_runs Rb _)]
  simp only [uServiceJump, State.withCpu, conclude_none, ← devicesTicks_succ]

/-- Where the first push stops the clock, the sequence stands in state 43 (70_reset_and_hazards.md R272). -/
theorem servicePushes_stopsFirst {c g : State} (hc : c.IsOver g) (hg : g.runs = true) (hi : g.intf = true)
    (h1 : c.rdEn = false) (h2 : c.wrEn = false) {S : Word} (hS : c.regs.get .r6 = S) :
    let a := storeWord (S - 2#16) c.mdr 0xFFFF#16 (devicesTicks (g.cfg.memDelay + 2) g)
    a.clockOn = false →
    servicePushes c = .next { a.withCpu c with
      regs := c.regs.set .r6 (S - 2#16), mar := S - 2#16, ustate := 43#6, busy := 0 } := by
  intro a ha
  unfold servicePushes
  rw [push_over hc hg hi h1 h2 (by decide), hS, microTo_stopped (by exact ha), andAt_next]
  exact if_neg (by decide : ¬ (43#6 : UState) = 47#6)

/-- Where the second push stops the clock, the sequence stands in state 50. -/
theorem servicePushes_stopsSecond {c g : State} (hc : c.IsOver g) (hg : g.runs = true) (hi : g.intf = true)
    (h1 : c.rdEn = false) (h2 : c.wrEn = false) {S : Word} (hS : c.regs.get .r6 = S) :
    let a := storeWord (S - 2#16) c.mdr 0xFFFF#16 (devicesTicks (g.cfg.memDelay + 2) g)
    let b := storeWord (S - 4#16) c.pc 0xFFFF#16 (devicesTicks (g.cfg.memDelay + 3) a)
    a.clockOn = true → b.clockOn = false →
    servicePushes c = .next { b.withCpu c with
      regs := c.regs.set .r6 (S - 4#16), mar := S - 4#16, mdr := c.pc, ustate := 50#6, busy := 0 } := by
  intro a b ha hb
  rw [servicePushes_pushed hc hg hi h1 h2 hS ha, microTo_stopped (by exact hb), andAt_next]
  exact if_neg (by decide : ¬ (50#6 : UState) = 52#6)

end Sys2Proof.Machine
end

