-- ==== Sys2Proof/Laws/Frames.lean ====
section
/-! SUPPORT. How a relation between the state before and the state after passes through the shared operations: enough to say,
of an instruction, what each of its micro-operations keeps. -/

namespace Sys2Proof.Machine

/-- Whatever `f` answers next is related to the state it starts from. -/
def Keeps (R : State → State → Prop) (f : State → Out) : Prop := ∀ s t, f s = .next t → R s t

/-- A relation that the ticks of the other blocks and the sequencer's own number keep. -/
structure Frame (R : State → State → Prop) : Prop where
  refl : ∀ s, R s s
  trans : ∀ {s t u}, R s t → R t u → R s u
  tick : ∀ s, R s (devicesTick s)
  state : ∀ s k, R s { s with ustate := k }

theorem keeps_then {R : State → State → Prop} (F : Frame R) {f g : State → Out} (hf : Keeps R f) (hg : Keeps R g) :
    Keeps R (fun s => andThen (f s) g) := by
  intro s t h
  cases hs : f s with
  | next u => exact F.trans (hf s u hs) (hg u t (by simpa [hs, andThen] using h))
  | fault r => simp [hs, andThen] at h
  | refused r => simp [hs, andThen] at h

theorem keeps_ite {R : State → State → Prop} {p : State → Prop} [∀ s, Decidable (p s)] {f g : State → Out} (hf : Keeps R f)
    (hg : Keeps R g) : Keeps R (fun s => if p s then f s else g s) := by
  intro s t h
  by_cases hp : p s
  · exact hf s t (by simpa [hp] using h)
  · exact hg s t (by simpa [hp] using h)

theorem keeps_next {R : State → State → Prop} (F : Frame R) : Keeps R (fun s => .next s) := by
  intro s t h
  cases h
  exact F.refl s

theorem keeps_at {R : State → State → Prop} (F : Frame R) {f g : State → Out} (k : UState) (hf : Keeps R f) (hg : Keeps R g) :
    Keeps R (fun s => andAt (f s) k g) := keeps_then F hf (keeps_ite (p := fun s => s.ustate = k) hg (keeps_next F))

theorem keeps_systemTick {R : State → State → Prop} (F : Frame R) {c : State → Out} (hc : Keeps R c) : Keeps R (systemTick c) := by
  intro s t h
  rcases systemTick_cases c s with ⟨_, e⟩ | ⟨_, _, e⟩ | ⟨_, _, e⟩ <;> rw [e] at h
  · cases h; exact F.refl s
  · cases h
  · exact F.trans (F.tick s) (hc _ _ h)

/-- What a micro-operation must keep: its own writes and the exception it may latch. -/
def MicroKeeps (R : State → State → Prop) (u : State → Micro) : Prop :=
  ∀ s, R s (u s).st ∧ ∀ v, (u s).exc = some v → R (u s).st (raiseException v (u s).st)

theorem conclude_keeps {R : State → State → Prop} (F : Frame R) {u : State → Micro} (hu : MicroKeeps R u) (s : State) (k : UState) :
    R s (conclude (u s) k) := by
  unfold conclude
  cases he : (u s).exc with
  | none => exact F.trans (hu s).1 (F.state _ _)
  | some v => exact F.trans (hu s).1 ((hu s).2 v he)

theorem keeps_microBy {R : State → State → Prop} (F : Frame R) {u : State → Micro} (k : State → UState) (hu : MicroKeeps R u) :
    Keeps R (microBy k u) :=
  keeps_systemTick F fun s t h => by cases h; exact conclude_keeps F hu s _

theorem keeps_microTo {R : State → State → Prop} (F : Frame R) {u : State → Micro} (k : UState) (hu : MicroKeeps R u) :
    Keeps R (microTo k u) := keeps_microBy F _ hu

theorem keeps_waitFor {R : State → State → Prop} (F : Frame R) {u : State → Micro} (w k : UState) (hu : MicroKeeps R u) :
    Keeps R (waitFor w k u) := by
  have h : ∀ n, Keeps R (waitTicks w k u n) := by
    intro n
    induction n with
    | zero => exact keeps_next F
    | succ n ih =>
      exact keeps_at F (f := waitTick w k u) w (keeps_systemTick F fun s t h => by cases h; exact conclude_keeps F hu s _) ih
  intro s
  exact h _ s

theorem microKeeps_of {R : State → State → Prop} {u : State → Micro} (h1 : ∀ s, R s (u s).st)
    (h2 : ∀ s v, R s (raiseException v s)) : MicroKeeps R u := fun s => ⟨h1 s, fun _ _ => h2 _ _⟩

/-! ## What the memory calls write -/

theorem uRead_shape (s : State) : ∃ k v b r, (uRead s).st = { s with kbd := k, mdr := v, busy := b, rdEn := r } := by
  unfold uRead memRead
  cases h : s.rdEn
  · exact ⟨s.kbd, s.mdr, _, _, rfl⟩
  · by_cases hb : 0 < s.busy
    · simp only [hb, Bool.not_true, Bool.false_eq_true, if_false, if_true]
      exact ⟨s.kbd, s.mdr, s.busy, s.rdEn, rfl⟩
    · simp only [hb, Bool.not_true, Bool.false_eq_true, if_false]
      obtain ⟨k, hk⟩ := loadWord_shape s.mar { s with rdEn := false }
      rw [hk]
      exact ⟨_, _, _, _, rfl⟩

theorem uWriteMasked_shape (m : Word → Word) (s : State) : ∃ k ds c mc me b w, (uWriteMasked m s).st
    = { s with kbd := k, dsp := ds, pic := c, mcr := mc, mem := me, busy := b, wrEn := w } := by
  unfold uWriteMasked memWrite
  cases h : s.wrEn
  · exact ⟨s.kbd, s.dsp, s.pic, s.mcr, s.mem, _, _, rfl⟩
  · by_cases hb : 0 < s.busy
    · simp only [hb, Bool.not_true, Bool.false_eq_true, if_false, if_true]
      exact ⟨s.kbd, s.dsp, s.pic, s.mcr, s.mem, s.busy, s.wrEn, rfl⟩
    · simp only [hb, Bool.not_true, Bool.false_eq_true, if_false]
      obtain ⟨k, d, c, mc, me, hk⟩ := storeWord_shape s.mar s.mdr (m s.mar) { s with wrEn := false }
      rw [hk]
      exact ⟨_, _, _, _, _, _, _, rfl⟩

/-! ## Whole instructions -/

/-- That each micro-operation of an instruction, its reads aside, keeps the relation. -/
def MicrosKeep (R : State → State → Prop) : Instr → Prop
  | .addReg dr a b => MicroKeeps R (uAdd dr a (.reg b))
  | .addImm dr a b => MicroKeeps R (uAdd dr a (.imm b))
  | .andReg dr a b => MicroKeeps R (uAnd dr a (.reg b))
  | .andImm dr a b => MicroKeeps R (uAnd dr a (.imm b))
  | .xorReg dr a b => MicroKeeps R (uXor dr a (.reg b))
  | .xorImm dr a b => MicroKeeps R (uXor dr a (.imm b))
  | .br _ _ _ o => (∀ s b, R s {s with ben := b}) ∧ MicroKeeps R (uBranch o)
  | .ldb dr b o => MicroKeeps R (uByteAddress b o) ∧ MicroKeeps R (uLoadByte dr)
  | .stb dr b o => MicroKeeps R (uByteAddress b o) ∧ MicroKeeps R (uStoreByteData dr) ∧ MicroKeeps R uWriteByte
  | .jsrr b => MicroKeeps R (uCallRegister b)
  | .jsr b => MicroKeeps R (uCallRelative b)
  | .ldw dr b o => MicroKeeps R (uWordAddress b o) ∧ MicroKeeps R (uLoadWord dr)
  | .stw dr b o => MicroKeeps R (uWordAddress b o) ∧ MicroKeeps R (uStoreData dr) ∧ MicroKeeps R uWriteWord
  | .rti => MicroKeeps R uRtiEntry ∧ MicroKeeps R uPcMdr ∧ MicroKeeps R uPopAddress ∧ MicroKeeps R uRestorePsr
      ∧ MicroKeeps R uPopEnd ∧ MicroKeeps R uToUserStack
  | .ldi dr b o => MicroKeeps R (uWordAddress b o) ∧ MicroKeeps R (uDereference) ∧ MicroKeeps R (uLoadWord dr)
  | .sti dr b o => MicroKeeps R (uWordAddress b o) ∧ MicroKeeps R (uDereference) ∧ MicroKeeps R (uStoreData dr)
      ∧ MicroKeeps R uWriteWord
  | .jmp b => MicroKeeps R (uJump b)
  | .lshf dr a n => MicroKeeps R (uShift .left dr a n)
  | .rshfl dr a n => MicroKeeps R (uShift .rightLogical dr a n)
  | .rshfa dr a n => MicroKeeps R (uShift .rightArith dr a n)
  | .lea dr o => MicroKeeps R (uLea dr o)
  | .trap v => MicroKeeps R (uTrapEntry v) ∧ MicroKeeps R uPcMdr
/-- A relation that every micro-operation of an instruction keeps holds from its entry state to whatever it answers next. -/
theorem exec_keeps {R : State → State → Prop} (F : Frame R) (hx : ∀ s v, R s (raiseException v s)) (hrd : MicroKeeps R uRead)
    (i : Instr) (h : MicrosKeep R i) : Keeps R (exec i) := by
  have hn : MicroKeeps R uNone := microKeeps_of (fun s => F.refl s) hx
  have hp : MicroKeeps R uPrivilegeViolation := microKeeps_of (fun s => F.refl s) hx
  cases i <;> simp only [MicrosKeep] at h
  case br n z p o =>
    intro s t ht
    refine F.trans (h.1 s (branchEnable n z p s.psr)) ?_
    exact keeps_at F 22#6 (keeps_microBy F _ hn) (keeps_microTo F _ h.2) _ _ ht
  case ldb => exact keeps_at F _ (keeps_microTo F _ h.1) (keeps_at F _ (keeps_waitFor F _ _ hrd) (keeps_microTo F _ h.2))
  case ldw => exact keeps_at F _ (keeps_microTo F _ h.1) (keeps_at F _ (keeps_waitFor F _ _ hrd) (keeps_microTo F _ h.2))
  case trap => exact keeps_at F _ (keeps_microTo F _ h.1) (keeps_at F _ (keeps_waitFor F _ _ hrd) (keeps_microTo F _ h.2))
  case stb => exact keeps_at F _ (keeps_microTo F _ h.1) (keeps_at F _ (keeps_microTo F _ h.2.1) (keeps_waitFor F _ _ h.2.2))
  case stw => exact keeps_at F _ (keeps_microTo F _ h.1) (keeps_at F _ (keeps_microTo F _ h.2.1) (keeps_waitFor F _ _ h.2.2))
  case jsr => exact keeps_at F _ (keeps_microTo F _ hn) (keeps_microTo F _ h)
  case jsrr => exact keeps_at F _ (keeps_microTo F _ hn) (keeps_microTo F _ h)
  case ldi => exact keeps_at F _ (keeps_microTo F _ h.1) (keeps_at F _ (keeps_waitFor F _ _ hrd) (keeps_at F _
    (keeps_microTo F _ h.2.1) (keeps_at F _ (keeps_waitFor F _ _ hrd) (keeps_microTo F _ h.2.2))))
  case sti => exact keeps_at F _ (keeps_microTo F _ h.1) (keeps_at F _ (keeps_waitFor F _ _ hrd) (keeps_at F _
    (keeps_microTo F _ h.2.1) (keeps_at F _ (keeps_microTo F _ h.2.2.1) (keeps_waitFor F _ _ h.2.2.2))))
  case rti =>
    refine keeps_then F (keeps_microBy F _ h.1) ?_
    refine keeps_ite (p := fun s => s.ustate = 44#6) (keeps_microTo F _ hp) ?_
    refine keeps_ite (p := fun s => s.ustate = 36#6) ?_ (keeps_next F)
    refine keeps_at F _ (keeps_waitFor F _ _ hrd) (keeps_at F _ (keeps_microTo F _ h.2.1) (keeps_at F _
      (keeps_microTo F _ h.2.2.1) (keeps_at F _ (keeps_waitFor F _ _ hrd) (keeps_at F _ (keeps_microTo F _ h.2.2.2.1) ?_))))
    refine keeps_then F (keeps_microBy F _ h.2.2.2.2.1) ?_
    exact keeps_ite (p := fun s => s.ustate = 59#6) (keeps_microTo F _ h.2.2.2.2.2)
      (keeps_ite (p := fun s => s.ustate = 51#6) (keeps_microTo F _ hn) (keeps_next F))
  all_goals exact keeps_microTo F _ h


/-! ## Parts of the state -/

theorem uWordAddress_shape (b : Reg) (o : BitVec 6) (s : State) :
    (uWordAddress b o s).st = { s with mar := wordAddress s.regs b o } := by
  simp only [uWordAddress, checkEven]; split <;> rfl
theorem uDereference_shape (s : State) : (uDereference s).st = {s with mar := s.mdr} := by
  simp only [uDereference, checkEven]; split <;> rfl
theorem uJump_shape (b : Reg) (s : State) : ∃ p, (uJump b s).st = {s with pc := p} := by
  simp only [uJump]
  split
  · exact ⟨s.pc, rfl⟩
  · exact ⟨_, rfl⟩

/-- The relation 'this part of the state is the same'. -/
def Eqv {α : Type} (f : State → α) (s t : State) : Prop := f t = f s
theorem eqv_frame {α : Type} (f : State → α) (h1 : ∀ s, f (devicesTick s) = f s)
    (h2 : ∀ (s : State) k, f { s with ustate := k } = f s) : Frame (Eqv f) where
  refl _ := rfl
  trans a b := b.trans a
  tick := h1
  state := h2

/-- A part of the state that the shared writes leave alone, and that an instruction's own writes leave alone where it has
them, is the same after the instruction. -/
theorem exec_keeps_part {α : Type} (f : State → α) (i : Instr) (F : Frame (Eqv f))
    (hx : ∀ s v, f (raiseException v s) = f s)
    (hmar : ∀ (s : State) v, f { s with mar := v } = f s) (hmdr : ∀ (s : State) v, f { s with mdr := v } = f s)
    (hpc : ∀ (s : State) v, f { s with pc := v } = f s) (hregs : ∀ (s : State) v, f { s with regs := v } = f s)
    (hrd : ∀ (s : State) k v b r, f { s with kbd := k, mdr := v, busy := b, rdEn := r } = f s)
    (hwr : i.stores = true → ∀ (s : State) k ds c mc me b w,
      f { s with kbd := k, dsp := ds, pic := c, mcr := mc, mem := me, busy := b, wrEn := w } = f s)
    (hben : (∀ n z p o, i ≠ .br n z p o) ∨ ∀ (s : State) b, f { s with ben := b } = f s)
    (hres : i.writesFlags = false ∨ ∀ (s : State) d v, f (writeResult d v s) = f s)
    (hrti : i ≠ .rti ∨ (∀ (s : State) c q, f { s with pic := c, psr := q } = f s)
      ∧ ∀ (s : State) a, f { s with ssp := a } = f s) : Keeps (Eqv f) (exec i) := by
  have rd : MicroKeeps (Eqv f) uRead := microKeeps_of (fun s => by
    obtain ⟨_, _, _, _, e⟩ := uRead_shape s
    rw [e]
    exact hrd _ _ _ _ _) hx
  refine exec_keeps F hx rd i ?_
  have mk : ∀ u : State → Micro, (∀ s, f (u s).st = f s) → MicroKeeps (Eqv f) u := fun u h => microKeeps_of h hx
  have w : ∀ m, i.stores = true → MicroKeeps (Eqv f) (uWriteMasked m) := fun m hi => mk _ fun s => by
    obtain ⟨_, _, _, _, _, _, _, e⟩ := uWriteMasked_shape m s; rw [e]; exact hwr hi _ _ _ _ _ _ _ _
  have wa : ∀ b o, MicroKeeps (Eqv f) (uWordAddress b o) :=
    fun b o => mk _ fun s => by rw [uWordAddress_shape]; exact hmar _ _
  have de : MicroKeeps (Eqv f) uDereference := mk _ fun s => by rw [uDereference_shape]; exact hmar _ _
  have rm : ∀ (s : State) v a, f { s with regs := v, mar := a } = f s := fun s v a =>
    (hmar { s with regs := v } a).trans (hregs s v)
  have rp : ∀ (s : State) v a, f { s with regs := v, pc := a } = f s := fun s v a =>
    (hpc { s with regs := v } a).trans (hregs s v)
  cases i <;> simp only [MicrosKeep, Instr.writesFlags, Instr.stores, reduceCtorEq, false_or, ne_eq, not_true,
    not_false_eq_true, forall_const, Bool.true_eq_false] at *
  case br n z p o =>
    refine ⟨fun s b => ?_, mk _ fun _ => hpc _ _⟩
    rcases hben with h | h
    · exact absurd rfl (h n z p o)
    · exact h s b
  case ldb => exact ⟨mk _ fun _ => hmar _ _, mk _ fun _ => hres _ _ _⟩
  case ldw => exact ⟨wa _ _, mk _ fun _ => hres _ _ _⟩
  case ldi => exact ⟨wa _ _, de, mk _ fun _ => hres _ _ _⟩
  case stb => exact ⟨mk _ fun _ => hmar _ _, mk _ fun _ => hmdr _ _, w laneMask⟩
  case stw => exact ⟨wa _ _, mk _ fun _ => hmdr _ _, w fun _ => 0xFFFF#16⟩
  case sti => exact ⟨wa _ _, de, mk _ fun _ => hmdr _ _, w fun _ => 0xFFFF#16⟩
  case jmp b => exact mk _ fun s => by obtain ⟨p, e⟩ := uJump_shape b s; rw [e]; exact hpc _ _
  case jsr => exact mk _ fun s => rp _ _ _
  case jsrr => exact mk _ fun s => rp _ _ _
  case trap => exact ⟨mk _ fun s => rm _ _ _, mk _ fun s => hpc _ _⟩
  case rti =>
    exact ⟨mk _ fun s => hmar _ _, mk _ fun s => hpc _ _, mk _ fun s => rm _ _ _, mk _ fun s => hrti.1 _ _ _,
      mk _ fun s => hregs _ _, mk _ fun s => (hregs {s with ssp := s.regs.get .r6} _).trans (hrti.2 _ _)⟩
  all_goals exact mk _ fun s => hres _ _ _

end Sys2Proof.Machine
end

