-- ==== Sys2Proof/Laws/Microcode.lean ====
section
/-! SUPPORT. How the paths of Machine/Ops.lean and of the instructions follow the microsequencer's loop: each link of a path is
one tick, or one wait, of the loop. -/

namespace Sys2Proof.Machine

/-- What the loop does after a tick: stop in a fetch state, otherwise go on for at most `n` ticks. -/
def rest (n : Nat) (s : State) : Out := if isFetchState s.ustate then .next s else runToFetch n s

theorem runToFetch_succ (n : Nat) (s : State) : runToFetch (n + 1) s = andThen (tick s) (rest n) := rfl

theorem rest_of_fetch {n : Nat} {s : State} (h : isFetchState s.ustate = true) : rest n s = .next s := by simp [rest, h]

theorem rest_of_not_fetch {n : Nat} {s : State} (h : isFetchState s.ustate = false) : rest n s = runToFetch n s := by
  simp [rest, h]

theorem runToFetch_stopped {s : State} (h : s.clockOn = false) (n : Nat) : runToFetch n s = .next s := by
  induction n with
  | zero => rfl
  | succ n ih =>
    rw [runToFetch_succ, show tick s = .next s by simp [tick, systemTick, h], andThen_next, rest]
    split
    · rfl
    · exact ih

/-- A tick of the loop, by its state's micro-operation and entry. -/
theorem cpuTick_of {s : State} {e : CsEntry} {r : Micro} (he : csEntry s.ustate = some e) (hr : microOp s.ustate s = some r) :
    cpuTick s = .next (conclude r (e.next r.ready r.st)) := by simp [cpuTick, he, hr]

/-- The two kinds of answer that a path may give where the loop does not go on: it goes on as the loop does from every state
that `Q` holds of, and stops in state 18 (after an exception) and in the state `w` it came from (with the clock off). -/
theorem link_by {w : UState} {e : CsEntry} (he : csEntry w = some e) {P Q : State → Prop} {u : State → Micro}
    {kf : State → UState} {g : State → Out} {b : Nat}
    (hop : ∀ d, d.ustate = w → P d → microOp w d = some (u d))
    (hnext : ∀ d, d.ustate = w → P d → e.next (u d).ready (u d).st = kf (u d).st)
    (hP : ∀ d, P d → P (devicesTick d))
    (hQ : ∀ d, d.ustate = w → P d → (u d).exc = none → Q { (u d).st with ustate := kf (u d).st })
    (hg : ∀ t, Q t → ∀ n, b ≤ n → g t = rest n t)
    (hstop : ∀ t, t.ustate = w → g t = .next t)
    (hexc : (∀ d, d.ustate = w → P d → (u d).exc = none) ∨ ∀ t, t.ustate = 18#6 → g t = .next t) :
    ∀ s, s.ustate = w → P s → ∀ n, b + 1 ≤ n → andThen (microBy kf u s) g = runToFetch n s := by
  intro s hs hp n hn
  obtain ⟨n, rfl⟩ : ∃ m, n = m + 1 := ⟨n - 1, by omega⟩
  unfold microBy
  rcases systemTick_cases (fun s => (.next (conclude (u s) (kf (u s).st)) : Out)) s with ⟨hc, ht⟩ | ⟨hc, hb, ht⟩ | ⟨hc, hb, ht⟩
  · rw [ht, andThen_next, hstop s hs, runToFetch_stopped hc]
  · rw [ht, runToFetch_succ, show tick s = .fault .keyboardBreak by simp [tick, systemTick, hc, hb]]
    rfl
  · have hd : (devicesTick s).ustate = w := by rw [devicesTick_ustate, hs]
    have hpd := hP s hp
    rw [ht, runToFetch_succ, show tick s = cpuTick (devicesTick s) by simp [tick, systemTick, hc, hb],
      cpuTick_of (s := devicesTick s) (by rw [hd]; exact he) (by rw [hd]; exact hop _ hd hpd), hnext _ hd hpd]
    simp only [andThen_next]
    cases hx : (u (devicesTick s)).exc with
    | none =>
      have := hg _ (hQ _ hd hpd hx) n (by omega)
      simpa only [conclude, hx] using this
    | some v =>
      rcases hexc with h | h
      · rw [h _ hd hpd] at hx; cases hx
      · simp only [conclude, hx]
        rw [h _ rfl, rest_of_fetch (by rfl)]

/-- One link that is a tick. -/
theorem link_to {w k : UState} {e : CsEntry} (he : csEntry w = some e) (hwk : w ≠ k) {P Q : State → Prop} {u : State → Micro}
    {f : State → Out} {b : Nat}
    (hop : ∀ d, d.ustate = w → P d → microOp w d = some (u d))
    (hnext : ∀ d, d.ustate = w → P d → e.next (u d).ready (u d).st = k)
    (hP : ∀ d, P d → P (devicesTick d))
    (hQ : ∀ d, d.ustate = w → P d → (u d).exc = none → Q { (u d).st with ustate := k })
    (hf : ∀ t, t.ustate = k → Q t → ∀ n, b ≤ n → f t = rest n t) (hk : k ≠ 18#6) :
    ∀ s, s.ustate = w → P s → ∀ n, b + 1 ≤ n → andAt (microTo k u s) k f = runToFetch n s :=
  link_by (Q := fun t => t.ustate = k ∧ Q t) he hop hnext hP (fun d h1 h2 h3 => ⟨rfl, hQ d h1 h2 h3⟩)
    (fun t ht n hn => by simp only [ht.1, if_true]; exact hf t ht.1 ht.2 n hn)
    (fun t ht => by simp [ht, hwk]) (.inr fun t ht => by simp [ht, hk.symm])

/-- The last tick of a path. -/
theorem link_end {w : UState} {e : CsEntry} (he : csEntry w = some e) {P : State → Prop} {u : State → Micro}
    (hop : ∀ d, d.ustate = w → P d → microOp w d = some (u d))
    (hnext : ∀ d, d.ustate = w → P d → e.next (u d).ready (u d).st = 18#6)
    (hP : ∀ d, P d → P (devicesTick d)) :
    ∀ s, s.ustate = w → P s → ∀ n, 1 ≤ n → microTo 18#6 u s = runToFetch n s := by
  intro s hs hp n hn
  have h := link_by (Q := fun t => t.ustate = 18#6) (kf := fun _ => 18#6) (g := .next) (b := 0) he hop hnext hP (fun _ _ _ _ => rfl)
    (fun t ht n _ => (rest_of_fetch (by rw [ht]; rfl)).symm) (fun _ _ => rfl) (.inr fun _ _ => rfl) s hs hp n hn
  rw [← h]
  unfold microTo
  cases microBy (fun _ => 18#6) u s <;> rfl

theorem waitTicks_succ (w k : UState) (u : State → Micro) (n : Nat) (s : State) :
    waitTicks w k u (n + 1) s = andAt (waitTick w k u s) w (waitTicks w k u n) := rfl

/-- One link that is a wait: `P` holds before the memory call is started, `R` while it is outstanding, `Q` after. -/
theorem link_wait_by {w k : UState} {e : CsEntry} (he : csEntry w = some e) (hwk : w ≠ k) {P R Q : State → Prop}
    {u : State → Micro} {g : State → Out} {b D : Nat}
    (hready : ∀ r s, e.next r s = if r then k else w)
    (hop : ∀ d, d.ustate = w → microOp w d = some (u d)) (hexc : ∀ d, (u d).exc = none)
    (hP : ∀ d, P d → P (devicesTick d)) (hR : ∀ d, R d → R (devicesTick d)) (hD : ∀ d, P d → d.cfg.memDelay = D)
    (hstart : ∀ d, P d → (u d).ready = false ∧ R { (u d).st with ustate := w } ∧ (u d).st.busy = D)
    (hhold : ∀ d, R d → 0 < d.busy → u d = { st := d })
    (hdone : ∀ d, R d → d.busy = 0 → (u d).ready = true ∧ Q { (u d).st with ustate := k })
    (hg : ∀ t, t.ustate = k → Q t → ∀ n, b ≤ n → g t = rest n t)
    (hstop : ∀ t, t.ustate = w → g t = .next t) (hwf : isFetchState w = false) :
    ∀ s, s.ustate = w → P s → ∀ n, b + D + 2 ≤ n → andThen (waitFor w k u s) g = runToFetch n s := by
  have inner : ∀ j m s, 1 ≤ j → j ≤ m → s.busy ≤ j → s.ustate = w → R s → ∀ n, b + j ≤ n →
      andThen (waitTicks w k u m s) g = runToFetch n s := by
    intro j
    induction j with
    | zero => intro m s h; omega
    | succ j ih =>
      intro m s _ hm hb hs hr n hn
      obtain ⟨m, rfl⟩ : ∃ i, m = i + 1 := ⟨m - 1, by omega⟩
      obtain ⟨n, rfl⟩ : ∃ i, n = i + 1 := ⟨n - 1, by omega⟩
      rw [waitTicks_succ, waitTick, runToFetch_succ]
      rcases systemTick_cases (fun s => (.next (conclude (u s) (if (u s).ready then k else w)) : Out)) s with
        ⟨hc, ht⟩ | ⟨hc, hk, ht⟩ | ⟨hc, hk, ht⟩
      · rw [ht, show tick s = .next s by simp [tick, systemTick, hc], andThen_next, rest_of_not_fetch (by rw [hs]; exact hwf)]
        simp only [andAt_next, hs, if_true]
        rw [runToFetch_stopped hc]
        clear ht ih hn hm
        induction m with
        | zero => exact hstop s hs
        | succ m ih => simpa [waitTicks, waitTick, systemTick, hc, andAt_next, hs] using ih
      · rw [ht, show tick s = .fault .keyboardBreak by simp [tick, systemTick, hc, hk]]
        rfl
      · have hd : (devicesTick s).ustate = w := by rw [devicesTick_ustate, hs]
        have hrd := hR s hr
        rw [ht, show tick s = cpuTick (devicesTick s) by simp [tick, systemTick, hc, hk],
          cpuTick_of (s := devicesTick s) (by rw [hd]; exact he) (by rw [hd]; exact hop _ hd), hready]
        simp only [andThen_next, andAt_next, conclude, hexc]
        by_cases hb0 : (devicesTick s).busy = 0
        · obtain ⟨h1, h2⟩ := hdone _ hrd hb0
          simp only [h1, if_true, if_neg hwk.symm, andThen_next]
          exact hg _ rfl h2 n (by omega)
        · have h1 := hhold _ hrd (by omega)
          simp only [h1, Bool.false_eq_true, if_false, if_true]
          have hself : { devicesTick s with ustate := w } = devicesTick s := by rw [← hd]
          rw [hself, rest_of_not_fetch (by rw [hd]; exact hwf)]
          have hb1 := devicesTick_busy s
          exact ih m _ (by omega) (by omega) (by omega) hd hrd n (by omega)
  intro s hs hp n hn
  obtain ⟨n, rfl⟩ : ∃ i, n = i + 1 := ⟨n - 1, by omega⟩
  have hDs := hD s hp
  rw [show waitFor w k u s = waitTicks w k u (s.busy + s.cfg.memDelay + 1 + 1) s from rfl]
  rw [waitTicks_succ, waitTick, runToFetch_succ]
  rcases systemTick_cases (fun s => (.next (conclude (u s) (if (u s).ready then k else w)) : Out)) s with
    ⟨hc, ht⟩ | ⟨hc, hk, ht⟩ | ⟨hc, hk, ht⟩
  · rw [ht, show tick s = .next s by simp [tick, systemTick, hc], andThen_next, rest_of_not_fetch (by rw [hs]; exact hwf)]
    simp only [andAt_next, hs, if_true]
    rw [runToFetch_stopped hc]
    generalize s.busy + s.cfg.memDelay + 1 = m
    clear ht hn
    induction m with
    | zero => exact hstop s hs
    | succ m ih => simpa [waitTicks, waitTick, systemTick, hc, andAt_next, hs] using ih
  · rw [ht, show tick s = .fault .keyboardBreak by simp [tick, systemTick, hc, hk]]
    rfl
  · have hd : (devicesTick s).ustate = w := by rw [devicesTick_ustate, hs]
    obtain ⟨h1, h2, h3⟩ := hstart _ (hP s hp)
    rw [ht, show tick s = cpuTick (devicesTick s) by simp [tick, systemTick, hc, hk],
      cpuTick_of (s := devicesTick s) (by rw [hd]; exact he) (by rw [hd]; exact hop _ hd), hready]
    simp only [andThen_next, andAt_next, conclude, hexc, h1, Bool.false_eq_true, if_false, if_true]
    rw [rest_of_not_fetch (by exact hwf)]
    exact inner (D + 1) (s.busy + s.cfg.memDelay + 1) _ (by omega) (by omega) (by show (u (devicesTick s)).st.busy ≤ _; omega) rfl h2 n (by omega)

theorem link_wait {w k : UState} {e : CsEntry} (he : csEntry w = some e) (hwk : w ≠ k) {P R Q : State → Prop}
    {u : State → Micro} {f : State → Out} {b D : Nat}
    (hready : ∀ r s, e.next r s = if r then k else w)
    (hop : ∀ d, d.ustate = w → microOp w d = some (u d)) (hexc : ∀ d, (u d).exc = none)
    (hP : ∀ d, P d → P (devicesTick d)) (hR : ∀ d, R d → R (devicesTick d)) (hD : ∀ d, P d → d.cfg.memDelay = D)
    (hstart : ∀ d, P d → (u d).ready = false ∧ R { (u d).st with ustate := w } ∧ (u d).st.busy = D)
    (hhold : ∀ d, R d → 0 < d.busy → u d = { st := d })
    (hdone : ∀ d, R d → d.busy = 0 → (u d).ready = true ∧ Q { (u d).st with ustate := k })
    (hf : ∀ t, t.ustate = k → Q t → ∀ n, b ≤ n → f t = rest n t) (hwf : isFetchState w = false) :
    ∀ s, s.ustate = w → P s → ∀ n, b + D + 2 ≤ n → andAt (waitFor w k u s) k f = runToFetch n s :=
  link_wait_by he hwk hready hop hexc hP hR hD hstart hhold hdone (fun t ht q n hn => by simp only [ht, if_true]; exact hf t ht q n hn)
    (fun t ht => by simp [ht, hwk]) hwf

/-- A path's state between two links: IR, the parameters, and no memory operation outstanding. -/
def Between (c : Params) (w : Word) (s : State) : Prop := s.cfg = c ∧ s.ir = w ∧ s.rdEn = false ∧ s.wrEn = false

theorem Between.tick {c : Params} {w : Word} : ∀ d, Between c w d → Between c w (devicesTick d) := by
  intro d h; simpa [Between] using h

/-- A read as a link. -/
theorem link_read_by {w k : UState} {e : CsEntry} (he : csEntry w = some e) (hwk : w ≠ k) {c : Params} {ir : Word}
    {g : State → Out} {b : Nat} (hready : ∀ r s, e.next r s = if r then k else w)
    (hop : ∀ d, d.ustate = w → microOp w d = some (uRead d)) (hwf : isFetchState w = false)
    (hg : ∀ t, t.ustate = k → Between c ir t → ∀ n, b ≤ n → g t = rest n t) (hstop : ∀ t, t.ustate = w → g t = .next t) :
    ∀ s, s.ustate = w → Between c ir s → ∀ n, b + c.memDelay + 2 ≤ n → andThen (waitFor w k uRead s) g = runToFetch n s := by
  refine link_wait_by (P := Between c ir) (R := fun d => d.cfg = c ∧ d.ir = ir ∧ d.rdEn = true ∧ d.wrEn = false) he hwk hready hop
    ?_ Between.tick (fun d h => by simpa using h) (fun d h => by rw [h.1]) ?_ ?_ ?_ hg hstop hwf
  · intro d; unfold uRead memRead
    cases d.rdEn <;> simp; split <;> simp
  · rintro d ⟨h1, h2, h3, h4⟩
    simp [uRead, memRead, h1, h2, h3, h4]
  · rintro d ⟨h1, h2, h3, h4⟩ hb
    simp [uRead, memRead, h3, hb]
  · rintro d ⟨h1, h2, h3, h4⟩ hb
    simp [uRead, memRead, h3, hb, Between, h1, h2, h4]

theorem link_read {w k : UState} {e : CsEntry} (he : csEntry w = some e) (hwk : w ≠ k) {c : Params} {ir : Word}
    {f : State → Out} {b : Nat} (hready : ∀ r s, e.next r s = if r then k else w)
    (hop : ∀ d, d.ustate = w → microOp w d = some (uRead d)) (hwf : isFetchState w = false)
    (hf : ∀ t, t.ustate = k → Between c ir t → ∀ n, b ≤ n → f t = rest n t) :
    ∀ s, s.ustate = w → Between c ir s → ∀ n, b + c.memDelay + 2 ≤ n → andAt (waitFor w k uRead s) k f = runToFetch n s :=
  link_read_by he hwk hready hop hwf (fun t ht q n hn => by simp only [ht, if_true]; exact hf t ht q n hn)
    (fun t ht => by simp [ht, hwk])

/-- A write as a link. -/
theorem link_write {w k : UState} {e : CsEntry} (he : csEntry w = some e) (hwk : w ≠ k) {c : Params} {ir : Word}
    {f : State → Out} {b : Nat} (m : Word → Word) (hready : ∀ r s, e.next r s = if r then k else w)
    (hop : ∀ d, d.ustate = w → microOp w d = some (uWriteMasked m d)) (hwf : isFetchState w = false)
    (hf : ∀ t, t.ustate = k → Between c ir t → ∀ n, b ≤ n → f t = rest n t) :
    ∀ s, s.ustate = w → Between c ir s → ∀ n, b + c.memDelay + 2 ≤ n →
      andAt (waitFor w k (uWriteMasked m) s) k f = runToFetch n s := by
  refine link_wait (P := Between c ir) (R := fun d => d.cfg = c ∧ d.ir = ir ∧ d.rdEn = false ∧ d.wrEn = true) he hwk hready hop
    ?_ Between.tick (fun d h => by simpa using h) (fun d h => by rw [h.1]) ?_ ?_ ?_ hf hwf
  · intro d; rfl
  · rintro d ⟨h1, h2, h3, h4⟩
    simp [uWriteMasked, memWrite, h1, h2, h3, h4]
  · rintro d ⟨h1, h2, h3, h4⟩ hb
    simp [uWriteMasked, memWrite, h4, hb]
  · rintro d ⟨h1, h2, h3, h4⟩ hb
    simp [uWriteMasked, memWrite, h4, hb, Between, h1, h2, h3]


/-- One link with no exception, on a path of an instruction. -/
theorem path_to {w k : UState} {c : Params} {ir : Word} {u : State → Micro} {f : State → Out} {b : Nat}
    (he : csEntry w = some ⟨false, none, k⟩) (hwk : w ≠ k) (hk : k ≠ 18#6)
    (hop : ∀ d, d.ustate = w → d.ir = ir → microOp w d = some (u d))
    (hu : ∀ d, Between c ir d → Between c ir (u d).st)
    (hf : ∀ t, t.ustate = k → Between c ir t → ∀ n, b ≤ n → f t = rest n t) :
    ∀ s, s.ustate = w → Between c ir s → ∀ n, b + 1 ≤ n → andAt (microTo k u s) k f = runToFetch n s :=
  link_to he hwk (fun d h1 h2 => hop d h1 h2.2.1) (fun _ _ _ => rfl) Between.tick (fun d _ h _ => hu d h) hf hk

theorem path_end {w : UState} {c : Params} {ir : Word} {u : State → Micro} (he : csEntry w = some ⟨false, none, 18#6⟩)
    (hop : ∀ d, d.ustate = w → d.ir = ir → microOp w d = some (u d)) :
    ∀ s, s.ustate = w → Between c ir s → ∀ n, 1 ≤ n → microTo 18#6 u s = runToFetch n s :=
  link_end he (fun d h1 h2 => hop d h1 h2.2.1) (fun _ _ _ => rfl) Between.tick

theorem go_on {k : UState} {P : State → Prop} {f : State → Out} {b : Nat} (hk : isFetchState k = false)
    (h : ∀ s, s.ustate = k → P s → ∀ n, b ≤ n → f s = runToFetch n s) :
    ∀ t, t.ustate = k → P t → ∀ n, b ≤ n → f t = rest n t := fun t h1 h2 n hn => by
  rw [rest_of_not_fetch (by rw [h1]; exact hk)]; exact h t h1 h2 n hn

theorem andAt_id (o : Out) (k : UState) : andAt o k .next = o := by
  cases o with
  | next s => simp [andAt_next]
  | fault r => rfl
  | refused r => rfl

theorem load_end {dr : Reg} {c : Params} {ir : Word} (hd : dr = Word.dr ir) :
   ∀ s, s.ustate = 25#6 → Between c ir s → ∀ n, 1 + c.memDelay + 2 ≤ n →
   andAt (waitFor 25#6 27#6 uRead s) 27#6 (fun s => microTo 18#6 (uLoadWord dr) s) = runToFetch n s := by
  subst hd
  exact link_read (by rfl) (by decide) (fun r s => by cases r <;> rfl) (fun d _ => rfl) rfl
    (go_on rfl (path_end (by rfl) (fun d _ h => by simp [microOp, h])))

theorem store_end {sr : Reg} {c : Params} {ir : Word} (hd : sr = Word.dr ir) :
   ∀ s, s.ustate = 23#6 → Between c ir s → ∀ n, 0 + c.memDelay + 2 + 1 ≤ n →
   andAt (microTo 16#6 (uStoreData sr) s) 16#6 (fun s => waitFor 16#6 18#6 uWriteWord s) = runToFetch n s := by
  subst hd
  refine path_to (by rfl) (by decide) (by decide) (fun d _ h => by simp [microOp, h]) (fun d h => h) (go_on rfl ?_)
  intro s hs hb n hn
  rw [← andAt_id (waitFor _ _ _ _) 18#6, uWriteWord_eq]
  exact link_write (by rfl) (by decide) (fun _ => 0xFFFF#16) (fun r s => by cases r <;> rfl) (fun d _ => rfl) rfl
    (b := 0) (fun t ht _ n _ => (rest_of_fetch (by rw [ht]; rfl)).symm) s hs hb n hn

theorem rti_pops_follow {c : Params} {ir : Word} : ∀ s, s.ustate = 36#6 → Between c ir s → ∀ n, 2 * c.memDelay + 9 ≤ n →
    returnPops s = runToFetch n s := by
  intro s hs hb n hn
  refine link_read (b := c.memDelay + 7) (by rfl) (by decide) (fun r s => by cases r <;> rfl) (fun d _ => rfl) rfl
    (go_on rfl (path_to (b := c.memDelay + 6) (by rfl) (by decide) (by decide) (fun d _ h => by simp [microOp]) (fun d h => h)
    (go_on rfl (path_to (b := c.memDelay + 5) (by rfl) (by decide) (by decide) (fun d _ h => by simp [microOp]) (fun d h => h)
    (go_on rfl (fun s hs hb n hn => link_read (b := 3) (by rfl) (by decide) (fun r s => by cases r <;> rfl) (fun d _ => rfl) rfl
    (go_on rfl (path_to (by rfl) (by decide) (by decide) (fun d _ h => by simp [microOp]) (fun d h => h)
    (go_on rfl ?_))) s hs hb n (by omega)))))))
    s hs hb n (by omega)
  intro s hs hb n hn
  refine link_by (e := ⟨false, some .privilege, 51#6⟩) (P := Between c ir) (b := 1)
    (Q := fun t => (t.ustate = 59#6 ∨ t.ustate = 51#6) ∧ Between c ir t) (by rfl)
    (fun d hd _ => by simp [microOp]) (fun d hd h => ?_) Between.tick (fun d hd h _ => ⟨?_, h⟩) ?_ ?_ (.inl fun _ _ _ => rfl) s hs hb n hn
  · by_cases hp : d.psr.priv = .user <;> simp [CsEntry.next, signal, Cond.mask, uPopEnd, hp]
  · simp only; split <;> simp
  · rintro t ⟨h | h, hb⟩ n hn
    · simp only [h, if_true]
      rw [rest_of_not_fetch (by rw [h]; rfl)]
      exact path_end (by rfl) (fun d _ h => by simp [microOp]) t h hb n hn
    · simp only [h, if_true]
      rw [rest_of_not_fetch (by rw [h]; rfl)]
      exact path_end (by rfl) (fun d _ h => by simp [microOp]) t h hb n hn
  · intro t h; simp [h]

theorem exec_follows {c : Params} {ir : Word} {s : State} (hb : Between c ir s)
    (hk : s.ustate = BitVec.ofNat 6 (Word.opcode ir).toNat)
    (hben : s.ben = branchEnable (ir.getLsbD 11) (ir.getLsbD 10) (ir.getLsbD 9) s.psr) :
    ∀ n, 2 * c.memDelay + 10 ≤ n → exec (decodeWord ir) s = runToFetch n s := by
  intro n hn
  have hlt := (Word.opcode ir).isLt
  have hop : ∀ q, (Word.opcode ir).toNat = q → True := fun _ _ => trivial
  unfold decodeWord
  generalize (Word.opcode ir).toNat = q at *
  interval_cases q
  · simp only
    have hs : { s with ben := branchEnable (ir.getLsbD 11) (ir.getLsbD 10) (ir.getLsbD 9) s.psr } = s := by rw [← hben]
    rw [exec, execBr, hs]
    refine link_by (e := ⟨false, some .branchTaken, 18#6⟩) (P := Between c ir) (b := 1)
      (Q := fun t => (t.ustate = 22#6 ∨ t.ustate = 18#6) ∧ Between c ir t) (by rfl)
      (fun d hd _ => by simp [microOp]) (fun d hd h => ?_) Between.tick (fun d hd h _ => ⟨?_, h⟩) ?_ ?_ (.inl fun _ _ _ => rfl)
      s hk hb n (by omega)
    · by_cases hp : d.ben = true <;> simp [CsEntry.next, signal, Cond.mask, uNone, hp]
    · simp only; split <;> simp
    · rintro t ⟨h | h, hb⟩ n hn
      · simp only [h, if_true]
        rw [rest_of_not_fetch (by rw [h]; rfl)]
        exact path_end (by rfl) (fun d _ h => by simp [microOp, h]) t h hb n hn
      · rw [rest_of_fetch (by rw [h]; rfl), if_neg (by rw [h]; decide)]
    · intro t h; simp [h]
  · simp only
    split <;> rename_i h5
    · exact path_end (by rfl) (fun d _ h => by show some (uAdd _ _ (irOperand2 d.ir) d) = _; rw [h, irOperand2, if_pos h5]) s hk hb n (by omega)
    · exact path_end (by rfl) (fun d _ h => by show some (uAdd _ _ (irOperand2 d.ir) d) = _; rw [h, irOperand2, if_neg h5]) s hk hb n (by omega)
  · exact path_to (by rfl) (by decide) (by decide) (fun d _ h => by simp [microOp, h]) (fun d h => h)
      (go_on rfl (link_read (by rfl) (by decide) (fun r s => by cases r <;> rfl) (fun d _ => rfl) rfl
        (go_on rfl (path_end (by rfl) (fun d _ h => by simp [microOp, h]))))) s hk hb n (by omega)
  · refine path_to (by rfl) (by decide) (by decide) (fun d _ h => by simp [microOp, h]) (fun d h => h) (go_on rfl
      (path_to (b := 0 + c.memDelay + 2) (by rfl) (by decide) (by decide) (fun d _ h => by simp [microOp, h]) (fun d h => h) (go_on rfl ?_)))
      s hk hb n (by omega)
    intro s hs hb n hn
    rw [← andAt_id (waitFor _ _ _ _) 19#6, uWriteByte_eq]
    exact link_write (by rfl) (by decide) laneMask (fun r s => by cases r <;> rfl) (fun d _ => rfl) rfl
      (b := 0) (fun t ht _ n _ => (rest_of_fetch (by rw [ht]; rfl)).symm) s hs hb n hn
  · simp only
    split <;> rename_i h5
    · exact link_to (b := 1) (e := ⟨false, some .addrMode, 20#6⟩) (by rfl) (by decide) (fun d _ _ => by simp [microOp])
        (fun d _ h => by
          simp only [CsEntry.next, signal, uNone, h.2.1, h5, if_true, Bool.false_eq_true, if_false]; rfl)
        Between.tick (fun d _ h _ => h) (go_on rfl (path_end (by rfl) (fun d _ h => by simp [microOp, h]))) (by decide)
        s hk hb n (by omega)
    · exact link_to (b := 1) (e := ⟨false, some .addrMode, 20#6⟩) (by rfl) (by decide) (fun d _ _ => by simp [microOp])
        (fun d _ h => by
          simp only [CsEntry.next, signal, uNone, h.2.1, if_neg h5, Bool.false_eq_true, if_false])
        Between.tick (fun d _ h _ => h) (go_on rfl (path_end (by rfl) (fun d _ h => by simp [microOp, h]))) (by decide)
        s hk hb n (by omega)
  · simp only
    split <;> rename_i h5
    · exact path_end (by rfl) (fun d _ h => by show some (uAnd _ _ (irOperand2 d.ir) d) = _; rw [h, irOperand2, if_pos h5]) s hk hb n (by omega)
    · exact path_end (by rfl) (fun d _ h => by show some (uAnd _ _ (irOperand2 d.ir) d) = _; rw [h, irOperand2, if_neg h5]) s hk hb n (by omega)
  · exact path_to (by rfl) (by decide) (by decide) (fun d _ h => by simp [microOp, h]) (fun d h => by rw [uWordAddress_shape]; exact h)
      (go_on rfl (load_end rfl)) s hk hb n (by omega)
  · exact path_to (by rfl) (by decide) (by decide) (fun d _ h => by simp [microOp, h]) (fun d h => by rw [uWordAddress_shape]; exact h)
      (go_on rfl (store_end rfl)) s hk hb n (by omega)
  · simp only
    rw [exec, execRti, returnFromException]
    refine link_by (e := ⟨false, some .privilege, 36#6⟩) (P := Between c ir) (b := 2 * c.memDelay + 9)
      (Q := fun t => (t.ustate = 44#6 ∨ t.ustate = 36#6) ∧ Between c ir t) (by rfl)
      (fun d hd _ => by simp [microOp]) (fun d hd h => ?_) Between.tick (fun d hd h _ => ⟨?_, h⟩) ?_ ?_ (.inl fun _ _ _ => rfl)
      s hk hb n (by omega)
    · by_cases hp : d.psr.priv = .user <;> simp [CsEntry.next, signal, Cond.mask, uRtiEntry, hp]
    · simp only; split <;> simp
    · rintro t ⟨h | h, hb⟩ n hn
      · simp only [h, if_true]
        rw [rest_of_not_fetch (by rw [h]; rfl)]
        exact path_end (by rfl) (fun d _ h => by simp [microOp]) t h hb n (by omega)
      · rw [rest_of_not_fetch (by rw [h]; rfl), if_neg (by rw [h]; decide), if_pos h]
        exact rti_pops_follow t h hb n hn
    · intro t h; simp [h]
  · simp only
    split <;> rename_i h5
    · exact path_end (by rfl) (fun d _ h => by show some (uXor _ _ (irOperand2 d.ir) d) = _; rw [h, irOperand2, if_pos h5]) s hk hb n (by omega)
    · exact path_end (by rfl) (fun d _ h => by show some (uXor _ _ (irOperand2 d.ir) d) = _; rw [h, irOperand2, if_neg h5]) s hk hb n (by omega)
  · exact path_to (by rfl) (by decide) (by decide) (fun d _ h => by simp [microOp, h]) (fun d h => by rw [uWordAddress_shape]; exact h)
      (go_on rfl (link_read (by rfl) (by decide) (fun r s => by cases r <;> rfl) (fun d _ => rfl) rfl
        (go_on rfl (path_to (by rfl) (by decide) (by decide) (fun d _ h => by simp [microOp]) (fun d h => by rw [uDereference_shape]; exact h)
          (go_on rfl (load_end rfl)))))) s hk hb n (by omega)
  · exact path_to (by rfl) (by decide) (by decide) (fun d _ h => by simp [microOp, h]) (fun d h => by rw [uWordAddress_shape]; exact h)
      (go_on rfl (link_read (by rfl) (by decide) (fun r s => by cases r <;> rfl) (fun d _ => rfl) rfl
        (go_on rfl (path_to (by rfl) (by decide) (by decide) (fun d _ h => by simp [microOp]) (fun d h => by rw [uDereference_shape]; exact h)
          (go_on rfl (store_end rfl)))))) s hk hb n (by omega)
  · exact path_end (by rfl) (fun d _ h => by simp [microOp, h]) s hk hb n (by omega)
  · simp only
    split <;> rename_i h4
    · split <;> rename_i h5
      · exact path_end (by rfl) (fun d _ h => by show some (uShift (shiftKindOf _ _) _ _ _ d) = _; rw [h, h4, h5]; rfl) s hk hb n (by omega)
      · exact path_end (by rfl) (fun d _ h => by show some (uShift (shiftKindOf _ _) _ _ _ d) = _; rw [h, h4, (by simpa using h5 : BitVec.getLsbD ir 5 = false)]; rfl) s hk hb n (by omega)
    · exact path_end (by rfl) (fun d _ h => by show some (uShift (shiftKindOf _ _) _ _ _ d) = _; rw [h, (by simpa using h4 : BitVec.getLsbD ir 4 = false)]; rfl) s hk hb n (by omega)
  · exact path_end (by rfl) (fun d _ h => by simp [microOp, h]) s hk hb n (by omega)
  · exact path_to (by rfl) (by decide) (by decide) (fun d _ h => by simp [microOp, h]) (fun d h => h)
      (go_on rfl (link_read (by rfl) (by decide) (fun r s => by cases r <;> rfl) (fun d _ => rfl) rfl
        (go_on rfl (path_end (by rfl) (fun d _ h => by simp [microOp]))))) s hk hb n (by omega)


theorem service_pushes_follow {c : Params} {ir : Word} : ∀ s, s.ustate = 37#6 → Between c ir s → ∀ n, 3 * c.memDelay + 11 ≤ n →
    servicePushes s = runToFetch n s := by
  have h54 := path_end (w := 54#6) (c := c) (ir := ir) (u := uServiceJump) (by rfl) (fun d _ h => by simp [microOp])
  have h52 := link_read (w := 52#6) (k := 54#6) (c := c) (ir := ir) (by rfl) (by decide) (fun r s => by cases r <;> rfl)
    (fun d _ => rfl) rfl (go_on rfl h54)
  have h50 := path_to (w := 50#6) (c := c) (ir := ir) (u := uServiceMode) (by rfl) (by decide) (by decide)
    (fun d _ h => by simp [microOp]) (fun d h => h) (go_on rfl h52)
  have h48 := link_write (w := 48#6) (k := 50#6) (c := c) (ir := ir) (by rfl) (by decide) (fun _ => 0xFFFF#16)
    (fun r s => by cases r <;> rfl) (fun d _ => rfl) rfl (go_on rfl h50)
  have h47 := path_to (w := 47#6) (c := c) (ir := ir) (u := uPushAddress) (by rfl) (by decide) (by decide)
    (fun d _ h => by simp [microOp]) (fun d h => h) (go_on rfl h48)
  have h43 := path_to (w := 43#6) (c := c) (ir := ir) (u := uMdrPc) (by rfl) (by decide) (by decide)
    (fun d _ h => by simp [microOp]) (fun d h => h) (go_on rfl h47)
  have h41 := link_write (w := 41#6) (k := 43#6) (c := c) (ir := ir) (by rfl) (by decide) (fun _ => 0xFFFF#16)
    (fun r s => by cases r <;> rfl) (fun d _ => rfl) rfl (go_on rfl h43)
  have h37 := path_to (w := 37#6) (c := c) (ir := ir) (u := uPushAddress) (by rfl) (by decide) (by decide)
    (fun d _ h => by simp [microOp]) (fun d h => h) (go_on rfl h41)
  exact fun s hs hb n hn => h37 s hs hb n (by omega)

theorem takeException_follows {c : Params} {ir : Word} : ∀ s, s.ustate = 49#6 → Between c ir s → ∀ n, 3 * c.memDelay + 13 ≤ n →
    takeException s = runToFetch n s := by
  intro s hs hb n hn
  unfold takeException
  refine link_by (e := ⟨false, some .privilege, 37#6⟩) (P := Between c ir) (b := 3 * c.memDelay + 12)
    (Q := fun t => (t.ustate = 45#6 ∨ t.ustate = 37#6) ∧ Between c ir t) (by rfl)
    (fun d hd _ => by simp [microOp]) (fun d hd h => ?_) Between.tick (fun d hd h _ => ⟨?_, h⟩) ?_ ?_ (.inl fun _ _ _ => rfl) s hs hb n hn
  · by_cases hp : d.psr.priv = .user <;> simp [CsEntry.next, signal, Cond.mask, uServiceEntry, hp]
  · simp only; split <;> simp
  · rintro t ⟨h | h, hb⟩ n hn
    · simp only [h, if_true]
      rw [rest_of_not_fetch (by rw [h]; rfl)]
      exact path_to (by rfl) (by decide) (by decide) (fun d _ h => by simp [microOp]) (fun d h => h)
        (go_on rfl service_pushes_follow) t h hb n (by omega)
    · rw [rest_of_not_fetch (by rw [h]; rfl), if_neg (by rw [h]; decide), if_pos h]
      exact service_pushes_follow t h hb n (by omega)
  · intro t h; simp [h]

theorem andThen_assoc (o : Out) (f g : State → Out) : andThen (andThen o f) g = andThen o (fun t => andThen (f t) g) := by
  cases o <;> rfl

theorem andThen_andAt (o : Out) (k : UState) (f g : State → Out) :
    andThen (andAt o k f) g = andThen o (fun t => if t.ustate = k then andThen (f t) g else g t) := by
  rw [andAt, andThen_assoc]
  congr 1
  funext t
  split <;> rfl

/-- What a step does after fetch and decode. -/
def afterDecode (s : State) : Out :=
  if isEntryState s.ustate then exec (decodeWord s.ir) s
  else if s.ustate = 49#6 then takeException s
  else .next s

theorem afterDecode_stop {t : State} (h1 : isEntryState t.ustate = false) (h2 : t.ustate ≠ 49#6) : afterDecode t = .next t := by
  simp [afterDecode, h1, h2]

theorem entry_follows {c : Params} (t : State) (hk : t.ustate = (Word.opcode t.ir).setWidth 6)
    (hben : t.ben = branchEnable (t.ir.getLsbD 11) (t.ir.getLsbD 10) (t.ir.getLsbD 9) t.psr) (hb : Between c t.ir t)
    (n : Nat) (hn : 2 * c.memDelay + 10 ≤ n) : afterDecode t = rest n t := by
  have hk' : t.ustate = BitVec.ofNat 6 (Word.opcode t.ir).toNat := by
    rw [hk]; apply BitVec.eq_of_toNat_eq; simp
  have e : t.ustate.toNat = (Word.opcode t.ir).toNat := by
    have := (Word.opcode t.ir).isLt; rw [hk', BitVec.toNat_ofNat]; omega
  have h16 := (Word.opcode t.ir).isLt
  have hf : isFetchState t.ustate = false := by
    have h : ∀ k : UState, k.toNat < 16 → isFetchState k = false := by decide
    exact h _ (by omega)
  rw [rest_of_not_fetch hf, afterDecode, if_pos (by simp [isEntryState]; omega)]
  exact exec_follows hb hk' hben n hn

theorem fetch_follows {c : Params} (s : State) (hs : isFetchState s.ustate = true) (hb : Between c s.ir s) (n : Nat)
    (hn : 3 * c.memDelay + 15 ≤ n) : andThen (fetchDecode s) afterDecode = runToFetch n s := by
  have P0 : ∀ d, Between c d.ir d → Between c (devicesTick d).ir (devicesTick d) := fun d h => by simpa [Between] using h
  have h32 : ∀ t, t.ustate = 32#6 → Between c t.ir t → ∀ n, 2 * c.memDelay + 11 ≤ n →
      andThen (microBy (fun s => (Word.opcode s.ir).setWidth 6) uDecode t) afterDecode = runToFetch n t := by
    refine link_by (e := ⟨true, none, 0#6⟩) (P := fun t => Between c t.ir t) (b := 2 * c.memDelay + 10)
      (Q := fun t => (t.ustate = (Word.opcode t.ir).setWidth 6 ∧ t.ben = branchEnable (t.ir.getLsbD 11) (t.ir.getLsbD 10) (t.ir.getLsbD 9) t.psr)
         ∧ Between c t.ir t) (by rfl)
      (fun d hd _ => by simp [microOp]) (fun d hd h => rfl) P0 (fun d hd h _ => ⟨⟨rfl, rfl⟩, h⟩)
      (fun t h n hn => entry_follows t h.1.1 h.1.2 h.2 n hn) (fun t h => afterDecode_stop (by rw [h]; rfl) (by rw [h]; decide))
      (.inl fun _ _ _ => rfl)
  have h35 : ∀ t, t.ustate = 35#6 → Between c t.ir t → ∀ n, 2 * c.memDelay + 12 ≤ n →
      andThen (andAt (microTo 32#6 uLatchIr t) 32#6 (microBy (fun s => (Word.opcode s.ir).setWidth 6) uDecode)) afterDecode = runToFetch n t := by
    intro t ht hb n hn
    rw [andThen_andAt]
    refine link_by (u := uLatchIr) (kf := fun _ => 32#6) (e := ⟨false, none, 32#6⟩) (P := fun t => Between c t.ir t) (b := 2 * c.memDelay + 11)
      (Q := fun t => t.ustate = 32#6 ∧ Between c t.ir t) (by rfl)
      (fun d hd _ => by simp [microOp]) (fun d hd h => rfl) P0 (fun d hd h _ => ⟨rfl, h.1, rfl, h.2.2.1, h.2.2.2⟩)
      ?_ ?_ (.inl fun _ _ _ => rfl) t ht hb n hn
    · intro t h n hn
      simp only [h.1, if_true]
      rw [rest_of_not_fetch (by rw [h.1]; rfl)]
      exact h32 t h.1 h.2 n hn
    · intro t h
      simp only [h]
      exact afterDecode_stop (by rw [h]; rfl) (by rw [h]; decide)
  have h33 : ∀ t, t.ustate = 33#6 → Between c t.ir t → ∀ n, 3 * c.memDelay + 14 ≤ n →
      andThen (andAt (waitFor 33#6 35#6 uRead t) 35#6 fun s => andAt (microTo 32#6 uLatchIr s) 32#6 (microBy (fun s => (Word.opcode s.ir).setWidth 6) uDecode)) afterDecode = runToFetch n t := by
    intro t ht hb n hn
    rw [andThen_andAt]
    refine link_read_by (b := 2 * c.memDelay + 12) (by rfl) (by decide) (fun r s => by cases r <;> rfl) (fun d _ => rfl) rfl ?_ ?_ t ht hb n (by omega)
    · intro u hu h n hn
      simp only [hu, if_true]
      rw [rest_of_not_fetch (by rw [hu]; rfl)]
      exact h35 u hu (by rw [h.2.1]; exact h) n hn
    · intro u h
      simp only [h]
      exact afterDecode_stop (by rw [h]; rfl) (by rw [h]; decide)
  unfold fetchDecode
  rw [andThen_andAt]
  obtain ⟨e, he, hne, hop⟩ : ∃ e, csEntry s.ustate = some e ∧ (∀ (d : State), e.next false d = if d.intf then 49#6 else 33#6)
      ∧ ∀ d, microOp s.ustate d = some (uFetch d) := by
    have : s.ustate = 18#6 ∨ s.ustate = 19#6 := by simpa [isFetchState] using hs
    rcases this with h | h <;> rw [h] <;> exact ⟨⟨false, some .interruptPending, 33#6⟩, rfl, fun d => by cases hi : d.intf <;> simp [CsEntry.next, signal, Cond.mask, hi], fun d => by simp [microOp]⟩
  have hne49 : s.ustate ≠ 49#6 ∧ s.ustate ≠ 33#6 ∧ isEntryState s.ustate = false := by
    have h : ∀ k : UState, isFetchState k = true → k ≠ 49#6 ∧ k ≠ 33#6 ∧ isEntryState k = false := by decide
    exact h _ hs
  refine link_by (u := uFetch) (kf := fun s => if s.intf then 49#6 else 33#6) (P := fun t => Between c t.ir t) (b := 3 * c.memDelay + 14)
    (Q := fun t => (t.ustate = 49#6 ∨ t.ustate = 33#6) ∧ Between c t.ir t) he
    (fun d hd _ => hop d) (fun d hd h => hne (uFetch d).st) P0 (fun d hd h _ => ⟨?_, h⟩) ?_ ?_ (.inl fun _ _ _ => rfl) s rfl hb n hn
  · simp only; split <;> simp
  · rintro t ⟨h | h, hb⟩ n hn
    · rw [if_neg (by rw [h]; decide), rest_of_not_fetch (by rw [h]; rfl), afterDecode, if_neg (by rw [h]; decide), if_pos h]
      exact takeException_follows t h hb n (by omega)
    · rw [if_pos h, rest_of_not_fetch (by rw [h]; rfl)]
      exact h33 t h hb n hn
  · intro t h
    rw [if_neg (by rw [h]; exact hne49.2.1)]
    exact afterDecode_stop (by rw [h]; exact hne49.2.2) (by rw [h]; exact hne49.1)

/-! ## A step that serves an event -/

/-- A step that serves an event comes to state 37, the supervisor stack taken: the rest is `servicePushes`. -/
theorem step_serves {s : State} (h : s.serves = true) :
    step s = servicePushes { (devicesTicks (if s.psr.priv = .user then 3 else 2) s).withCpu s with
      regs := s.regs.set .r6 s.serviceStack, usp := if s.psr.priv = .user then s.regs.get .r6 else s.usp,
      mar := s.pc, mdr := s.psr.word, ustate := 37#6, busy := s.busy - (if s.psr.priv = .user then 3 else 2) } := by
  simp only [State.serves, State.atFetch, Bool.and_eq_true] at h
  obtain ⟨⟨⟨hr, -⟩, hf⟩, hi⟩ := h
  have hn : isEntryState 49#6 = false := by decide
  have hp : s.pc + 2#16 - 2#16 = s.pc := by bv_omega
  simp only [step, hf, if_true, fetchDecode, microBy_runs hr, uFetch, conclude_none, andAt_next, hi]
  rw [if_neg (by decide : ¬ (49#6 = 33#6))]
  simp only [andThen_next, hn, Bool.false_eq_true, if_false, if_true, takeException]
  rw [microBy_over (d := devicesTick s) (by exact ⟨by simp only [State.withCpu, hi], .inr hi⟩) (devicesTick_runs hr)]
  have L := devicesTick_latch hi
  simp only [uServiceEntry, State.withCpu, conclude_none, andThen_next, devicesTick_psr, devicesTick_pc, hp]
  cases hu : s.psr.priv with
  | user =>
    simp only [if_true]
    rw [microTo_over (d := devicesTick (devicesTick s)) (by exact ⟨rfl, .inr L.1⟩) (devicesTick_runs (devicesTick_runs hr))]
    simp only [uToSupervisorStack, State.withCpu, conclude_none, andAt_next, if_true]
    have hS : s.serviceStack = s.ssp := by simp [State.serviceStack, hu]
    refine congrArg servicePushes ?_
    apply State.ext_fields <;> simp [devicesTicks, hS]
    omega
  | supervisor =>
    have hS : s.serviceStack = s.regs.get .r6 := by simp [State.serviceStack, hu]
    simp only [reduceCtorEq, if_false]
    rw [if_neg (by decide : ¬ (37#6 = 45#6))]
    simp only [if_true]
    refine congrArg servicePushes ?_
    apply State.ext_fields <;> simp [devicesTicks, hS]
    omega

end Sys2Proof.Machine
end

