-- ==== Sys2Proof/Laws/Invariants.lean ====
section
/-! SUPPORT. That each operation outside the sequencer keeps the invariant of the data: memory, the interrupt controller's
registers, the display's counter (10_state.md R27 to R30). -/

namespace Sys2Proof.Machine

/-- The data invariant by its parts. -/
theorem dataInv_iff (s : State) : s.dataInv = true ↔ Memory.wf s.mem = true ∧ s.pic.irr &&& s.pic.isr = 0#8
    ∧ (if s.dsp.ready then s.dsp.settle = 0 else 1 ≤ s.dsp.settle ∧ s.dsp.settle ≤ s.cfg.dspDelay) ∧ s.cfg.wellFormed = true := by
  unfold State.dataInv
  cases s.dsp.ready <;> simp [and_assoc]

/-- Only these parts matter to it. -/
theorem dataInv_congr {s t : State} (h1 : t.mem = s.mem) (h2 : t.pic = s.pic) (h3 : t.dsp = s.dsp) (h4 : t.cfg = s.cfg) :
    t.dataInv = s.dataInv := by simp [State.dataInv, h1, h2, h3, h4]

theorem Params.dspDelay_pos {c : Params} (h : c.wellFormed = true) : 1 ≤ c.dspDelay := by
  simp only [Params.wellFormed, Bool.and_eq_true, decide_eq_true_eq] at h; exact h.1.1.2

theorem Pic.raise_disjoint {c : Pic} (h : c.irr &&& c.isr = 0#8) (l : Line) : (c.raise l).irr &&& (c.raise l).isr = 0#8 := by
  unfold Pic.raise
  split
  · exact h
  · rename_i hn
    simp only [hasLine, Bool.or_eq_true, not_or, Bool.not_eq_true] at hn
    obtain ⟨irr, isr, imr, cmd⟩ := c
    simp only [lineBit] at *
    have e : ∀ (l : Line) (b : BitVec 8), b.getLsbD l.toNat = false → (1#8 <<< l.toNat) &&& b = 0#8 := by decide +kernel
    have h2 := e l isr hn.2
    generalize 1#8 <<< l.toNat = k at h2
    rw [← BitVec.or_zero (x := 0#8), ← h]
    have g : ∀ a b d : BitVec 8, b &&& d = 0#8 → (a ||| b) &&& d = a &&& d ||| 0#8 := by
      intro a b d hb
      rw [← hb]
      ext i hi
      simp only [BitVec.getElem_and, BitVec.getElem_or]
      cases a[i] <;> cases b[i] <;> cases d[i] <;> rfl
    rw [g irr k isr h2, h]

/-- A dispatch moves a line from IRR to ISR. -/
theorem Pic.tick_disjoint {c : Pic} (h : c.irr &&& c.isr = 0#8) (pending : Bool) (prio : Line) :
    (c.tick pending prio).1.irr &&& (c.tick pending prio).1.isr = 0#8 := by
  unfold Pic.tick
  split
  · simp only [Pic.dispatch]
    generalize lineBit _ = k
    obtain ⟨irr, isr, imr, cmd⟩ := c
    simp only at *
    have g : ∀ a b k : BitVec 8, (a &&& ~~~k) &&& (b ||| k) = (a &&& b) &&& ~~~k := by
      intro a b k
      ext i hi
      simp only [BitVec.getElem_and, BitVec.getElem_or, BitVec.getElem_not]
      cases a[i] <;> cases b[i] <;> cases k[i] <;> rfl
    rw [g, h]; simp
  · exact h

theorem Pic.finish_disjoint {c : Pic} (h : c.irr &&& c.isr = 0#8) (l : Line) : (c.finish l).irr &&& (c.finish l).isr = 0#8 := by
  simp only [Pic.finish]
  rw [← BitVec.and_assoc, h]; simp

/-- The ticks of everything but the CPU keep the data invariant. -/
theorem devicesTick_dataInv {s : State} (h : s.dataInv = true) : (devicesTick s).dataInv = true := by
  rw [dataInv_iff] at *
  obtain ⟨h1, h2, h3, h4⟩ := h
  refine ⟨by simpa using h1, ?_, ?_, by simpa using h4⟩
  · simp only [devicesTick, picTick]
    have k : (kbdTick (memTick s)).pic.irr &&& (kbdTick (memTick s)).pic.isr = 0#8 := by
      simp only [kbdTick]
      have e : (kbdLatch (memTick s)).pic = s.pic := by simp only [kbdLatch, memTick]; split <;> rfl
      split
      · simp only [e]; exact Pic.raise_disjoint h2 _
      · rw [e]; exact h2
    have d : (dspTick (kbdTick (memTick s))).pic.irr &&& (dspTick (kbdTick (memTick s))).pic.isr = 0#8 := by
      generalize kbdTick (memTick s) = u at k
      simp only [dspTick]
      have e : (dspSettle u).pic = u.pic := by simp only [dspSettle]; split; rfl; split <;> rfl
      split
      · simp only [e]; exact Pic.raise_disjoint k _
      · rw [e]; exact k
    have := Pic.tick_disjoint d (dspTick (kbdTick (memTick s))).intf (dspTick (kbdTick (memTick s))).psr.priority
    split <;> rename_i hp <;> simp only [hp] at this <;> exact this
  · simp only [devicesTick_cfg]
    have e : (devicesTick s).dsp = (dspSettle (kbdTick (memTick s))).dsp := by
      have hp : ∀ u, (picTick u).dsp = u.dsp := by intro u; simp only [picTick]; split <;> rfl
      simp only [devicesTick, hp, dspTick]; split <;> rfl
    have k : (kbdTick (memTick s)).dsp = s.dsp := by
      have hl : ∀ u, (kbdLatch u).dsp = u.dsp := by intro u; simp only [kbdLatch]; split <;> rfl
      simp only [kbdTick]; split <;> exact hl _
    rw [e]
    simp only [dspSettle, k]
    cases hr : s.dsp.ready <;> simp only [hr, Bool.false_eq_true, if_false, if_true] at h3 ⊢
    · split
      · simp
      · simp only [Bool.false_eq_true, if_false]; omega
    · rw [k, hr]; simpa using h3

theorem devicesTicks_dataInv {s : State} (h : s.dataInv = true) (n : Nat) : (devicesTicks n s).dataInv = true := by
  induction n generalizing s with
  | zero => exact h
  | succ n ih => exact ih (devicesTick_dataInv h)

theorem loadWord_dataInv {s : State} (a : Word) : (loadWord a s).2.dataInv = s.dataInv := dataInv_congr (by simp) (by simp) (by simp) (by simp)

theorem devSet_dataInv {s : State} (h : s.dataInv = true) (d : DevReg) (v : Word) : (devSet d v s).dataInv = true := by
  cases d <;> simp only [devSet] <;> try exact h
  · split
    · rw [dataInv_iff] at *
      exact ⟨h.1, h.2.1, ⟨Params.dspDelay_pos h.2.2.2, Nat.le_refl _⟩, h.2.2.2⟩
    · exact h
  · rw [dataInv_iff] at *
    refine ⟨h.1, ?_, h.2.2⟩
    simp only [Pic.writeData]; split <;> exact h.2.1

theorem storeWord_dataInv {s : State} (h : s.dataInv = true) (a v m : Word) : (storeWord a v m s).dataInv = true := by
  have hw := storeWord_wf (((dataInv_iff s).1 h).1) a v m
  unfold storeWord at *
  cases hd : devAt (evenAddr a) with
  | some d => exact devSet_dataInv h d _
  | none =>
    by_cases hm : inMmio (evenAddr a) = true
    · simpa [hm] using h
    · simp only [hd, hm, Bool.false_eq_true, if_false] at hw ⊢
      rw [dataInv_iff] at *
      exact ⟨hw, h.2⟩

theorem inv_iff (s : State) : s.inv = true ↔ s.sequencerInv = true ∧ s.memUnitInv = true ∧ s.dataInv = true := by
  simp [State.inv, and_assoc]

theorem sequencerInv_iff (s : State) : s.sequencerInv = true ↔ unusedStates.contains s.ustate = false
    ∧ (serviceStates.contains s.ustate = false ∨ s.intf = true) ∧ (popStates.contains s.ustate = false ∨ s.psr.priv = .supervisor) := by
  unfold State.sequencerInv
  simp only [Bool.and_eq_true, Bool.or_eq_true, Bool.not_eq_true', beq_iff_eq, and_assoc]

theorem devicesTick_intf_mono {s : State} (h : s.intf = true) : (devicesTick s).intf = true := (devicesTick_latch h).1

theorem devicesTick_inv {s : State} (h : s.inv = true) : (devicesTick s).inv = true := by
  rw [inv_iff] at *
  obtain ⟨h1, h2, h3⟩ := h
  refine ⟨?_, ?_, devicesTick_dataInv h3⟩
  · simp only [State.sequencerInv, devicesTick_ustate, devicesTick_psr, Bool.and_eq_true, Bool.or_eq_true] at *
    exact ⟨⟨h1.1.1, h1.1.2.imp id devicesTick_intf_mono⟩, h1.2⟩
  · simp only [State.memUnitInv, devicesTick_ustate, devicesTick_rdEn, devicesTick_wrEn, devicesTick_cfg, devicesTick_busy, Bool.and_eq_true, Bool.or_eq_true, decide_eq_true_eq, beq_iff_eq] at *
    refine ⟨⟨h2.1.1, ?_⟩, by omega⟩
    rcases h2.1.2 with (h | h) | h
    · exact .inl (.inl (by omega))
    · exact .inl (.inr h)
    · exact .inr h

/-- a state that is not a wait state has the memory unit idle -/
theorem idle_of {s : State} (h : s.memUnitInv = true) (hr : readStates.contains s.ustate = false) (hw : writeStates.contains s.ustate = false) :
    s.rdEn = false ∧ s.wrEn = false ∧ s.busy = 0 := by
  simp only [State.memUnitInv, hr, hw, Bool.or_false, Bool.and_eq_true, Bool.not_eq_true', Bool.or_eq_true, beq_iff_eq, decide_eq_true_eq] at h
  obtain ⟨⟨⟨h1, h2⟩, h3⟩, h4⟩ := h
  simp [h1, h2] at h3
  exact ⟨h1, h2, h3⟩

theorem memUnit_idle {t : State} (h : t.rdEn = false ∧ t.wrEn = false ∧ t.busy = 0) : t.memUnitInv = true := by
  simp [State.memUnitInv, h.1, h.2.1, h.2.2]

theorem next_when (c : Cond) (b : UState) (ready : Bool) (s : State) :
    (CsEntry.next ⟨false, some c, b⟩ ready s = b ∧ signal c ready s = false)
    ∨ (CsEntry.next ⟨false, some c, b⟩ ready s = b ||| c.mask ∧ signal c ready s = true) := by
  cases h : signal c ready s <;> simp [CsEntry.next, h]

/-- A CPU tick's answer, by its state's entry and micro-operation. -/
theorem cpuTick_next {d t : State} {e : CsEntry} {r : Micro} (he : csEntry d.ustate = some e) (hr : microOp d.ustate d = some r)
    (ht : cpuTick d = .next t) : t = conclude r (e.next r.ready r.st) := by
  rw [cpuTick_of he hr] at ht; cases ht; rfl

/-- The invariant through a tick whose micro-operation makes no memory call. -/
theorem cpuTick_inv_micro {d t : State} {e : CsEntry} {r : Micro} (h : d.inv = true)
    (he : csEntry d.ustate = some e) (hr : microOp d.ustate d = some r) (ht : cpuTick d = .next t)
    (hw : readStates.contains d.ustate = false ∧ writeStates.contains d.ustate = false)
    (hu : unusedStates.contains (e.next r.ready r.st) = false)
    (hs : serviceStates.contains (e.next r.ready r.st) = false ∨ r.st.intf = true)
    (hp : popStates.contains (e.next r.ready r.st) = false ∨ r.st.psr.priv = .supervisor)
    (hx : r.st.rdEn = d.rdEn ∧ r.st.wrEn = d.wrEn ∧ r.st.busy = d.busy ∧ r.st.mem = d.mem ∧ r.st.dsp = d.dsp ∧ r.st.cfg = d.cfg
      ∧ (r.st.pic = d.pic ∨ r.st.pic = d.pic.finish d.psr.priority)) : t.inv = true := by
  have ht := cpuTick_next he hr ht
  rw [inv_iff] at h ⊢
  obtain ⟨h1, h2, h3⟩ := h
  have e1 : t.rdEn = r.st.rdEn ∧ t.wrEn = r.st.wrEn ∧ t.busy = r.st.busy ∧ t.mem = r.st.mem ∧ t.dsp = r.st.dsp ∧ t.cfg = r.st.cfg ∧ t.pic = r.st.pic := by
    rw [ht]; unfold conclude; cases r.exc <;> simp [raiseException]
  obtain ⟨a1, a2, a3, a4, a5, a6, a7⟩ := e1
  obtain ⟨b1, b2, b3, b4, b5, b6, b7⟩ := hx
  refine ⟨?_, ?_, ?_⟩
  · rw [ht]; unfold conclude
    cases r.exc with
    | some v => exact (sequencerInv_iff _).2 ⟨rfl, .inl rfl, .inl rfl⟩
    | none =>
      exact (sequencerInv_iff _).2 ⟨hu, hs, hp⟩
  · obtain ⟨i, j, k⟩ := idle_of h2 hw.1 hw.2
    exact memUnit_idle ⟨(a1.trans b1).trans i, (a2.trans b2).trans j, (a3.trans b3).trans k⟩
  · rw [dataInv_iff] at h3 ⊢
    rw [a4, a5, a6, a7, b4, b5, b6]
    refine ⟨h3.1, ?_, h3.2.2⟩
    rcases b7 with b | b <;> rw [b]
    · exact h3.2.1
    · exact Pic.finish_disjoint h3.2.1 _

/-- The invariant through a tick of a write's wait state. -/
theorem cpuTick_inv_write {d t : State} (h : d.inv = true) (m : Word → Word) {k w : UState}
    (hd : d.ustate = w) (he : csEntry d.ustate = some ⟨false, some .memReady, w⟩)
    (hr : microOp d.ustate d = some (uWriteMasked m d)) (ht : cpuTick d = .next t) (hk : k = w ||| 2#6)
    (hrw : readStates.contains w = false) (hww : writeStates.contains w = true) (hu : unusedStates.contains k = false)
    (hs : serviceStates.contains k = false ∨ serviceStates.contains w = true) (hp : popStates.contains k = false) :
    t.inv = true := by
  have ht := cpuTick_next he hr ht
  rw [inv_iff] at h ⊢
  obtain ⟨h1, h2, h3⟩ := h
  have C : ∀ t : State, t.mem = d.mem → t.pic = d.pic → t.dsp = d.dsp → t.cfg = d.cfg → t.dataInv = true :=
    fun t a b e f => (dataInv_congr a b e f).trans h3
  have hrr : d.rdEn = false := by
    simp only [State.memUnitInv, hd, hww, hrw] at h2; simp at h2; exact h2.1.1
  rw [sequencerInv_iff, hd] at h1
  by_cases hr : d.wrEn = true
  · by_cases hb : 0 < d.busy
    · simp only [uWriteMasked, memWrite, hr, hb, Bool.not_true, Bool.false_eq_true, if_false, if_true, CsEntry.next, signal, conclude] at ht
      have : t = d := by rw [ht]; apply State.ext_fields <;> first | exact hd.symm | exact hr.symm | rfl
      rw [this]
      exact ⟨(sequencerInv_iff d).2 (by rw [hd]; exact h1), h2, h3⟩
    · simp only [uWriteMasked, memWrite, hr, if_neg hb, Bool.not_true, Bool.false_eq_true, if_false, if_true, CsEntry.next, signal, conclude, Cond.mask, ← hk] at ht
      have hb0 : d.busy = 0 := by omega
      subst ht
      refine ⟨?_, ?_, ?_⟩
      · rw [sequencerInv_iff]
        refine ⟨hu, ?_, .inl hp⟩
        show serviceStates.contains k = false ∨ _
        refine hs.imp id fun h => ?_
        simpa using h1.2.1.resolve_left (by rw [h]; decide)
      · exact memUnit_idle (by simp [hrr, hb0])
      · have := storeWord_dataInv (s := { d with wrEn := false }) h3 d.mar d.mdr (m d.mar)
        rw [← this]
        exact (dataInv_congr (by rfl) (by rfl) (by rfl) (by rfl))
  · simp only [uWriteMasked, memWrite, hr, Bool.not_false, Bool.false_eq_true, if_false, if_true, CsEntry.next, signal, conclude] at ht
    subst ht
    refine ⟨(sequencerInv_iff _).2 h1, ?_, C _ rfl rfl rfl rfl⟩
    simp [State.memUnitInv, hrr] at hww ⊢
    simpa using hww

/-- The invariant through a tick of a read's wait state. -/
theorem cpuTick_inv_read {d t : State} (h : d.inv = true) {k w : UState}
    (hd : d.ustate = w) (he : csEntry d.ustate = some ⟨false, some .memReady, w⟩)
    (hr : microOp d.ustate d = some (uRead d)) (ht : cpuTick d = .next t) (hk : k = w ||| 2#6)
    (hrw : readStates.contains w = true) (hww : writeStates.contains w = false) (hu : unusedStates.contains k = false)
    (hs : serviceStates.contains k = serviceStates.contains w) (hp : popStates.contains k = popStates.contains w) :
    t.inv = true := by
  have ht := cpuTick_next he hr ht
  rw [inv_iff] at h ⊢
  obtain ⟨h1, h2, h3⟩ := h
  have C : ∀ t : State, t.mem = d.mem → t.pic = d.pic → t.dsp = d.dsp → t.cfg = d.cfg → t.dataInv = true :=
    fun t a b e f => (dataInv_congr a b e f).trans h3
  have hwr : d.wrEn = false := by
    simp only [State.memUnitInv, hd, hww, hrw] at h2; simp at h2; exact h2.1.1
  rw [sequencerInv_iff, hd] at h1
  by_cases hr : d.rdEn = true
  · by_cases hb : 0 < d.busy
    · simp only [uRead, memRead, hr, hb, Bool.not_true, Bool.false_eq_true, if_false, if_true, CsEntry.next, signal, conclude] at ht
      have : t = d := by rw [ht]; apply State.ext_fields <;> first | exact hd.symm | exact hr.symm | rfl
      rw [this]
      exact ⟨(sequencerInv_iff d).2 (by rw [hd]; exact h1), h2, h3⟩
    · simp only [uRead, memRead, hr, if_neg hb, Bool.not_true, Bool.false_eq_true, if_false, if_true, CsEntry.next, signal, conclude, Cond.mask, ← hk] at ht
      have hb0 : d.busy = 0 := by omega
      subst ht
      refine ⟨?_, ?_, ?_⟩
      · rw [sequencerInv_iff]
        refine ⟨hu, ?_, ?_⟩
        · show serviceStates.contains k = false ∨ _
          rw [hs]; simpa using h1.2.1
        · show popStates.contains k = false ∨ _
          rw [hp]; simpa using h1.2.2
      · exact memUnit_idle (by simp [hwr, hb0])
      · rw [← h3]
        refine Eq.trans ?_ ((loadWord_dataInv (s := { d with rdEn := false }) d.mar).trans (dataInv_congr (by rfl) (by rfl) (by rfl) (by rfl)))
        exact (dataInv_congr (by rfl) (by rfl) (by rfl) (by rfl))
  · simp only [uRead, memRead, hr, Bool.not_false, Bool.false_eq_true, if_false, if_true, CsEntry.next, signal, conclude] at ht
    subst ht
    refine ⟨(sequencerInv_iff _).2 h1, ?_, C _ rfl rfl rfl rfl⟩
    simp [State.memUnitInv, hwr] at hrw ⊢
    simpa using hrw

end Sys2Proof.Machine
end

