-- ==== Sys2Proof/Laws/PerInstr.lean ====
section
/-! SUPPORT. Statements about every instruction as syntax, one lemma per constructor: `OpcodeRow`, that an instruction's
canonical word is of its row of spec/opcode_table.json. -/

namespace Sys2Proof.Laws

/-- The word an instruction encodes to matches the mask and pattern of its row (30_encoding.md R74 to R76). -/
def OpcodeRow.Statement (i : Instr) : Prop := encodeWord i &&& i.row.mask = i.row.pattern

/-- The mask of a concatenation is the concatenation of the masks. -/
theorem append_and {m n : Nat} (a b : BitVec m) (c d : BitVec n) : (a ++ c) &&& (b ++ d) = (a &&& b) ++ (c &&& d) := by
  apply BitVec.eq_of_getLsbD_eq
  intro i hi
  simp only [BitVec.getLsbD_and, BitVec.getLsbD_append]
  split <;> rfl

/-! Words whose mask looks at the opcode only, by where the fields below it are cut. -/

theorem opcode_3_3_6 (o : BitVec 4) (a b : BitVec 3) (c : BitVec 6) : (o ++ a ++ b ++ c) &&& 0xF000#16 = o ++ 0#12 := by
  rw [show (0xF000#16 : BitVec 16) = 0xF#4 ++ 0#3 ++ 0#3 ++ 0#6 from rfl, append_and, append_and, append_and]
  simp only [BitVec.and_zero, show o &&& 0xF#4 = o from by revert o; decide]
  revert o; decide

theorem opcode_3_9 (o : BitVec 4) (a : BitVec 3) (c : BitVec 9) : (o ++ a ++ c) &&& 0xF000#16 = o ++ 0#12 := by
  rw [show (0xF000#16 : BitVec 16) = 0xF#4 ++ 0#3 ++ 0#9 from rfl, append_and, append_and]
  simp only [BitVec.and_zero, show o &&& 0xF#4 = o from by revert o; decide]
  revert o; decide

/-- The words of the three-register forms, and of SHF, whose mask looks at bit 5 or bit 4 as well. -/
theorem opcode_3_3_2_4 (o : BitVec 4) (a b : BitVec 3) (s m : BitVec 2) (c : BitVec 4) :
    (o ++ a ++ b ++ s ++ c) &&& (0xF#4 ++ 0#3 ++ 0#3 ++ m ++ 0#4) = o ++ 0#3 ++ 0#3 ++ (s &&& m) ++ 0#4 := by
  rw [append_and, append_and, append_and, append_and]
  simp only [BitVec.and_zero, show o &&& 0xF#4 = o from by revert o; decide]

theorem opcode_3_3_3_3 (o : BitVec 4) (a b s c : BitVec 3) :
    (o ++ a ++ b ++ s ++ c) &&& 0xF020#16 = o ++ 0#3 ++ 0#3 ++ (s &&& 0b100#3) ++ 0#3 := by
  rw [show (0xF020#16 : BitVec 16) = 0xF#4 ++ 0#3 ++ 0#3 ++ 0b100#3 ++ 0#3 from rfl, append_and, append_and, append_and, append_and]
  simp only [BitVec.and_zero, show o &&& 0xF#4 = o from by revert o; decide]

theorem opcode_3_3_1_5 (o : BitVec 4) (a b : BitVec 3) (s : BitVec 1) (c : BitVec 5) :
    (o ++ a ++ b ++ s ++ c) &&& 0xF020#16 = o ++ 0#3 ++ 0#3 ++ s ++ 0#5 := by
  rw [show (0xF020#16 : BitVec 16) = 0xF#4 ++ 0#3 ++ 0#3 ++ 1#1 ++ 0#5 from rfl, append_and, append_and, append_and, append_and]
  simp only [BitVec.and_zero, show o &&& 0xF#4 = o from by revert o; decide, show s &&& 1#1 = s from by revert s; decide]

theorem OpcodeRow.addReg (dr sr1 sr2 : Reg) : OpcodeRow.Statement (.addReg dr sr1 sr2) := opcode_3_3_3_3 _ _ _ _ _
theorem OpcodeRow.addImm (dr sr1 : Reg) (imm5 : BitVec 5) : OpcodeRow.Statement (.addImm dr sr1 imm5) := opcode_3_3_1_5 _ _ _ _ _
theorem OpcodeRow.andReg (dr sr1 sr2 : Reg) : OpcodeRow.Statement (.andReg dr sr1 sr2) := opcode_3_3_3_3 _ _ _ _ _
theorem OpcodeRow.andImm (dr sr1 : Reg) (imm5 : BitVec 5) : OpcodeRow.Statement (.andImm dr sr1 imm5) := opcode_3_3_1_5 _ _ _ _ _
theorem OpcodeRow.xorReg (dr sr1 sr2 : Reg) : OpcodeRow.Statement (.xorReg dr sr1 sr2) := opcode_3_3_3_3 _ _ _ _ _
theorem OpcodeRow.xorImm (dr sr1 : Reg) (imm5 : BitVec 5) : OpcodeRow.Statement (.xorImm dr sr1 imm5) := opcode_3_3_1_5 _ _ _ _ _
theorem OpcodeRow.br (n z p : Bool) (off9 : BitVec 9) : OpcodeRow.Statement (.br n z p off9) := by
  show (0b0000#4 ++ BitVec.ofBool n ++ BitVec.ofBool z ++ BitVec.ofBool p ++ off9) &&& 0xF000#16 = _
  rw [show (0xF000#16 : BitVec 16) = 0xF#4 ++ 0#1 ++ 0#1 ++ 0#1 ++ 0#9 from rfl, append_and, append_and, append_and, append_and]
  simp only [BitVec.and_zero]
  rfl
theorem OpcodeRow.ldb (dr base : Reg) (off6 : BitVec 6) : OpcodeRow.Statement (.ldb dr base off6) := opcode_3_3_6 _ _ _ _
theorem OpcodeRow.stb (sr base : Reg) (off6 : BitVec 6) : OpcodeRow.Statement (.stb sr base off6) := opcode_3_3_6 _ _ _ _
theorem OpcodeRow.jsrr (base : Reg) : OpcodeRow.Statement (.jsrr base) := by cases base <;> rfl
theorem OpcodeRow.jsr (off11 : BitVec 11) : OpcodeRow.Statement (.jsr off11) := by
  show (0b0100#4 ++ 0b1#1 ++ off11) &&& 0xF800#16 = _
  rw [show (0xF800#16 : BitVec 16) = 0xF#4 ++ 1#1 ++ 0#11 from rfl, append_and, append_and]
  simp only [BitVec.and_zero]
  rfl
theorem OpcodeRow.ldw (dr base : Reg) (off6 : BitVec 6) : OpcodeRow.Statement (.ldw dr base off6) := opcode_3_3_6 _ _ _ _
theorem OpcodeRow.stw (sr base : Reg) (off6 : BitVec 6) : OpcodeRow.Statement (.stw sr base off6) := opcode_3_3_6 _ _ _ _
theorem OpcodeRow.rti : OpcodeRow.Statement .rti := rfl
theorem OpcodeRow.ldi (dr base : Reg) (off6 : BitVec 6) : OpcodeRow.Statement (.ldi dr base off6) := opcode_3_3_6 _ _ _ _
theorem OpcodeRow.sti (sr base : Reg) (off6 : BitVec 6) : OpcodeRow.Statement (.sti sr base off6) := opcode_3_3_6 _ _ _ _
theorem OpcodeRow.jmp (base : Reg) : OpcodeRow.Statement (.jmp base) := by cases base <;> rfl
theorem OpcodeRow.lshf (dr sr1 : Reg) (amount4 : BitVec 4) : OpcodeRow.Statement (.lshf dr sr1 amount4) :=
  opcode_3_3_2_4 _ _ _ 0b00#2 0b01#2 _
theorem OpcodeRow.rshfl (dr sr1 : Reg) (amount4 : BitVec 4) : OpcodeRow.Statement (.rshfl dr sr1 amount4) :=
  opcode_3_3_2_4 _ _ _ 0b01#2 0b11#2 _
theorem OpcodeRow.rshfa (dr sr1 : Reg) (amount4 : BitVec 4) : OpcodeRow.Statement (.rshfa dr sr1 amount4) :=
  opcode_3_3_2_4 _ _ _ 0b11#2 0b11#2 _
theorem OpcodeRow.lea (dr : Reg) (off9 : BitVec 9) : OpcodeRow.Statement (.lea dr off9) := opcode_3_9 _ _ _
theorem OpcodeRow.trap (vect8 : BitVec 8) : OpcodeRow.Statement (.trap vect8) := by
  show (0b1111#4 ++ 0b0000#4 ++ vect8) &&& 0xF000#16 = _
  rw [show (0xF000#16 : BitVec 16) = 0xF#4 ++ 0#4 ++ 0#8 from rfl, append_and, append_and]
  simp only [BitVec.and_zero]
  rfl

end Sys2Proof.Laws
end

