-- ==== Sys2Proof/Tests/Slice0.lean ====
section
/-! SUPPORT. Tests. Expected values are the spec's: the words of 30_encoding.md and 95_test_vectors.md, and the rows of
95_test_vectors.md sections 2 to 4. Then a witness for each statement that has hypotheses, at the edges of its clauses. -/

namespace Sys2Proof.Tests

open Sys2Proof.Machine

/-! ## Well-formedness: each check refuses -/

theorem test_params_default : Params.default.wellFormed = true := by decide
theorem test_params_memDelay : ({ Params.default with memDelay := 0 } : Params).wellFormed = false := by decide
theorem test_params_dspDelay : ({ Params.default with dspDelay := 0 } : Params).wellFormed = false := by decide
theorem test_params_sameLine : ({ Params.default with kbdIrq := 3#3 } : Params).wellFormed = false := by decide
theorem test_params_sameCommand : ({ Params.default with cmdWriteImr := 2#16 } : Params).wellFormed = false := by decide

/-! ## Decoding: one word of each constructor, written out from the formats of 30_encoding.md R71 and R74 -/

theorem test_decode_addReg : decodeWord 0b0001_001_010_000_011#16 = .addReg .r1 .r2 .r3 := by decide
theorem test_decode_addImm : decodeWord 0b0001_001_001_1_11111#16 = .addImm .r1 .r1 31#5 := by decide
theorem test_decode_andReg : decodeWord 0b0101_110_101_000_100#16 = .andReg .r6 .r5 .r4 := by decide
theorem test_decode_andImm : decodeWord 0b0101_101_001_1_01111#16 = .andImm .r5 .r1 15#5 := by decide
theorem test_decode_xorReg : decodeWord 0b1001_001_010_000_011#16 = .xorReg .r1 .r2 .r3 := by decide
theorem test_decode_xorImm : decodeWord 0b1001_100_100_1_11111#16 = .xorImm .r4 .r4 31#5 := by decide
theorem test_decode_br : decodeWord 0b0000_0_1_0_000000011#16 = .br false true false 3#9 := by decide
theorem test_decode_ldb : decodeWord 0b0010_001_010_111111#16 = .ldb .r1 .r2 63#6 := by decide
theorem test_decode_stb : decodeWord 0b0011_001_010_000001#16 = .stb .r1 .r2 1#6 := by decide
theorem test_decode_jsrr : decodeWord 0b0100_0_00_011_000000#16 = .jsrr .r3 := by decide
theorem test_decode_jsr : decodeWord 0b0100_1_11111111110#16 = .jsr 0x7FE#11 := by decide
theorem test_decode_ldw : decodeWord 0b0110_001_010_000011#16 = .ldw .r1 .r2 3#6 := by decide
theorem test_decode_stw : decodeWord 0b0111_001_010_111111#16 = .stw .r1 .r2 63#6 := by decide
theorem test_decode_rti : decodeWord 0b1000_000000000000#16 = .rti := by decide
theorem test_decode_ldi : decodeWord 0b1010_001_010_000000#16 = .ldi .r1 .r2 0#6 := by decide
theorem test_decode_sti : decodeWord 0b1011_001_010_000000#16 = .sti .r1 .r2 0#6 := by decide
theorem test_decode_jmp : decodeWord 0b1100_111_011_111111#16 = .jmp .r3 := by decide
theorem test_decode_lshf : decodeWord 0b1101_001_010_10_0001#16 = .lshf .r1 .r2 1#4 := by decide
theorem test_decode_rshfl : decodeWord 0b1101_001_001_01_0010#16 = .rshfl .r1 .r1 2#4 := by decide
theorem test_decode_rshfa : decodeWord 0b1101_001_001_11_0010#16 = .rshfa .r1 .r1 2#4 := by decide
theorem test_decode_lea : decodeWord 0b1110_000_111111111#16 = .lea .r0 511#9 := by decide
theorem test_decode_trap : decodeWord 0b1111_1111_00100101#16 = .trap 0x25#8 := by decide
theorem test_decode_bytes : decode [0x83#8, 0x12#8, 0x55#8] = .ok (.addReg .r1 .r2 .r3, [0x55#8]) := by rfl
theorem test_decode_truncated : decode [0x83#8] = .error .truncated := by rfl

/-! ## One step on a small state: the rows of 95_test_vectors.md section 2 -/

/-- The conventions of 95_test_vectors.md: reset, the clock on, PC 3000. -/
def base : State := { State.reset with pc := 0x3000#16, mcr := 0x8000#16 }

/-- The same with the registers that the vectors name. -/
def regs (r1 r2 r3 : Word) : State := { base with regs := { base.regs with r1 := r1, r2 := r2, r3 := r3 } }

/-- A word in memory. -/
def with1 (a v : Word) (s : State) : State := { s with mem := Memory.writeWord s.mem a v }

/-- The PSR by its word. -/
def withPsr (w : Word) (s : State) : State := { s with psr := Psr.ofWord w }

/-- The next state, if there is one. -/
def nextOf (o : Out) : Option State :=
  match o with
  | .next t => some t
  | .fault _ => none
  | .refused _ => none

/-- What a step that runs the word at PC leaves, told by `f`. -/
def after {α : Type} (w : Word) (s : State) (f : State → α) : Option α := (nextOf (step (with1 s.pc w s))).map f

/-- A general register, the PSR and the ticks. -/
def alu (r : Reg) (t : State) : Word × Word × Nat := (t.regs.get r, t.psr.word, t.ticks)

theorem test_addReg_overflow : after 0x1283#16 (regs 0 0x7FFF#16 1) (alu .r1) = some (0x8000#16, 0x0004#16, 6) := by decide
theorem test_addReg_same : after 0x1241#16 (regs 0x4000#16 0 0) (alu .r1) = some (0x8000#16, 0x0004#16, 6) := by decide
theorem test_addImm_minus1 : after 0x127F#16 (regs 1 0 0) (alu .r1) = some (0x0000#16, 0x0002#16, 6) := by decide
theorem test_andReg : after 0x5283#16 (regs 0 0x00FF#16 0x0F0F#16) (alu .r1) = some (0x000F#16, 0x0001#16, 6) := by decide
theorem test_andImm_minus16 : after 0x52B0#16 (regs 0 0xABCD#16 0) (alu .r1) = some (0xABC0#16, 0x0004#16, 6) := by decide
theorem test_xorReg : after 0x9283#16 (regs 0 0x00FF#16 0x0F0F#16) (alu .r1) = some (0x0FF0#16, 0x0001#16, 6) := by decide
theorem test_xorImm_minus16 : after 0x92B0#16 (regs 0 0x00FF#16 0) (alu .r1) = some (0xFF0F#16, 0x0004#16, 6) := by decide
theorem test_lshf : after 0xD242#16 (regs 0x8004#16 0 0) (alu .r1) = some (0x0010#16, 0x0001#16, 6) := by decide
theorem test_lshf_aIgnored : after 0xD2A1#16 (regs 0 0x4001#16 0) (alu .r1) = some (0x8002#16, 0x0004#16, 6) := by decide
theorem test_rshfl : after 0xD252#16 (regs 0x8004#16 0 0) (alu .r1) = some (0x2001#16, 0x0001#16, 6) := by decide
theorem test_rshfa : after 0xD272#16 (regs 0x8004#16 0 0) (alu .r1) = some (0xE001#16, 0x0004#16, 6) := by decide
theorem test_rshfa_zero : after 0xD2B0#16 (regs 0 0x8000#16 0) (alu .r1) = some (0x8000#16, 0x0004#16, 6) := by decide
theorem test_lea_minus1 : after 0xE1FF#16 base (alu .r0) = some (0x3000#16, 0x0001#16, 6) := by decide
theorem test_lea_wraps : after 0xE100#16 { base with pc := 0 } (alu .r0) = some (0xFE02#16, 0x0004#16, 6) := by decide

theorem test_ldb_odd : after 0x2281#16 (with1 0x4000#16 0x80FF#16 (regs 0 0x4000#16 0)) (alu .r1)
    = some (0xFF80#16, 0x0004#16, 9) := by decide
theorem test_ldb_unscaled : after 0x22BF#16 (with1 0x4000#16 0x7F00#16 (regs 0 0x4002#16 0)) (alu .r1)
    = some (0x007F#16, 0x0001#16, 9) := by decide
theorem test_ldw_scaled : after 0x6283#16 (with1 0x4006#16 0xBEEF#16 (regs 0 0x4000#16 0)) (alu .r1)
    = some (0xBEEF#16, 0x0004#16, 9) := by decide
theorem test_ldw_odd : after 0x6280#16 (regs 0x1111#16 0x4001#16 0) (fun t => (alu .r1 t, t.mar, t.intf, t.intv, t.pc))
    = some ((0x1111#16, 0x0000#16, 6), 0x4001#16, true, 0x02#8, 0x3002#16) := by decide
theorem test_ldi : after 0xA280#16 (with1 0x4000#16 0x5000#16 (with1 0x5000#16 0x8001#16 (regs 0 0x4000#16 0))) (alu .r1)
    = some (0x8001#16, 0x0004#16, 12) := by decide
theorem test_ldi_second : after 0xA280#16 (with1 0x4000#16 0x5001#16 (regs 0x1111#16 0x4000#16 0))
    (fun t => (alu .r1 t, t.mar, t.mdr, t.intf)) = some ((0x1111#16, 0x0000#16, 9), 0x5001#16, 0x5001#16, true) := by decide
theorem test_stb_odd : after 0x3281#16 (with1 0x4000#16 0x5566#16 (regs 0x12AB#16 0x4000#16 0))
    (fun t => (Memory.readWord t.mem 0x4000#16, t.ustate, t.ticks)) = some (0xAB66#16, 19#6, 9) := by decide
theorem test_stb_even : after 0x3280#16 (with1 0x4000#16 0x5566#16 (regs 0x12AB#16 0x4000#16 0))
    (fun t => (Memory.readWord t.mem 0x4000#16, t.mdr)) = some (0x55AB#16, 0xABAB#16) := by decide
theorem test_stw : after 0x72BF#16 (regs 0xCAFE#16 0x4002#16 0)
    (fun t => (Memory.readWord t.mem 0x4000#16, t.psr.word, t.ticks)) = some (0xCAFE#16, 0x0000#16, 9) := by decide
theorem test_stw_selfModifying : after 0x7280#16 (regs 0x1025#16 0x3002#16 0)
    (fun t => nextOf (step t) |>.map (fun u => (u.regs.r0, u.pc))) = some (some (5#16, 0x3004#16)) := by decide
theorem test_sti : after 0xB280#16 (with1 0x4000#16 0x5000#16 (regs 0xCAFE#16 0x4000#16 0))
    (fun t => (Memory.readWord t.mem 0x5000#16, t.ticks)) = some (0xCAFE#16, 12) := by decide
theorem test_sti_second : after 0xB280#16 (with1 0x4000#16 0x5003#16 (regs 0xCAFE#16 0x4000#16 0))
    (fun t => (Memory.readWord t.mem 0x5002#16, t.mar, t.intf)) = some (0x0000#16, 0x5003#16, true) := by decide

theorem test_br_z_taken : after 0x0403#16 (withPsr 2 base) (fun t => (t.pc, t.ticks)) = some (0x3008#16, 7) := by decide
theorem test_br_noFlags : after 0x0E03#16 base (fun t => (t.pc, t.ticks)) = some (0x3002#16, 6) := by decide
theorem test_jmp_ignoredBits : after 0xCEFF#16 (regs 0 0 0x4000#16) (fun t => (t.pc, t.ticks)) = some (0x4000#16, 6) := by decide
theorem test_jmp_odd : after 0xC0C0#16 (regs 0 0 0x4001#16) (fun t => (t.pc, t.mar, t.intf, t.intv))
    = some (0x3002#16, 0x3000#16, true, 0x02#8) := by decide
theorem test_jsr : after 0x4FFE#16 base (fun t => (t.regs.r7, t.pc, t.ticks)) = some (0x3002#16, 0x2FFE#16, 7) := by decide
theorem test_jsrr_odd : after 0x40C0#16 (regs 0 0 0x4001#16) (fun t => (t.regs.r7, t.pc)) = some (0x3002#16, 0x4001#16) := by decide
theorem test_jsrr_r7 : after 0x41C0#16 { base with regs := { base.regs with r7 := 0x4000#16 } } (fun t => (t.regs.r7, t.pc))
    = some (0x3002#16, 0x3002#16) := by decide
theorem test_trap : after 0xF025#16 (with1 0x004A#16 0x0500#16 { base with pc := 0x3004#16 })
    (fun t => (t.regs.r7, t.pc, t.mar, t.ticks)) = some (0x3006#16, 0x0500#16, 0x004A#16, 9) := by decide

/-- A supervisor with a frame to return to user mode by (95_test_vectors.md section 2.3). -/
def framed : State := with1 0x2FFC#16 0x3006#16 (with1 0x2FFE#16 0x8002#16 (withPsr 0x0401#16 { base with
  regs := { base.regs with r6 := 0x2FFC#16 }, usp := 0xF000#16, pic := { base.pic with isr := 0x10#8 } }))

theorem test_rti_toUser : after 0x8000#16 framed (fun t => (t.pc, t.psr.word, t.regs.r6, t.ssp, t.pic.isr, t.ticks))
    = some (0x3006#16, 0x8002#16, 0xF000#16, 0x3000#16, 0x00#8, 15) := by rfl
theorem test_rti_user : after 0x8000#16 (withPsr 0x8002#16 { base with regs := { base.regs with r6 := 0xF000#16 } })
    (fun t => (t.intf, t.intv, t.intp, t.pc, t.psr.word, t.regs.r6, t.mar, t.ticks))
    = some (true, 0x00#8, 7#3, 0x3002#16, 0x8002#16, 0xF000#16, 0xF000#16, 7) := by rfl

/-! ## The service sequence (95_test_vectors.md section 2.4) -/

/-- An interrupt of line 5 waiting at a fetch state, in supervisor mode. -/
def waiting : State := with1 0x030A#16 0x0800#16 (withPsr 0x0302#16 { base with
  pc := 0x3010#16, regs := { base.regs with r6 := 0x3000#16 }, intf := true, intv := 0x85#8, intp := 5#3 })

/-- A privilege violation waiting, in user mode. -/
def violated : State := with1 0x0200#16 0x0600#16 (withPsr 0x8001#16 { base with
  pc := 0x3004#16, regs := { base.regs with r6 := 0xF000#16 }, ssp := 0x3000#16, intf := true, intv := 0x00#8, intp := 7#3 })

theorem test_service_supervisor : (nextOf (step waiting)).map (fun t => (Memory.readWord t.mem 0x2FFE#16,
    Memory.readWord t.mem 0x2FFC#16, t.regs.r6, t.psr.word, t.pc, t.intf, t.ticks))
    = some (0x0302#16, 0x3010#16, 0x2FFC#16, 0x0502#16, 0x0800#16, false, 13) := by rfl
theorem test_service_user : (nextOf (step violated)).map (fun t => (Memory.readWord t.mem 0x2FFE#16,
    Memory.readWord t.mem 0x2FFC#16, t.regs.r6, t.psr.word, t.pc, t.usp, t.ticks))
    = some (0x8001#16, 0x3004#16, 0x2FFC#16, 0x0701#16, 0x0600#16, 0xF000#16, 14) := by rfl

/-- An exception waiting with a stack pointer whose second push lands on MCR (section 2.4, last row). -/
def ontoMcr : State := withPsr 1 { base with
  pc := 0x3006#16, regs := { base.regs with r6 := 2#16 }, intf := true, intv := 0x02#8, intp := 7#3 }

theorem test_service_ontoMcr : (nextOf (step ontoMcr)).map (fun t => (Memory.readWord t.mem 0, t.mcr, t.ustate, t.intf))
    = some (0x0001#16, 0x3006#16, 50#6, true) := by decide

/-- A user's PSR has bit 15 set: pushed onto MCR it leaves the clock on (70_reset_and_hazards.md R272). -/
theorem test_service_userOntoMcr : (nextOf (step { violated with ssp := 0 })).map (fun t => (t.mcr, Memory.readWord t.mem 0xFFFC#16,
    t.regs.r6, t.pc)) = some (0x8001#16, 0#16, 0xFFFC#16, 0x0600#16) := by rfl

/-! ## Memory unit, PIC and devices (95_test_vectors.md sections 3 and 4) -/

theorem test_memory_lanes : (storeWord 0x4001#16 0xABAB#16 0xFF00#16 (with1 0x4000#16 0x5566#16 base)).mem
    = (with1 0x4000#16 0xAB66#16 base).mem := by decide
theorem test_kbsr_byteWrite : (storeWord 0xFE01#16 0#16 0xFF00#16 base).kbd.ie = false
    ∧ (storeWord 0xFE00#16 0#16 0x00FF#16 base).kbd.ie = true := by decide
theorem test_pic_scan : ({ irr := 0x2C#8, isr := 0#8, imr := 0#8, cmd := 0#16 } : Pic).tick false 2#3
    = ({ irr := 0x0C#8, isr := 0x20#8, imr := 0#8, cmd := 0#16 }, some (0x85#8, 5#3)) := by decide
theorem test_pic_masked : (({ irr := 0#8, isr := 0#8, imr := 0x10#8, cmd := 0#16 } : Pic).raise 4#3).irr = 0#8 := by decide
theorem test_display : (devicesTicks 2 (storeWord 0xFE06#16 0x0158#16 0xFFFF#16 base)).output = [0x58#8]
    ∧ (devicesTicks 1 (storeWord 0xFE06#16 0x0158#16 0xFFFF#16 base)).output = [] := by decide
/-- An idle display with its interrupt enabled interrupts through line 3 (60_exceptions.md R241). -/
theorem test_display_raises : (devicesTick { base with dsp := { base.dsp with ie := true } }).intv = 0x83#8
    ∧ (devicesTick { base with dsp := { base.dsp with ie := true } }).pic.isr = 0x08#8 := by decide
/-- An unread byte raises line 4 again once it is finished (60_exceptions.md R236). -/
theorem test_kbd_raisesAgain : (devicesTick (withPsr 0x0400#16 { base with
    kbd := { base.kbd with ready := true }, pic := Pic.finish { base.pic with isr := 0x10#8 } 4#3 })).pic.irr = 0x10#8 := by decide
theorem test_mcr_stops : (storeWord 0xFFFE#16 0x7FFF#16 0xFFFF#16 base).clockOn = false := by decide

/-! ## Loader and host hooks -/

theorem test_withFetchWord : (nextOf (step (State.reset.withFetchWord 16 0x1025))).map (fun t => t.regs.r0) = some 5#16 := by decide
theorem test_launch : (nextOf (step (launch [(0x3000#16, [0x25#8, 0x10#8])] 0x3000#16 base.regs 0 0 base.psr State.reset))).map
    (fun t => (t.regs.r0, t.pc)) = some (5#16, 0x3002#16) := by decide
theorem test_decodeTableWord : decodeTableWord 16 0x72BF = some (.stw .r1 .r2 63#6) := by decide

/-! ## Witnesses: for each statement with hypotheses, states and operands that meet them, at the edges of its clauses -/

/-- A running machine in a micro-state. -/
def atState (k : UState) : State := { base with ustate := k }

/-- Register 2 as a base, and the word at the address it holds. -/
def pointing (r2 v : Word) : State := with1 0x4000#16 v (regs 0x1111#16 r2 0)

theorem witness_DecodeAfterEncode : (Instr.ldb .r7 .r0 63#6).wellFormed = true ∧ (Instr.br true true true 511#9).wellFormed = true := by
  decide
/-- For the ALU forms, the shifts, LEA, BR and the calls. -/
theorem witness_runs : base.runs = true ∧ (regs 0x8000#16 0xFFFF#16 1).runs = true := by decide
theorem witness_CallResult : base.runs = true ∧ Reg.r6 ≠ Reg.r7 := by decide
theorem witness_BranchResult : base.runs = true ∧ (withPsr 4 base).psr.n = true ∧ (withPsr 2 base).psr.z = true
    ∧ (withPsr 1 base).psr.p = true ∧ base.psr.n = false ∧ base.psr.z = false ∧ base.psr.p = false := by decide
/-- For LDB, STB and TRAP: an even address and an odd one. -/
theorem witness_atEntry : (pointing 0x4000#16 0).atEntry = true ∧ isOdd (byteAddress (pointing 0x4000#16 0).regs .r2 0#6) = false
    ∧ isOdd (byteAddress (pointing 0x4000#16 0).regs .r2 1#6) = true := by decide
/-- For LDW and STW: the least and the greatest offset. -/
theorem witness_LdwResult : (pointing 0x4000#16 0).atEntry = true
    ∧ (wordAddress (pointing 0x4000#16 0).regs .r2 0x20#6).getLsbD 0 = false
    ∧ (wordAddress (pointing 0x4000#16 0).regs .r2 0x1F#6).getLsbD 0 = false := by decide
/-- For LDI and STI with both addresses even, the second the last word of the array. -/
theorem witness_LdiResult : (pointing 0x4000#16 0xFDFE#16).atEntry = true
    ∧ (wordAddress (pointing 0x4000#16 0xFDFE#16).regs .r2 0#6).getLsbD 0 = false
    ∧ (loadWord (wordAddress (pointing 0x4000#16 0xFDFE#16).regs .r2 0#6)
        (devicesTicks 3 (pointing 0x4000#16 0xFDFE#16))).1.getLsbD 0 = false := by decide
theorem witness_JumpResult : (regs 0 0 0x4000#16).runs = true ∧ (regs 0 0 0x4000#16).cfg.jmpAlignCheck = true
    ∧ ((regs 0 0 0x4000#16).regs.get .r3).getLsbD 0 = false
    ∧ ({ regs 0 0 0x4001#16 with cfg := { Params.default with jmpAlignCheck := false } } : State).runs = true := by decide
theorem witness_RtiResult : framed.atEntry = true ∧ framed.psr.priv = .supervisor
    ∧ (Psr.ofWord (loadWord 0x2FFE#16 framed).1).priv = .user
    ∧ (Psr.ofWord (loadWord 0x3000#16 framed).1).priv = .supervisor := by decide
theorem witness_OddFirstAddressTraps : (pointing 0x4001#16 0).runs = true
    ∧ (wordAddress (pointing 0x4001#16 0).regs .r2 0#6).getLsbD 0 = true := by decide
theorem witness_OddSecondAddressTraps : (pointing 0x4000#16 0x5001#16).atEntry = true
    ∧ (wordAddress (pointing 0x4000#16 0x5001#16).regs .r2 0#6).getLsbD 0 = false
    ∧ (loadWord (wordAddress (pointing 0x4000#16 0x5001#16).regs .r2 0#6)
        (devicesTicks 3 (pointing 0x4000#16 0x5001#16))).1.getLsbD 0 = true := by decide
theorem witness_OddJumpTraps : (regs 0 0 0x4001#16).runs = true ∧ (regs 0 0 0x4001#16).cfg.jmpAlignCheck = true
    ∧ ((regs 0 0 0x4001#16).regs.get .r3).getLsbD 0 = true := by decide
theorem witness_UserRtiTraps : (withPsr 0x8000#16 base).runs = true ∧ (withPsr 0x8000#16 base).psr.priv = .user := by decide
theorem witness_RegisterFrame : (∃ t, exec (.addReg .r1 .r2 .r3) base = .next t) ∧ Reg.r7 ∉ (Instr.addReg .r1 .r2 .r3).writesRegs :=
  ⟨⟨_, rfl⟩, by decide⟩
theorem witness_StatusFrame : (∃ t, exec (.jmp .r3) (withPsr 0x8000#16 base) = .next t) ∧ (Instr.jmp .r3).writesFlags = false
    ∧ Instr.jmp .r3 ≠ .rti ∧ (withPsr 0x8000#16 base).psr.priv = .user := ⟨⟨_, rfl⟩, by decide⟩
theorem witness_SpecialRegisterFrame : (∃ t, exec .rti waiting = .next t) ∧ (∀ n z p o, Instr.rti ≠ .br n z p o)
    ∧ waiting.intf = true ∧ (∃ t, exec (.jmp .r3) waiting = .next t) := ⟨⟨_, rfl⟩, nofun, rfl, ⟨_, rfl⟩⟩
theorem witness_MemoryFrameOfNonStores : (∃ t, exec (.ldb .r1 .r2 0#6) base = .next t) ∧ (Instr.ldb .r1 .r2 0#6).stores = false :=
  ⟨⟨_, rfl⟩, rfl⟩
theorem witness_MemoryFrameOfStores : (pointing 0x4000#16 0x5000#16).atEntry = true ∧ (pointing 0x4000#16 0x5000#16).dataInv = true
    ∧ (∃ t, exec (.stb .r1 .r2 1#6) (pointing 0x4000#16 0x5000#16) = .next t)
    ∧ (∃ t, exec (.stw .r1 .r2 0#6) (pointing 0x4000#16 0x5000#16) = .next t)
    ∧ (∃ t, exec (.sti .r1 .r2 0#6) (pointing 0x4000#16 0x5000#16) = .next t) :=
  ⟨by decide, by decide, ⟨_, rfl⟩, ⟨_, rfl⟩, ⟨_, rfl⟩⟩
/-- The last word of the array as the place of the instruction. -/
theorem witness_StepRunsDecodedInstruction : (with1 0xFDFE#16 0x1283#16 { base with pc := 0xFDFE#16 }).fetches = true
    ∧ inArray 0xFDFE#16 = true
    ∧ decode [Memory.read (with1 0xFDFE#16 0x1283#16 base).mem 0xFDFE, Memory.read (with1 0xFDFE#16 0x1283#16 base).mem 0xFDFF]
        = .ok (.addReg .r1 .r2 .r3, []) := ⟨by decide, by decide, by rfl⟩
/-- A fetch from the keyboard's data register. -/
theorem witness_StepFetchesLikeALoad : ({ base with pc := 0xFE02#16, ustate := 19#6 } : State).fetches = true := by decide
/-- A service with the supervisor stack at an address. -/
def stackAt (sp : Word) (s : State) : State := { s with regs := { s.regs with r6 := sp }, ssp := sp }

/-- Both pushes in the array, both on devices, the lowest stack and an odd one, and a push onto MCR that leaves the clock on:
a user's PSR, and a PC with bit 15 set. -/
theorem witness_StepServesLatchedEvent : waiting.serves = true ∧ waiting.pushesKeepClock = true ∧ violated.serves = true
    ∧ violated.pushesKeepClock = true ∧ (stackAt 0xFE08#16 waiting).serves = true ∧ (stackAt 0xFE08#16 waiting).pushesKeepClock = true
    ∧ (stackAt 4#16 waiting).pushesKeepClock = true ∧ (stackAt 0xFE01#16 waiting).pushesKeepClock = true
    ∧ (stackAt 0#16 violated).serves = true ∧ (stackAt 0#16 violated).pushesKeepClock = true
    ∧ (stackAt 2#16 { waiting with pc := 0x8000#16 }).pushesKeepClock = true := by decide
theorem witness_ServiceFrameLayout : waiting.dataInv = true ∧ violated.dataInv = true
    ∧ (stackAt 4#16 waiting).dataInv = true ∧ inArray ((stackAt 4#16 waiting).serviceStack - 4#16) = true
    ∧ inArray ((stackAt 4#16 waiting).serviceStack - 2#16) = true
    ∧ inArray ((stackAt 0xFE02#16 waiting).serviceStack - 2#16) = false ∧ inArray ((stackAt 0xFE02#16 waiting).serviceStack - 4#16) = true
    ∧ (stackAt 0xFE02#16 waiting).pushesKeepClock = true := by decide
/-- The first push onto MCR through an even and an odd pointer, then the second, from either mode. -/
theorem witness_PushOntoMcrStopsTheClock : (stackAt 0#16 waiting).serves = true ∧ waiting.psr.priv = .supervisor
    ∧ evenAddr ((stackAt 0#16 waiting).regs.get .r6 - 2#16) = 0xFFFE#16 ∧ evenAddr ((stackAt 1#16 waiting).regs.get .r6 - 2#16) = 0xFFFE#16
    ∧ ontoMcr.serves = true ∧ ontoMcr.pc.getLsbD 15 = false ∧ evenAddr (ontoMcr.serviceStack - 4#16) = 0xFFFE#16
    ∧ (stackAt 3#16 violated).serves = true ∧ violated.psr.priv = .user ∧ violated.pc.getLsbD 15 = false
    ∧ evenAddr ((stackAt 3#16 violated).serviceStack - 4#16) = 0xFFFE#16 := by decide
theorem witness_StoppedClockKeepsState : State.reset.mcr.getLsbD 15 = false := by decide
theorem witness_BreakByteEndsTheRun : ({ base with input := [(0, 0x03#8)] } : State).clockOn = true
    ∧ base.kbd.ready = false ∧ 0 ≤ base.ticks := by decide
theorem witness_UnusedStatesFault : (atState 26#6).runs = true ∧ (atState 63#6).ustate ∈ [26#6, 46#6, 53#6, 55#6, 57#6, 61#6, 63#6] := by
  decide
/-- A fetch state, and the middle of a read. -/
theorem witness_StepIsTheTickLoop : base.memUnitInv = true ∧ ({ atState 33#6 with rdEn := true, busy := 1 } : State).memUnitInv = true := by
  decide
theorem witness_EveryStepCompletes : base.inv = true ∧ base.runs = true
    ∧ ({ atState 25#6 with rdEn := true, busy := 1 } : State).inv = true := by decide
theorem witness_StepKeepsInvariant : base.inv = true ∧ (∃ t, step base = .next t) ∧ (∃ t, tick base = .next t) :=
  ⟨by decide, ⟨_, rfl⟩, ⟨_, rfl⟩⟩
theorem witness_ResetMeetsInvariant : framed.dataInv = true ∧ (∃ s, hostReset framed = hostReset s) := ⟨by decide, _, rfl⟩
theorem witness_TickLatchesIr : (atState 35#6).runs = true ∧ (atState 35#6).ustate = 35#6 := by decide
theorem witness_TickDecodes : (atState 32#6).runs = true ∧ (atState 32#6).ustate = 32#6 := by decide
theorem witness_TickChecksAlignment : [2#6, 3#6, 6#6, 7#6, 10#6, 11#6, 58#6, 62#6].all (fun k => (atState k).runs) = true := by decide
theorem witness_TickOfWaitStates : readStates.all (fun k => (atState k).runs) = true ∧ writeStates.all (fun k => (atState k).runs) = true
    ∧ (atState 25#6).rdEn = false ∧ (atState 16#6).wrEn = false
    ∧ 0 < (devicesTick { atState 25#6 with rdEn := true, busy := 2 }).busy
    ∧ (devicesTick { atState 25#6 with rdEn := true, busy := 1 }).busy = 0 := by decide
theorem witness_RegistersChangeOnlyInTheirStates : (∃ t, tick base = .next t) ∧ base.ustate ≠ 35#6 ∧ base.ustate ≠ 32#6
    ∧ base.ustate ∉ readStates ++ [23#6, 24#6, 49#6, 43#6] ∧ base.ustate ≠ 45#6 ∧ base.ustate ≠ 59#6 ∧ base.ustate ≠ 54#6
    ∧ waiting.intf = true ∧ (∃ t, tick (atState 1#6) = .next t) := ⟨⟨_, rfl⟩, by decide, by decide, by decide, by decide, by decide,
      by decide, rfl, ⟨_, rfl⟩⟩
/-- State 50 from user mode, and state 42 with a user's PSR in MDR. -/
theorem witness_ModeChangesOnlyThere : ({ violated with ustate := 50#6 } : State).sequencerInv = true
    ∧ (nextOf (tick { violated with ustate := 50#6 })).map (fun t => t.psr.priv) = some .supervisor
    ∧ ({ atState 42#6 with mdr := 0x8000#16 } : State).sequencerInv = true
    ∧ (nextOf (tick { atState 42#6 with mdr := 0x8000#16 })).map (fun t => t.psr.priv) = some .user := by decide
/-- The first and the last byte of the array, and the word beside it. -/
theorem witness_LoadAfterStore : base.dataInv = true ∧ inArray 0#16 = true ∧ inArray 0xFDFF#16 = true
    ∧ evenAddr 0xFE00#16 ≠ evenAddr 0xFDFF#16 := by decide
theorem witness_WriteBlockPlacesBytes : base.dataInv = true ∧ (0xFDFE#16 : Word).toNat + [0x25#8, 0x10#8].length ≤ 0xFE00 := by decide
theorem witness_LoadedInstructionRunsFirst : State.reset.dataInv = true ∧ State.reset.input = []
    ∧ (0xFDFE#16 : Word).getLsbD 0 = false ∧ (0xFDFE#16 : Word).toNat < 0xFE00 := by decide
/-- The highest line above the lowest priority, and no line above the highest. -/
theorem witness_PicDispatch : hasLine 0x80#8 7#3 = true ∧ (0#3 : Line).toNat < (7#3 : Line).toNat
    ∧ (∀ m : Line, (7#3 : Line).toNat < m.toNat → hasLine 0x80#8 m = false)
    ∧ (∀ l : Line, (7#3 : Line).toNat < l.toNat → hasLine 0xFF#8 l = false)
    ∧ hasLine 0x02#8 1#3 = true ∧ (∀ m : Line, (1#3 : Line).toNat < m.toNat → hasLine 0x02#8 m = false)
    ∧ waiting.pic.tick false 0#3 = (waiting.pic, none)
    ∧ ({ base.pic with irr := 0x20#8 } : Pic).tick false 3#3 = ({ base.pic with isr := 0x20#8 }, some (0x85#8, 5#3)) := by decide
theorem witness_LatchedEventIsStable : waiting.intf = true ∧ hasLine ({ waiting.pic with irr := 0x80#8 } : Pic).irr 7#3 = true := by decide
/-- An unread byte with the interrupt enabled. -/
def unread : State := { base with kbd := { base.kbd with ready := true } }

/-- A byte that arrives in this very tick, with the priority just below the line; and a byte not yet read, with the priority
at the line or an event latched. -/
theorem witness_KeyboardByteInterrupts : base.kbd.ready = false ∧ ({ base with input := [(0, 0x41#8)] } : State).input = (0, 0x41#8) :: []
    ∧ 0 ≤ base.ticks ∧ (0x41#8 : Byte) ≠ Config.breakByte ∧ base.kbd.ie = true ∧ base.dsp.ie = false ∧ base.pic.irr = 0#8
    ∧ hasLine base.pic.imr base.cfg.kbdIrq = false ∧ hasLine base.pic.isr base.cfg.kbdIrq = false
    ∧ (withPsr 0x0300#16 base).psr.priority.toNat < base.cfg.kbdIrq.toNat ∧ base.intf = false
    ∧ unread.kbd.ready = true ∧ unread.kbd.ie = true ∧ hasLine (devicesTicks 0 unread).pic.imr unread.cfg.kbdIrq = false
    ∧ hasLine (devicesTicks 0 unread).pic.isr unread.cfg.kbdIrq = false
    ∧ unread.cfg.kbdIrq.toNat ≤ (withPsr 0x0400#16 unread).psr.priority.toNat
    ∧ (devicesTicks 0 { unread with intf := true }).intf = true := by decide
/-- A delay of one tick too; then a tick that dispatches, one that does not, and the display ready and not. -/
theorem witness_DisplayEmitsAfterItsDelay : base.dsp.ready = true ∧ 1 ≤ base.cfg.dspDelay ∧ base.cfg.dspDelay - 1 < base.cfg.dspDelay
    ∧ ({ Params.default with dspDelay := 1 } : Params).wellFormed = true ∧ base.breakArrives = false ∧ unread.breakArrives = false
    ∧ ((unread.pic.raise unread.cfg.kbdIrq).tick unread.intf unread.psr.priority).2 = some (0x84#8, 4#3)
    ∧ (base.pic.tick base.intf base.psr.priority).2 = none
    ∧ (devicesTick (storeWord 0xFE06#16 0#16 0xFFFF#16 base)).dsp.ready = false := by decide
/-- Both sides of each condition, and the ends of the two reserved stretches. -/
theorem witness_DeviceRegisters : base.dsp.ready = true ∧ ({ base.dsp with ready := false } : Display).ready = false
    ∧ ({ base.pic with cmd := 3#16 } : Pic).cmd = base.cfg.cmdWriteImr ∧ base.pic.cmd ≠ base.cfg.cmdWriteImr
    ∧ [0xFE08#16, 0xFE0F#16, 0xFE14#16, 0xFFFD#16].all (fun a : Word => decide (0xFE00 ≤ (evenAddr a).toNat)
        && !([0xFE00#16, 0xFE02#16, 0xFE04#16, 0xFE06#16, 0xFE10#16, 0xFE12#16, 0xFFFE#16].contains (evenAddr a))) = true := by decide
theorem witness_PicDataRegister : base.cfg.wellFormed = true ∧ base.pic.cmd = base.cfg.cmdReadIrr
    ∧ ({ base.pic with cmd := 1#16 } : Pic).cmd = base.cfg.cmdReadIsr ∧ ({ base.pic with cmd := 2#16 } : Pic).cmd = base.cfg.cmdReadImr
    ∧ (3#16 : Word) ∉ [base.cfg.cmdReadIrr, base.cfg.cmdReadIsr, base.cfg.cmdReadImr] := by decide

end Sys2Proof.Tests
end

section


namespace Sys2Proof.Machine

/-! ### The condition flags as signs (10_state.md R18) -/

theorem Psr.setcc_n_iff (q : Psr) (v : Word) : (q.setcc v).n = true ↔ v.toInt < 0 := by
  rw [Psr.setcc_n, ← decide_eq_true_iff (p := v.toInt < 0), ← BitVec.msb_eq_toInt, BitVec.msb_eq_getLsbD_last]

theorem Psr.setcc_z_iff (q : Psr) (v : Word) : (q.setcc v).z = true ↔ v.toInt = 0 := by
  rw [Psr.setcc_z, beq_iff_eq, ← BitVec.toInt_inj, BitVec.toInt_zero]

/-- `P` is what the other two leave, so the three flags exclude each other. -/
theorem Psr.setcc_p_eq (q : Psr) (v : Word) : (q.setcc v).p = (!(q.setcc v).n && !(q.setcc v).z) := rfl

theorem Psr.setcc_p_iff (q : Psr) (v : Word) : (q.setcc v).p = true ↔ 0 < v.toInt := by
  rw [Psr.setcc_p_eq, Bool.and_eq_true, Bool.not_eq_true', Bool.not_eq_true', ← Bool.not_eq_true, ← Bool.not_eq_true,
    Psr.setcc_n_iff, Psr.setcc_z_iff]
  omega

/-- Settles O49: each flag is a sign of the value; the four examples of R18 are computed. -/
theorem conditionFlags : Obligations.ConditionFlags := by
  unfold Obligations.ConditionFlags
  intro q v
  exact ⟨q.setcc_n_iff v, q.setcc_z_iff v, q.setcc_p_iff v, q.setcc_priv v, q.setcc_priority v, rfl, rfl, rfl, rfl⟩

end Sys2Proof.Machine
end

section

namespace Sys2Proof.Machine

/-! ### One tick of a machine that runs, and the ticks of states 35 and 32 (40_microsequencer.md R91, R99, R101) -/

/-- A tick on a machine that runs, by the control-store entry of its state and the micro-operation there. -/
theorem tick_runs {s : State} {k : UState} (h : s.runs = true) (hk : s.ustate = k) {e : CsEntry} {r : Micro}
    (he : csEntry k = some e) (hr : microOp k (devicesTick s) = some r) :
    tick s = .next (conclude r (e.next r.ready r.st)) := by
  have hd : (devicesTick s).ustate = k := by rw [devicesTick_ustate, hk]
  calc tick s = cpuTick (devicesTick s) := systemTick_runs h cpuTick
    _ = .next (conclude r (e.next r.ready r.st)) := cpuTick_of (by rw [hd, he]) (by rw [hd, hr])

/-- The state that an opcode numbers: bits 15 to 12 of the word as a quotient (30_encoding.md R74). -/
theorem Word.opcode_setWidth_eq (w : Word) : (Word.opcode w).setWidth 6 = BitVec.ofNat 6 (w.toNat / 4096) := by
  apply BitVec.eq_of_toNat_eq
  simp only [Word.opcode, BitVec.toNat_setWidth, BitVec.extractLsb'_toNat, BitVec.toNat_ofNat, Nat.shiftRight_eq_div_pow]
  omega

/-- An entry with `ird` set dispatches on the opcode, whatever its other fields are (R92). -/
theorem CsEntry.next_ird {e : CsEntry} (h : e.ird = true) (ready : Bool) (s : State) :
    e.next ready s = BitVec.ofNat 6 (s.ir.toNat / 4096) :=
  (if_pos h).trans (Word.opcode_setWidth_eq s.ir)

/-- Settles O43: state 35 has no condition and one successor, and no device's tick changes MDR. -/
theorem tickLatchesIr : Obligations.TickLatchesIr := by
  unfold Obligations.TickLatchesIr
  intro s hr hk
  calc tick s = .next { devicesTick s with ir := (devicesTick s).mdr, ustate := 32#6 } := tick_runs hr hk rfl rfl
    _ = .next { devicesTick s with ir := s.mdr, ustate := 32#6 } := by rw [devicesTick_mdr]

/-- Settles O44: state 32's entry has `ird` set, and no device's tick changes the PSR or IR. -/
theorem tickDecodes : Obligations.TickDecodes := by
  unfold Obligations.TickDecodes
  intro s hr hk
  have hdecode : tick s = .next (conclude (uDecode (devicesTick s)) _) := tick_runs hr hk rfl rfl
  rw [hdecode, CsEntry.next_ird rfl]
  simp [uDecode, branchEnable]

end Sys2Proof.Machine
end

section

namespace Sys2Proof.Machine

/-! ### The controller's registers by their lines (10_state.md R28) -/

theorem hasLine_lineBit (l m : Line) : hasLine (lineBit l) m = (m == l) := by
  have hbit : lineBit l = BitVec.twoPow 8 l.toNat := rfl
  have hwidth : l.toNat < 8 := l.isLt
  rw [hasLine, hbit, BitVec.getLsbD_twoPow, decide_eq_true hwidth, Bool.true_and, Bool.eq_iff_iff, decide_eq_true_iff,
    beq_iff_eq, BitVec.toNat_inj, eq_comm]

theorem hasLine_or (a b : BitVec 8) (m : Line) : hasLine (a ||| b) m = (hasLine a m || hasLine b m) :=
  BitVec.getLsbD_or

theorem hasLine_and_not (a b : BitVec 8) (m : Line) : hasLine (a &&& ~~~b) m = (hasLine a m && !hasLine b m) := by
  have hwidth : m.toNat < 8 := m.isLt
  simp [hasLine, hwidth]

theorem hasLine_zero (m : Line) : hasLine 0#8 m = false := BitVec.getLsbD_zero

theorem Pic.dispatch_irr_hasLine (c : Pic) (l m : Line) :
    hasLine (c.dispatch l).irr m = (hasLine c.irr m && m != l) := by
  rw [Pic.dispatch, hasLine_and_not, hasLine_lineBit, bne]

theorem Pic.dispatch_isr_hasLine (c : Pic) (l m : Line) :
    hasLine (c.dispatch l).isr m = (hasLine c.isr m || m == l) := by
  rw [Pic.dispatch, hasLine_or, hasLine_lineBit]

/-! ### The scan and the controller's tick (60_exceptions.md R219) -/

theorem mem_scanOrder : ∀ l : Line, l ∈ scanOrder := by decide

theorem scanOrder_descending : scanOrder.Pairwise (fun k l => l.toNat < k.toNat) := by decide

/-- The scan stops at the highest line that passes: what stands before it is higher, so fails. -/
theorem scanOrder_find?_eq_some {p : Line → Bool} {l : Line} (hl : p l = true)
    (hhigher : ∀ m : Line, l.toNat < m.toNat → p m = false) : scanOrder.find? p = some l := by
  obtain ⟨before, after, hsplit⟩ := List.append_of_mem (mem_scanOrder l)
  have hbefore : ∀ m ∈ before, l.toNat < m.toNat := fun m hm =>
    (List.pairwise_append.1 (hsplit ▸ scanOrder_descending)).2.2 m hm l List.mem_cons_self
  rw [List.find?_eq_some_iff_append]
  exact ⟨hl, before, after, hsplit, fun m hm => by rw [hhigher m (hbefore m hm)]; rfl⟩

theorem Pic.select_highest {c : Pic} {prio l : Line} (hreq : hasLine c.irr l = true) (habove : prio.toNat < l.toNat)
    (hhigher : ∀ m : Line, l.toNat < m.toNat → hasLine c.irr m = false) : c.select false prio = some l := by
  rw [Pic.select, if_neg Bool.false_ne_true]
  exact scanOrder_find?_eq_some (by simp [hreq, habove]) fun m hm => by simp [hhigher m hm]

theorem Pic.select_none {c : Pic} {prio : Line} (pending : Bool)
    (h : ∀ l : Line, prio.toNat < l.toNat → hasLine c.irr l = false) : c.select pending prio = none := by
  cases pending with
  | true => rfl
  | false =>
    refine List.find?_eq_none.2 fun l _ hl => ?_
    obtain ⟨hreq, habove⟩ := Bool.and_eq_true_iff.1 hl
    simp [h l (of_decide_eq_true habove)] at hreq

theorem Pic.tick_of_select_some {c : Pic} {pending : Bool} {prio l : Line} (h : c.select pending prio = some l) :
    c.tick pending prio = (c.dispatch l, some (Config.irqBase ||| l.setWidth 8, l)) := by
  rw [Pic.tick, h]

theorem Pic.tick_of_select_none {c : Pic} {pending : Bool} {prio : Line} (h : c.select pending prio = none) :
    c.tick pending prio = (c, none) := by
  rw [Pic.tick, h]

/-- A line number fits below the base's bit, so joining the two is their sum. -/
theorem irqBase_or_line : ∀ l : Line, Config.irqBase ||| l.setWidth 8 = 0x80#8 + l.setWidth 8 := by decide

theorem picTick_of_tick_some {s : State} {c : Pic} {v : Vector8} {l : Line}
    (h : s.pic.tick s.intf s.psr.priority = (c, some (v, l))) :
    picTick s = { s with pic := c, intf := true, intv := v, intp := l } := by
  rw [picTick, h]

/-- Settles O54: the tick is its scan, which finds the highest requested line above the priority or none. -/
theorem picDispatch : Obligations.PicDispatch := by
  unfold Obligations.PicDispatch
  refine ⟨fun c prio => ⟨Pic.tick_of_select_none rfl, ?highest, ?none, ?worked⟩, fun s c v l h => picTick_of_tick_some h⟩
  case highest =>
    intro l hreq habove hhigher
    refine ⟨c.dispatch l, ?_, rfl, rfl, fun m => ⟨c.dispatch_irr_hasLine l m, c.dispatch_isr_hasLine l m⟩⟩
    rw [Pic.tick_of_select_some (Pic.select_highest hreq habove hhigher), irqBase_or_line]
  case none => exact fun h => Pic.tick_of_select_none (Pic.select_none false h)
  case worked =>
    intro hirr hisr
    refine ⟨?_, fun pending q => Pic.tick_of_select_none (Pic.select_none pending fun l _ => hasLine_zero l)⟩
    have hline5 : c.select false 3#3 = some 5#3 := by
      refine Pic.select_highest ?_ (by decide) ?_ <;> rw [hirr] <;> decide
    rw [Pic.tick_of_select_some hline5, Pic.dispatch, hirr, hisr]
    rfl

end Sys2Proof.Machine
end

section

namespace Sys2Proof.Machine

/-! ### A step is the loop (40_microsequencer.md R90, R102) -/

theorem step_of_fetch {s : State} (h : isFetchState s.ustate = true) : step s = andThen (fetchDecode s) afterDecode :=
  if_pos h

theorem step_of_not_fetch {s : State} (h : isFetchState s.ustate = false) : step s = runToFetch (runBound s) s :=
  if_neg (by simp [h])

/-- A fetch state is no wait state, so the memory unit is idle there. -/
theorem idle_of_fetch {s : State} (h : s.memUnitInv = true) (hf : isFetchState s.ustate = true) :
    s.rdEn = false ∧ s.wrEn = false ∧ s.busy = 0 := by
  have hnoWait : ∀ k, isFetchState k = true → readStates.contains k = false ∧ writeStates.contains k = false := by decide
  obtain ⟨hread, hwrite⟩ := hnoWait _ hf
  exact idle_of h hread hwrite

/-- Settles O39: from a fetch state the paths follow the loop link by link; from any other state a step is the loop. -/
theorem stepIsTheTickLoop : Obligations.StepIsTheTickLoop := by
  unfold Obligations.StepIsTheTickLoop
  intro s hmem
  cases hf : isFetchState s.ustate with
  | false => exact step_of_not_fetch hf
  | true =>
    obtain ⟨hrd, hwr, _⟩ := idle_of_fetch hmem hf
    have hbound : 3 * s.cfg.memDelay + 15 ≤ runBound s := by unfold runBound waitBound; omega
    rw [step_of_fetch hf, fetch_follows s hf ⟨rfl, rfl, hrd, hwr⟩ _ hbound]

/-! ### The wait states (40_microsequencer.md R95, R100) -/

theorem uRead_start {s : State} (h : s.rdEn = false) :
    uRead s = { st := { s with rdEn := true, busy := s.cfg.memDelay } } := by
  simp [uRead, memRead, h]

theorem uRead_hold {s : State} (h : s.rdEn = true) (hb : 0 < s.busy) : uRead s = { st := s } := by
  simp [uRead, memRead, h, hb]

theorem uRead_done {s : State} (h : s.rdEn = true) (hb : s.busy = 0) :
    uRead s = { st := { (loadWord s.mar s).2 with mdr := (loadWord s.mar s).1, rdEn := false }, ready := true } := by
  simp only [uRead, memRead, h, hb, loadWord_cpu, Bool.not_true, Bool.false_eq_true, Nat.lt_irrefl, if_false]
  congr 1
  apply State.ext_fields <;> simp [hb]

theorem uWriteMasked_start {s : State} (m : Word → Word) (h : s.wrEn = false) :
    uWriteMasked m s = { st := { s with wrEn := true, busy := s.cfg.memDelay } } := by
  simp [uWriteMasked, memWrite, h]

theorem uWriteMasked_hold {s : State} (m : Word → Word) (h : s.wrEn = true) (hb : 0 < s.busy) :
    uWriteMasked m s = { st := s } := by
  simp [uWriteMasked, memWrite, h, hb]

theorem uWriteMasked_done {s : State} (m : Word → Word) (h : s.wrEn = true) (hb : s.busy = 0) :
    uWriteMasked m s = { st := { storeWord s.mar s.mdr (m s.mar) s with wrEn := false }, ready := true } := by
  simp only [uWriteMasked, memWrite, h, hb, storeWord_cpu, Bool.not_true, Bool.false_eq_true, Nat.lt_irrefl, if_false]
  congr 1
  apply State.ext_fields <;> simp [hb]

/-- The mask of a write's wait state: the byte lane in state 17, the whole word in the others (42_load_store.md R150, R153). -/
def storeMask (k : UState) (a : Word) : Word := if k = 17#6 then laneMask a else 0xFFFF#16

theorem csEntry_readState : ∀ k ∈ readStates, csEntry k = some ⟨false, some .memReady, k⟩ := by decide

theorem csEntry_writeState : ∀ k ∈ writeStates, csEntry k = some ⟨false, some .memReady, k⟩ := by decide

theorem microOp_readState {k : UState} (hk : k ∈ readStates) (d : State) : microOp k d = some (uRead d) := by
  revert k
  simp only [readStates, List.forall_mem_cons, List.not_mem_nil, false_implies, implies_true, and_true]
  exact ⟨rfl, rfl, rfl, rfl, rfl, rfl, rfl, rfl, rfl⟩

theorem microOp_writeState {k : UState} (hk : k ∈ writeStates) (d : State) :
    microOp k d = some (uWriteMasked (storeMask k) d) := by
  revert k
  simp only [writeStates, List.forall_mem_cons, List.not_mem_nil, false_implies, implies_true, and_true]
  exact ⟨rfl, rfl, rfl, rfl⟩

theorem next_memReady (k : UState) (ready : Bool) (s : State) :
    CsEntry.next ⟨false, some .memReady, k⟩ ready s = if ready then k ||| 2#6 else k := rfl

/-- The tick of a wait state, by what its memory call answers. -/
theorem tick_wait {s : State} {r : Micro} (h : s.runs = true) (he : csEntry s.ustate = some ⟨false, some .memReady, s.ustate⟩)
    (hop : microOp s.ustate (devicesTick s) = some r) (hexc : r.exc = none) :
    tick s = .next { r.st with ustate := if r.ready then s.ustate ||| 2#6 else s.ustate } := by
  rw [tick_runs h rfl he hop, next_memReady, conclude, hexc]

theorem tick_readState {s : State} (h : s.runs = true) (hk : s.ustate ∈ readStates) :
    (s.rdEn = false → tick s = .next { devicesTick s with rdEn := true, busy := s.cfg.memDelay })
    ∧ (s.rdEn = true → 0 < (devicesTick s).busy → tick s = .next (devicesTick s))
    ∧ (s.rdEn = true → (devicesTick s).busy = 0 → tick s = .next { (loadWord s.mar (devicesTick s)).2 with
        mdr := (loadWord s.mar (devicesTick s)).1, rdEn := false, ustate := s.ustate ||| 2#6 }) := by
  have hop := microOp_readState hk (devicesTick s)
  refine ⟨fun hrd => ?start, fun hrd hb => ?hold, fun hrd hb => ?done⟩
  case start =>
    rw [uRead_start (by rw [devicesTick_rdEn, hrd])] at hop
    rw [tick_wait h (csEntry_readState _ hk) hop rfl, ← devicesTick_cfg s, ← devicesTick_ustate s]
    rfl
  case hold =>
    rw [uRead_hold (by rw [devicesTick_rdEn, hrd]) hb] at hop
    rw [tick_wait h (csEntry_readState _ hk) hop rfl, ← devicesTick_ustate s]
    rfl
  case done =>
    rw [uRead_done (by rw [devicesTick_rdEn, hrd]) hb, devicesTick_mar] at hop
    rw [tick_wait h (csEntry_readState _ hk) hop rfl]
    rfl

theorem tick_writeState {s : State} (h : s.runs = true) (hk : s.ustate ∈ writeStates) :
    (s.wrEn = false → tick s = .next { devicesTick s with wrEn := true, busy := s.cfg.memDelay })
    ∧ (s.wrEn = true → 0 < (devicesTick s).busy → tick s = .next (devicesTick s))
    ∧ (s.wrEn = true → (devicesTick s).busy = 0 → tick s = .next
        { storeWord s.mar s.mdr (storeMask s.ustate s.mar) (devicesTick s) with wrEn := false, ustate := s.ustate ||| 2#6 }) := by
  have hop := microOp_writeState hk (devicesTick s)
  refine ⟨fun hwr => ?start, fun hwr hb => ?hold, fun hwr hb => ?done⟩
  case start =>
    rw [uWriteMasked_start _ (by rw [devicesTick_wrEn, hwr])] at hop
    rw [tick_wait h (csEntry_writeState _ hk) hop rfl, ← devicesTick_cfg s, ← devicesTick_ustate s]
    rfl
  case hold =>
    rw [uWriteMasked_hold _ (by rw [devicesTick_wrEn, hwr]) hb] at hop
    rw [tick_wait h (csEntry_writeState _ hk) hop rfl, ← devicesTick_ustate s]
    rfl
  case done =>
    rw [uWriteMasked_done _ (by rw [devicesTick_wrEn, hwr]) hb, devicesTick_mar, devicesTick_mdr] at hop
    rw [tick_wait h (csEntry_writeState _ hk) hop rfl]
    rfl

/-- Settles O46: the call of a read's or a write's wait state starts, holds or completes the operation. -/
theorem tickOfWaitStates : Obligations.TickOfWaitStates := by
  unfold Obligations.TickOfWaitStates
  exact fun s h => ⟨tick_readState h, tick_writeState h⟩

end Sys2Proof.Machine
end

section

namespace Sys2Proof.Machine

/-! ### What the micro-operation of a state may write (10_state.md R19 to R24, 40_microsequencer.md R94) -/

/-- The states that write MAR (10_state.md R21). -/
def marStates : List UState :=
  [18#6, 19#6, 2#6, 3#6, 6#6, 7#6, 10#6, 11#6, 58#6, 62#6, 15#6, 8#6, 39#6, 37#6, 47#6, 50#6]

/-- What the micro-operation of state `k` leaves alone, where `t` is the state it leaves of `d`. -/
structure MicroFrame (k : UState) (d t : State) : Prop where
  cfg : t.cfg = d.cfg
  input : t.input = d.input
  ir : k ≠ 35#6 → t.ir = d.ir
  ben : k ≠ 32#6 → t.ben = d.ben
  mar : k ∉ marStates → t.mar = d.mar
  mdr : k ∉ readStates ++ [23#6, 24#6, 49#6, 43#6] → t.mdr = d.mdr
  usp : k ≠ 45#6 → t.usp = d.usp
  ssp : k ≠ 59#6 → t.ssp = d.ssp
  intf : k ≠ 54#6 → t.intf = d.intf
  priv : k ∉ [50#6, 42#6] → t.psr.priv = d.psr.priv
  unit : k ∉ readStates → k ∉ writeStates → t.rdEn = d.rdEn ∧ t.wrEn = d.wrEn ∧ t.busy = d.busy ∧ t.mem = d.mem
    ∧ t.dsp = d.dsp ∧ (t.pic = d.pic ∨ t.pic = d.pic.finish d.psr.priority)

theorem ustate_eq_of_toNat {k : UState} {n : Nat} (h : k.toNat = n) : k = BitVec.ofNat 6 n := by
  rw [← h, BitVec.ofNat_toNat, BitVec.setWidth_eq]

theorem uJump_st (base : Reg) (s : State) : (uJump base s).st = { s with
    pc := if s.cfg.jmpAlignCheck && isOdd (s.regs.get base) then s.pc else s.regs.get base } := by
  unfold uJump
  split <;> rfl

theorem uRead_frame {k : UState} (hk : k ∈ readStates) (d : State) : MicroFrame k d (uRead d).st := by
  obtain ⟨_, _, _, _, hshape⟩ := uRead_shape d
  rw [hshape]
  constructor <;> simp [hk]

theorem uWriteMasked_frame {k : UState} (hk : k ∈ writeStates) (m : Word → Word) (d : State) :
    MicroFrame k d (uWriteMasked m d).st := by
  obtain ⟨_, _, _, _, _, _, _, hshape⟩ := uWriteMasked_shape m d
  rw [hshape]
  constructor <;> simp [hk]

theorem microOp_frame {k : UState} {d : State} {r : Micro} (h : microOp k d = some r) : MicroFrame k d r.st := by
  by_cases hread : k ∈ readStates
  · obtain rfl := Option.some.inj ((microOp_readState hread d).symm.trans h)
    exact uRead_frame hread d
  by_cases hwrite : k ∈ writeStates
  · obtain rfl := Option.some.inj ((microOp_writeState hwrite d).symm.trans h)
    exact uWriteMasked_frame hwrite _ d
  unfold microOp at h
  split at h <;> rename_i hk <;> cases h <;> obtain rfl := ustate_eq_of_toNat hk <;>
    simp [readStates, writeStates] at hread hwrite
  all_goals
    constructor <;>
    simp [uNone, uAdd, uAnd, uXor, uShift, uLea, uByteAddress, uWordAddress_shape, uDereference_shape, uJump_st, uLoadWord,
      uLoadByte, uStoreData, uStoreByteData, uBranch, uCallRegister, uCallRelative, uTrapEntry, uPcMdr, uMdrPc, uFetch,
      uLatchIr, uDecode, uServiceEntry, uToSupervisorStack, uPushAddress, uServiceMode, uServiceJump, uRtiEntry,
      uPrivilegeViolation, uPopAddress, uRestorePsr, uPopEnd, uToUserStack, marStates, readStates]

/-! ### What a tick may change -/

theorem cpuTick_cases {d t : State} (h : cpuTick d = .next t) :
    ∃ e r, csEntry d.ustate = some e ∧ microOp d.ustate d = some r ∧ t = conclude r (e.next r.ready r.st) := by
  unfold cpuTick at h
  split at h
  · rename_i e r he hr
    exact ⟨e, r, he, hr, (Host.Outcome.next.inj h).symm⟩
  · cases h

/-- A tick that answers a next state: the clock is off and nothing changed, or the CPU ticked after the other blocks. -/
theorem tick_cases {s t : State} (h : tick s = .next t) :
    t = s ∨ (s.breakArrives = false ∧ cpuTick (devicesTick s) = .next t) := by
  rw [tick] at h
  rcases systemTick_cases cpuTick s with ⟨_, e⟩ | ⟨_, _, e⟩ | ⟨_, hb, e⟩ <;> rw [e] at h
  · exact .inl (Host.Outcome.next.inj h).symm
  · cases h
  · exact .inr ⟨hb, h⟩

/-- The end of a CPU tick writes the state number, and at most sets the latch. -/
theorem conclude_shape (r : Micro) (k : UState) : ∃ f v p u,
    conclude r k = { r.st with intf := f, intv := v, intp := p, ustate := u } ∧ (f = r.st.intf ∨ f = true) := by
  unfold conclude
  cases r.exc with
  | none => exact ⟨_, _, _, _, rfl, .inl rfl⟩
  | some v => exact ⟨_, _, _, _, rfl, .inr rfl⟩

theorem tick_shape {s t : State} (h : tick s = .next t) : t = s ∨ ∃ u f v p k, MicroFrame s.ustate (devicesTick s) u
    ∧ t = { u with intf := f, intv := v, intp := p, ustate := k } ∧ (f = u.intf ∨ f = true) := by
  refine (tick_cases h).imp_right fun ⟨_, hcpu⟩ => ?_
  obtain ⟨e, r, _, hop, rfl⟩ := cpuTick_cases hcpu
  rw [devicesTick_ustate] at hop
  obtain ⟨f, v, p, k, hshape, hf⟩ := conclude_shape r (e.next r.ready r.st)
  exact ⟨r.st, f, v, p, k, microOp_frame hop, hshape, hf⟩

/-- Settles O47: the devices' ticks write none of these registers, and a micro-operation only those of its state. -/
theorem registersChangeOnlyInTheirStates : Obligations.RegistersChangeOnlyInTheirStates := by
  unfold Obligations.RegistersChangeOnlyInTheirStates
  intro s t h
  rcases tick_shape h with rfl | ⟨u, f, v, p, k, hu, rfl, hf⟩
  · exact ⟨fun _ => rfl, fun _ => rfl, fun _ => rfl, fun _ => rfl, fun _ => rfl, fun _ => rfl, fun _ hi => hi⟩
  · refine ⟨fun hk => ?_, fun hk => ?_, fun hk => ?_, fun hk => ?_, fun hk => ?_, fun hk => ?_, fun hk hi => ?latch⟩
    case latch =>
      have hkept : u.intf = true := (hu.intf hk).trans (devicesTick_intf_mono hi)
      exact hf.elim (fun e => e.trans hkept) id
    · exact (hu.ir hk).trans (devicesTick_ir s)
    · exact (hu.ben hk).trans (devicesTick_ben s)
    · exact (hu.mar hk).trans (devicesTick_mar s)
    · exact (hu.mdr hk).trans (devicesTick_mdr s)
    · exact (hu.usp hk).trans (devicesTick_usp s)
    · exact (hu.ssp hk).trans (devicesTick_ssp s)

theorem Mode.eq_user_of_ne {a : Mode} (h : a ≠ .supervisor) : a = .user := by
  cases a with
  | supervisor => exact absurd rfl h
  | user => rfl

/-- Settles O48: states 50 and 42 alone write the mode; 50 sets supervisor, and 42 starts in supervisor mode. -/
theorem modeChangesOnlyThere : Obligations.ModeChangesOnlyThere := by
  unfold Obligations.ModeChangesOnlyThere
  intro s t hinv h hne
  rcases tick_cases h with rfl | ⟨_, hcpu⟩
  · exact absurd rfl hne
  obtain ⟨e, r, _, hop, rfl⟩ := cpuTick_cases hcpu
  rw [devicesTick_ustate] at hop
  obtain ⟨f, v, p, k, hshape, _⟩ := conclude_shape r (e.next r.ready r.st)
  rw [hshape] at hne ⊢
  by_cases hk : s.ustate ∈ [50#6, 42#6]
  · rcases List.mem_pair.1 hk with h50 | h42
    · rw [h50] at hop
      obtain rfl := Option.some.inj (hop : some (uServiceMode (devicesTick s)) = some r)
      exact .inl ⟨h50, rfl⟩
    · have hsup : s.psr.priv = .supervisor :=
        ((sequencerInv_iff s).1 hinv).2.2.resolve_left (by rw [h42]; decide)
      exact .inr ⟨h42, Mode.eq_user_of_ne (hsup ▸ hne)⟩
  · exact absurd (((microOp_frame hop).priv hk).trans (congrArg Psr.priv (devicesTick_psr s))) hne

/-! ### The invariant through a CPU tick (10_state.md R26, R27) -/

/-- The next state as a function of the opcode and the sampled signal alone (40_microsequencer.md R92). -/
def CsEntry.target (e : CsEntry) (op : BitVec 4) (sig : Bool) : UState :=
  if e.ird then op.setWidth 6
  else match e.cond with
    | none => e.base
    | some c => if sig then e.base ||| c.mask else e.base

theorem CsEntry.next_eq_target (e : CsEntry) (ready : Bool) (s : State) :
    ∃ sig, e.next ready s = e.target (Word.opcode s.ir) sig ∧ ∀ c, e.cond = some c → signal c ready s = sig := by
  obtain ⟨ird, cond, base⟩ := e
  cases cond with
  | none => exact ⟨false, rfl, nofun⟩
  | some c => exact ⟨signal c ready s, rfl, fun c' hc => by rw [Option.some.inj hc]⟩

/-- The control store's edges: none leads to an unused state; the service sequence is entered on a pending event; the
states of RTI's pops are entered on the supervisor's branch of a privilege test. -/
theorem target_edges : ∀ k : UState, ∀ e ∈ csEntry k, ∀ (op : BitVec 4) (sig : Bool),
    unusedStates.contains (e.target op sig) = false
    ∧ (serviceStates.contains (e.target op sig) = false
      ∨ (serviceStates.contains k = true ∧ k ≠ 54#6) ∨ (e.cond = some .interruptPending ∧ sig = true))
    ∧ (popStates.contains (e.target op sig) = false
      ∨ (popStates.contains k = true ∧ k ∉ [50#6, 42#6]) ∨ (e.cond = some .privilege ∧ sig = false)) := by
  decide +kernel

/-- Bit 1 leads from a wait state to a state of the same sequence. -/
theorem readState_edges : ∀ k ∈ readStates, readStates.contains k = true ∧ writeStates.contains k = false
    ∧ unusedStates.contains (k ||| 2#6) = false ∧ serviceStates.contains (k ||| 2#6) = serviceStates.contains k
    ∧ popStates.contains (k ||| 2#6) = popStates.contains k := by decide

theorem writeState_edges : ∀ k ∈ writeStates, readStates.contains k = false ∧ writeStates.contains k = true
    ∧ unusedStates.contains (k ||| 2#6) = false
    ∧ (serviceStates.contains (k ||| 2#6) = false ∨ serviceStates.contains k = true)
    ∧ popStates.contains (k ||| 2#6) = false := by decide

theorem cpuTick_inv {d t : State} (h : d.inv = true) (ht : cpuTick d = .next t) : t.inv = true := by
  by_cases hread : d.ustate ∈ readStates
  · obtain ⟨hin, hout, hused, hservice, hpop⟩ := readState_edges _ hread
    exact cpuTick_inv_read h rfl (csEntry_readState _ hread) (microOp_readState hread d) ht rfl hin hout hused hservice hpop
  by_cases hwrite : d.ustate ∈ writeStates
  · obtain ⟨hout, hin, hused, hservice, hpop⟩ := writeState_edges _ hwrite
    exact cpuTick_inv_write h _ rfl (csEntry_writeState _ hwrite) (microOp_writeState hwrite d) ht rfl hout hin hused hservice
      hpop
  obtain ⟨e, r, he, hop, _⟩ := cpuTick_cases ht
  obtain ⟨sig, htarget, hsig⟩ := e.next_eq_target r.ready r.st
  obtain ⟨hused, hservice, hpop⟩ := target_edges _ e he (Word.opcode r.st.ir) sig
  rw [← htarget] at hused hservice hpop
  obtain ⟨_, hlatched, hsupervisor⟩ := (sequencerInv_iff d).1 ((inv_iff d).1 h).1
  have hframe := microOp_frame hop
  obtain ⟨hrd, hwr, hbusy, hmem, hdsp, hpic⟩ := hframe.unit hread hwrite
  refine cpuTick_inv_micro h he hop ht (by simp [hread, hwrite]) hused ?_ ?_ ⟨hrd, hwr, hbusy, hmem, hdsp, hframe.cfg, hpic⟩
  · refine hservice.imp_right fun hin => hin.elim (fun ⟨hk, h54⟩ => ?_) fun ⟨hc, hs⟩ => ?_
    · exact (hframe.intf h54).trans (hlatched.resolve_left (by simp only [hk, Bool.true_eq_false, not_false_eq_true]))
    · exact (hsig _ hc).trans hs
  · refine hpop.imp_right fun hin => hin.elim (fun ⟨hk, hwrites⟩ => ?_) fun ⟨hc, hs⟩ => ?_
    · exact (hframe.priv hwrites).trans (hsupervisor.resolve_left (by simp only [hk, Bool.true_eq_false, not_false_eq_true]))
    · have huser : (r.st.psr.priv == .user) = false := (hsig _ hc).trans hs
      cases hp : r.st.psr.priv with
      | supervisor => rfl
      | user => simp [hp] at huser

theorem tick_inv {s t : State} (h : s.inv = true) (ht : tick s = .next t) : t.inv = true := by
  rcases tick_cases ht with rfl | ⟨_, hcpu⟩
  · exact h
  · exact cpuTick_inv (devicesTick_inv h) hcpu

theorem runToFetch_inv {n : Nat} {s t : State} (h : s.inv = true) (ht : runToFetch n s = .next t) : t.inv = true := by
  induction n generalizing s with
  | zero => exact Host.Outcome.next.inj ht ▸ h
  | succ n ih =>
    rw [runToFetch_succ] at ht
    cases htick : tick s with
    | fault r => rw [htick] at ht; cases ht
    | refused r => rw [htick] at ht; cases ht
    | next u =>
      rw [htick, andThen_next, rest] at ht
      have hu := tick_inv h htick
      split at ht
      · exact Host.Outcome.next.inj ht ▸ hu
      · exact ih hu ht

/-- Settles O41: a tick keeps the invariant by its state's edges, and a step is ticks. -/
theorem stepKeepsInvariant : Obligations.StepKeepsInvariant := by
  unfold Obligations.StepKeepsInvariant
  intro s t h
  refine ⟨tick_inv h, fun ht => runToFetch_inv (n := runBound s) h ?_⟩
  rw [← stepIsTheTickLoop s ((inv_iff s).1 h).2.1, ht]

end Sys2Proof.Machine
end

section

namespace Sys2Proof.Machine

/-! ### How far a fetch state is (40_microsequencer.md R94, R104) -/

/-- At most how many ticks outside the wait states, and how many wait states, a machine in each state has before it until it
is in a fetch state, the state itself counted; by the state's number, 0 for the unused ones. -/
def pathCosts : List (Nat × Nat) :=
  -- 0 to 7
  [(2, 0), (1, 0), (2, 1), (2, 1), (2, 0), (1, 0), (2, 1), (2, 1)]
  -- 8 to 15
  ++ [(6, 2), (1, 0), (3, 2), (3, 2), (1, 0), (1, 0), (1, 0), (2, 1)]
  -- 16 to 23
  ++ [(0, 1), (0, 1), (9, 3), (9, 3), (1, 0), (1, 0), (1, 0), (1, 1)]
  -- 24 to 31
  ++ [(1, 1), (1, 1), (0, 0), (1, 0), (1, 1), (1, 1), (1, 0), (1, 0)]
  -- 32 to 39
  ++ [(7, 2), (8, 3), (2, 0), (8, 2), (5, 2), (5, 3), (5, 1), (4, 1)]
  -- 40 to 47
  ++ [(3, 1), (4, 3), (3, 0), (4, 2), (1, 0), (6, 3), (0, 0), (3, 2)]
  -- 48 to 55
  ++ [(2, 2), (7, 3), (2, 1), (1, 0), (1, 1), (0, 0), (1, 0), (0, 0)]
  -- 56 to 63
  ++ [(2, 2), (0, 0), (2, 1), (1, 0), (2, 2), (0, 0), (2, 1), (0, 0)]

/-- The ticks outside wait states from a state on. -/
def plainTicks (k : UState) : Nat := (pathCosts.getD k.toNat (0, 0)).1

/-- The wait states from a state on. -/
def waitsAhead (k : UState) : Nat := (pathCosts.getD k.toNat (0, 0)).2

theorem pathCosts_pos : ∀ k : UState, unusedStates.contains k = false → 1 ≤ plainTicks k + waitsAhead k := by decide +kernel

theorem pathCosts_le : ∀ k : UState, plainTicks k ≤ 9 ∧ waitsAhead k ≤ 3 := by decide +kernel

theorem waitsAhead_pos : ∀ k ∈ readStates ++ writeStates, 1 ≤ waitsAhead k := by decide +kernel

/-- Every edge out of a state that is no wait state costs one of the plain ticks. -/
theorem pathCosts_edges : ∀ k : UState, k ∉ readStates ++ writeStates → ∀ e ∈ csEntry k, ∀ (op : BitVec 4) (sig : Bool),
    isFetchState (e.target op sig) = true
    ∨ (plainTicks (e.target op sig) < plainTicks k ∧ waitsAhead (e.target op sig) ≤ waitsAhead k) := by decide +kernel

/-- The edge out of a completed wait costs one of the waits. -/
theorem pathCosts_wait : ∀ k ∈ readStates ++ writeStates, isFetchState (k ||| 2#6) = true
    ∨ (plainTicks (k ||| 2#6) ≤ plainTicks k ∧ waitsAhead (k ||| 2#6) < waitsAhead k) := by decide +kernel

/-- A bound of the ticks up to the next fetch state: `MEM_DELAY + 2` for each wait, of which one that has started has only
its delay left. -/
def State.rank (s : State) : Nat :=
  plainTicks s.ustate + if s.rdEn || s.wrEn then (waitsAhead s.ustate - 1) * (s.cfg.memDelay + 2) + s.busy + 1
    else waitsAhead s.ustate * (s.cfg.memDelay + 2)

theorem rank_idle {s : State} (hrd : s.rdEn = false) (hwr : s.wrEn = false) :
    s.rank = plainTicks s.ustate + waitsAhead s.ustate * (s.cfg.memDelay + 2) := by
  simp [State.rank, hrd, hwr]

theorem rank_started {s : State} (h : (s.rdEn || s.wrEn) = true) :
    s.rank = plainTicks s.ustate + ((waitsAhead s.ustate - 1) * (s.cfg.memDelay + 2) + s.busy + 1) := by
  simp [State.rank, h]

theorem rank_pos {s : State} (h : s.sequencerInv = true) : 1 ≤ s.rank := by
  have hpos := pathCosts_pos _ ((sequencerInv_iff s).1 h).1
  unfold State.rank
  split
  · omega
  · have : waitsAhead s.ustate ≤ waitsAhead s.ustate * (s.cfg.memDelay + 2) := Nat.le_mul_of_pos_right _ (by omega)
    omega

theorem rank_le_runBound {s : State} (h : s.memUnitInv = true) : s.rank ≤ runBound s := by
  obtain ⟨hplain, hwaits⟩ := pathCosts_le s.ustate
  have hbusy : s.busy ≤ s.cfg.memDelay := by
    simp only [State.memUnitInv, Bool.and_eq_true, decide_eq_true_eq] at h; exact h.2
  have hall : waitsAhead s.ustate * (s.cfg.memDelay + 2) ≤ 3 * (s.cfg.memDelay + 2) := Nat.mul_le_mul_right _ hwaits
  have hrest : (waitsAhead s.ustate - 1) * (s.cfg.memDelay + 2) ≤ 2 * (s.cfg.memDelay + 2) := Nat.mul_le_mul_right _ (by omega)
  unfold State.rank runBound waitBound
  split <;> omega

/-- A tick that starts a memory operation. -/
theorem rank_start {s t : State} (hk : s.ustate ∈ readStates ++ writeStates) (hrd : s.rdEn = false) (hwr : s.wrEn = false)
    (ht : (t.rdEn || t.wrEn) = true) (hstate : t.ustate = s.ustate) (hcfg : t.cfg = s.cfg) (hbusy : t.busy = s.cfg.memDelay) :
    t.rank < s.rank := by
  obtain ⟨b, hb⟩ : ∃ b, waitsAhead s.ustate = b + 1 := ⟨_, (Nat.sub_add_cancel (waitsAhead_pos _ hk)).symm⟩
  rw [rank_started ht, rank_idle hrd hwr, hstate, hcfg, hbusy, hb, Nat.add_sub_cancel, Nat.succ_mul]
  omega

/-- A tick of a running delay. -/
theorem rank_hold {s t : State} (hs : (s.rdEn || s.wrEn) = true) (ht : (t.rdEn || t.wrEn) = true)
    (hstate : t.ustate = s.ustate) (hcfg : t.cfg = s.cfg) (hbusy : t.busy < s.busy) : t.rank < s.rank := by
  rw [rank_started hs, rank_started ht, hstate, hcfg]
  omega

/-- A tick that completes a memory operation. -/
theorem rank_done {s t : State} (hk : s.ustate ∈ readStates ++ writeStates) (hs : (s.rdEn || s.wrEn) = true)
    (hrd : t.rdEn = false) (hwr : t.wrEn = false) (hstate : t.ustate = s.ustate ||| 2#6) (hcfg : t.cfg = s.cfg) :
    isFetchState t.ustate = true ∨ t.rank < s.rank := by
  rw [hstate]
  refine (pathCosts_wait _ hk).imp_right fun ⟨hplain, hwaits⟩ => ?_
  have hle : waitsAhead (s.ustate ||| 2#6) * (s.cfg.memDelay + 2) ≤ (waitsAhead s.ustate - 1) * (s.cfg.memDelay + 2) :=
    Nat.mul_le_mul_right _ (by omega)
  rw [rank_started hs, rank_idle hrd hwr, hstate, hcfg]
  omega

/-- A tick that makes no memory call. -/
theorem rank_plain {s t : State} (hrd : s.rdEn = false) (hwr : s.wrEn = false) (hrd' : t.rdEn = false) (hwr' : t.wrEn = false)
    (hplain : plainTicks t.ustate < plainTicks s.ustate) (hwaits : waitsAhead t.ustate ≤ waitsAhead s.ustate)
    (hcfg : t.cfg = s.cfg) : t.rank < s.rank := by
  have hle : waitsAhead t.ustate * (s.cfg.memDelay + 2) ≤ waitsAhead s.ustate * (s.cfg.memDelay + 2) :=
    Nat.mul_le_mul_right _ hwaits
  rw [rank_idle hrd hwr, rank_idle hrd' hwr', hcfg]
  omega

/-! ### Every tick of a running machine makes progress -/

theorem csEntry_isSome : ∀ k : UState, unusedStates.contains k = false → (csEntry k).isSome = true := by decide +kernel

theorem microOp_isSome {k : UState} (h : unusedStates.contains k = false) (d : State) : (microOp k d).isSome = true := by
  have hreset : ∀ k : UState, unusedStates.contains k = false → (microOp k State.reset).isSome = true := by decide +kernel
  have hany : (microOp k d).isSome = (microOp k State.reset).isSome := by
    unfold microOp
    split <;> rfl
  rw [hany, hreset k h]

theorem memUnitInv_readState {s : State} (h : s.memUnitInv = true) (hk : s.ustate ∈ readStates) : s.wrEn = false := by
  have hw : writeStates.contains s.ustate = false := (readState_edges _ hk).2.1
  simp only [State.memUnitInv, hw, Bool.or_false, Bool.and_eq_true, Bool.not_eq_true'] at h
  exact h.1.1.2

theorem memUnitInv_writeState {s : State} (h : s.memUnitInv = true) (hk : s.ustate ∈ writeStates) : s.rdEn = false := by
  have hr : readStates.contains s.ustate = false := (writeState_edges _ hk).1
  simp only [State.memUnitInv, hr, Bool.or_false, Bool.and_eq_true, Bool.not_eq_true'] at h
  exact h.1.1.1

theorem tick_progress_readState {s : State} (hrun : s.runs = true) (hinv : s.memUnitInv = true) (hk : s.ustate ∈ readStates) :
    ∃ t, tick s = .next t ∧ (isFetchState t.ustate = true ∨ t.rank < s.rank) := by
  have hwait : s.ustate ∈ readStates ++ writeStates := List.mem_append_left _ hk
  have hwr := memUnitInv_readState hinv hk
  obtain ⟨hstart, hhold, hdone⟩ := tick_readState hrun hk
  cases hrd : s.rdEn with
  | false => exact ⟨_, hstart hrd, .inr (rank_start hwait hrd hwr rfl (by simp) (by simp) rfl)⟩
  | true =>
    have hs : (s.rdEn || s.wrEn) = true := by simp [hrd]
    rcases Nat.eq_zero_or_pos (devicesTick s).busy with hb | hb
    · exact ⟨_, hdone hrd hb, rank_done hwait hs rfl (by simp [hwr]) rfl (by simp)⟩
    · refine ⟨_, hhold hrd hb, .inr (rank_hold hs (by simp [hrd]) (by simp) (by simp) ?_)⟩
      rw [devicesTick_busy] at hb ⊢
      omega

theorem tick_progress_writeState {s : State} (hrun : s.runs = true) (hinv : s.memUnitInv = true) (hk : s.ustate ∈ writeStates) :
    ∃ t, tick s = .next t ∧ (isFetchState t.ustate = true ∨ t.rank < s.rank) := by
  have hwait : s.ustate ∈ readStates ++ writeStates := List.mem_append_right _ hk
  have hrd := memUnitInv_writeState hinv hk
  obtain ⟨hstart, hhold, hdone⟩ := tick_writeState hrun hk
  cases hwr : s.wrEn with
  | false => exact ⟨_, hstart hwr, .inr (rank_start hwait hrd hwr (by simp) (by simp) (by simp) rfl)⟩
  | true =>
    have hs : (s.rdEn || s.wrEn) = true := by simp [hwr]
    rcases Nat.eq_zero_or_pos (devicesTick s).busy with hb | hb
    · exact ⟨_, hdone hwr hb, rank_done hwait hs (by simp [hrd]) rfl rfl (by simp)⟩
    · refine ⟨_, hhold hwr hb, .inr (rank_hold hs (by simp [hwr]) (by simp) (by simp) ?_)⟩
      rw [devicesTick_busy] at hb ⊢
      omega

theorem tick_progress_plain {s : State} (hrun : s.runs = true) (hinv : s.inv = true) (hk : s.ustate ∉ readStates ++ writeStates) :
    ∃ t, tick s = .next t ∧ (isFetchState t.ustate = true ∨ t.rank < s.rank) := by
  obtain ⟨hseq, hmem, _⟩ := (inv_iff s).1 hinv
  have hused := ((sequencerInv_iff s).1 hseq).1
  obtain ⟨hread, hwrite⟩ := not_or.1 (List.mem_append.not.1 hk)
  obtain ⟨hrd, hwr, _⟩ := idle_of hmem (by simp [hread]) (by simp [hwrite])
  obtain ⟨e, he⟩ := Option.isSome_iff_exists.1 (csEntry_isSome _ hused)
  obtain ⟨r, hr⟩ := Option.isSome_iff_exists.1 (microOp_isSome hused (devicesTick s))
  refine ⟨_, tick_runs hrun rfl he hr, ?_⟩
  have hframe := microOp_frame hr
  obtain ⟨hrd', hwr', _⟩ := hframe.unit hread hwrite
  rw [conclude]
  cases r.exc with
  | some v => exact .inl rfl
  | none =>
    obtain ⟨sig, htarget, _⟩ := e.next_eq_target r.ready r.st
    simp only [htarget]
    refine (pathCosts_edges _ hk e he (Word.opcode r.st.ir) sig).imp_right fun ⟨hplain, hwaits⟩ => ?_
    exact rank_plain hrd hwr (by simp [hrd', hrd]) (by simp [hwr', hwr]) hplain hwaits (by simp [hframe.cfg])

theorem tick_progress {s : State} (hrun : s.runs = true) (hinv : s.inv = true) :
    ∃ t, tick s = .next t ∧ (isFetchState t.ustate = true ∨ t.rank < s.rank) := by
  have hmem := ((inv_iff s).1 hinv).2.1
  by_cases hread : s.ustate ∈ readStates
  · exact tick_progress_readState hrun hmem hread
  by_cases hwrite : s.ustate ∈ writeStates
  · exact tick_progress_writeState hrun hmem hwrite
  · exact tick_progress_plain hrun hinv (by simp [hread, hwrite])

/-- A tick neither adds to the keyboard's stream nor changes a parameter. -/
theorem tick_runs_of_clockOn {s t : State} (hrun : s.runs = true) (h : tick s = .next t) (hclock : t.clockOn = true) :
    t.runs = true := by
  rcases tick_shape h with rfl | ⟨u, f, v, p, k, hu, rfl, _⟩
  · exact hrun
  · have hd := devicesTick_runs hrun
    have hstream : u.noBreak = true := by rw [State.noBreak, hu.input]; exact runs_noBreak hd
    have hparams : u.cfg.wellFormed = true := by rw [hu.cfg]; exact runs_wellFormed hd
    simp only [State.runs, Bool.and_eq_true]
    exact ⟨⟨hclock, hparams⟩, hstream⟩

/-- Within as many ticks as its rank says, the loop is in a fetch state or its clock is off. -/
theorem runToFetch_completes (n : Nat) : ∀ s : State, s.runs = true → s.inv = true → s.rank ≤ n →
    ∃ t, runToFetch n s = .next t ∧ (isFetchState t.ustate = true ∨ t.clockOn = false) := by
  induction n with
  | zero =>
    intro s _ hinv hrank
    have := rank_pos ((inv_iff s).1 hinv).1
    omega
  | succ n ih =>
    intro s hrun hinv hrank
    obtain ⟨t, ht, hprogress⟩ := tick_progress hrun hinv
    rw [runToFetch_succ, ht, andThen_next]
    cases hfetch : isFetchState t.ustate with
    | true => exact ⟨t, rest_of_fetch hfetch, .inl hfetch⟩
    | false =>
      rw [rest_of_not_fetch hfetch]
      cases hclock : t.clockOn with
      | false => exact ⟨t, runToFetch_stopped hclock n, .inr hclock⟩
      | true =>
        have hlt : t.rank < s.rank := hprogress.resolve_left (by simp [hfetch])
        exact ih t (tick_runs_of_clockOn hrun ht hclock) (tick_inv hinv ht) (by omega)

/-- Settles O40: a step is the loop, whose rank falls with every tick that does not end it. -/
theorem everyStepCompletes : Obligations.EveryStepCompletes := by
  unfold Obligations.EveryStepCompletes
  intro s hinv hrun
  have hmem := ((inv_iff s).1 hinv).2.1
  obtain ⟨t, ht, hend⟩ := runToFetch_completes _ s hrun hinv (rank_le_runBound hmem)
  have hstep : step s = .next t := (stepIsTheTickLoop s hmem).trans ht
  exact ⟨⟨t, hstep⟩, fun t' ht' => Host.Outcome.next.inj (hstep.symm.trans ht') ▸ hend⟩

/-! ### Clock off, break byte, unused state (60_exceptions.md R238, R245, 40_microsequencer.md R96) -/

/-- Settles O36: with the clock off no tick happens, and no path leaves the state it starts in. -/
theorem stoppedClockKeepsState : Obligations.StoppedClockKeepsState := by
  unfold Obligations.StoppedClockKeepsState
  intro s hclock
  have hoff : ∀ f, systemTick f s = .next s := fun f => if_neg (by rw [State.clockOn, hclock]; exact Bool.false_ne_true)
  refine ⟨hoff cpuTick, ?_⟩
  cases hfetch : isFetchState s.ustate with
  | false => rw [step_of_not_fetch hfetch, runToFetch_stopped hclock]
  | true =>
    have hnot : ∀ k : UState, isFetchState k = true → k ≠ 33#6 ∧ isEntryState k = false ∧ k ≠ 49#6 := by decide
    obtain ⟨h33, hentry, h49⟩ := hnot _ hfetch
    rw [step_of_fetch hfetch, fetchDecode, microBy, hoff, andAt_next, if_neg h33, andThen_next, afterDecode_stop hentry h49]

theorem runBound_succ (s : State) : ∃ n, runBound s = n + 1 := ⟨15 + 4 * waitBound s, by unfold runBound; omega⟩

theorem step_fault_of_tick_fault {s : State} {r : Fault} (hfetch : isFetchState s.ustate = false) (h : tick s = .fault r) :
    step s = .fault r := by
  obtain ⟨n, hn⟩ := runBound_succ s
  rw [step_of_not_fetch hfetch, hn, runToFetch_succ, h]
  rfl

/-- Settles O37: the tick ends at the keyboard, whatever the CPU would do in it. -/
theorem breakByteEndsTheRun : Obligations.BreakByteEndsTheRun := by
  unfold Obligations.BreakByteEndsTheRun
  intro s k rest hclock hready hinput harrived
  have hbreak : s.breakArrives = true := by
    simp [State.breakArrives, State.nextKey, hready, hinput, harrived, Config.breakByte]
  have hfault : ∀ f, systemTick f s = .fault .keyboardBreak := fun f => by simp [systemTick, hclock, hbreak]
  refine ⟨hfault cpuTick, ?_⟩
  cases hfetch : isFetchState s.ustate with
  | false => exact step_fault_of_tick_fault hfetch (hfault cpuTick)
  | true =>
    rw [step_of_fetch hfetch, fetchDecode, microBy, hfault]
    rfl

/-- Settles O38: an unused state has no entry, and none is a fetch state. -/
theorem unusedStatesFault : Obligations.UnusedStatesFault := by
  unfold Obligations.UnusedStatesFault
  intro s hrun hk
  have hunused : ∀ k ∈ unusedStates, csEntry k = none ∧ isFetchState k = false := by decide
  obtain ⟨hentry, hfetch⟩ := hunused _ hk
  have htick : tick s = .fault .unusedMicroState := by
    rw [tick, systemTick_runs hrun, cpuTick, devicesTick_ustate, hentry]
  exact ⟨htick, step_fault_of_tick_fault hfetch htick⟩

end Sys2Proof.Machine
end

section

namespace Sys2Proof

/-! ### Fields of a word (30_encoding.md R72) -/

theorem Reg.ofBits_toBits (r : Reg) : Reg.ofBits r.toBits = r := by cases r <;> rfl

/-- A field that a mask has no bit in does not see what is joined under the mask. -/
theorem extractLsb'_or_masked {n : Nat} (w junk m : BitVec n) {start len : Nat} (h : m.extractLsb' start len = 0#len) :
    (w ||| (junk &&& m)).extractLsb' start len = w.extractLsb' start len := by
  rw [BitVec.extractLsb'_or, BitVec.extractLsb'_and, h, BitVec.and_zero, BitVec.or_zero]

theorem getLsbD_or_masked {n : Nat} (w junk m : BitVec n) {i : Nat} (h : m.getLsbD i = false) :
    (w ||| (junk &&& m)).getLsbD i = w.getLsbD i := by
  rw [BitVec.getLsbD_or, BitVec.getLsbD_and, h, Bool.and_false, Bool.or_false]


/-- What R77 calls ignored is ignored: the decoder reads each field and each selector bit back from its place. -/
theorem decodeWord_encodeWord_or (i : Instr) (junk : Word) : decodeWord (encodeWord i ||| (junk &&& i.ignoredBits)) = i := by
  cases i
  all_goals
    simp (disch := decide) only [decodeWord, Instr.ignoredBits, extractLsb'_or_masked, getLsbD_or_masked, encodeWord, Word.opcode,
      Word.dr, Word.sr1, Word.sr2, Word.imm5, Word.offset6, Word.pcOffset9, Word.pcOffset11, Word.trapvect8, Word.amount4,
      Reg.ofBits_toBits, BitVec.extractLsb'_append_eq_of_le, BitVec.extractLsb'_append_eq_of_add_le, BitVec.extractLsb'_eq_self,
      BitVec.getLsbD_append, BitVec.getLsbD_ofBool, BitVec.reduceToNat, BitVec.reduceGetLsb, Nat.reduceSub, Nat.reduceLT,
      Bool.false_eq_true, decide_true, Bool.true_and, if_true, if_false]

theorem decodeWord_encodeWord (i : Instr) : decodeWord (encodeWord i) = i := by
  simpa using decodeWord_encodeWord_or i 0#16

theorem Reg.toBits_ofBits : ∀ f : BitVec 3, (Reg.ofBits f).toBits = f := by decide

/-- A field of a field is a field. -/
theorem extractLsb'_extractLsb' {n : Nat} (w : BitVec n) {start len start' len' : Nat} (h : start' + len' ≤ len) :
    (w.extractLsb' start len).extractLsb' start' len' = w.extractLsb' (start + start') len' := by
  apply BitVec.eq_of_getLsbD_eq
  intro i hi
  simp [hi, show start' + i < len by omega, Nat.add_assoc]

theorem getLsbD_eq_of_extractLsb'_eq {n : Nat} {v w : BitVec n} {start len i : Nat}
    (h : v.extractLsb' start len = w.extractLsb' start len) (hlo : start ≤ i) (hhi : i < start + len) :
    v.getLsbD i = w.getLsbD i := by
  have hbit := congrArg (BitVec.getLsbD · (i - start)) h
  simpa [show i - start < len by omega, show start + (i - start) = i by omega] using hbit

/-- Words with the same parts are equal: the opcode, and below it the parts that no field and no ignored range of a format
cuts any further. -/
theorem Word.ext_parts {v w : Word} (h12 : Word.opcode v = Word.opcode w) (h11 : v.getLsbD 11 = w.getLsbD 11)
    (h10 : v.getLsbD 10 = w.getLsbD 10) (h9 : v.getLsbD 9 = w.getLsbD 9) (h8 : v.getLsbD 8 = w.getLsbD 8)
    (h6 : v.extractLsb' 6 2 = w.extractLsb' 6 2)
    (h5 : v.getLsbD 5 = w.getLsbD 5) (h4 : v.getLsbD 4 = w.getLsbD 4) (h3 : v.getLsbD 3 = w.getLsbD 3)
    (h0 : v.extractLsb' 0 3 = w.extractLsb' 0 3) : v = w := by
  apply BitVec.eq_of_getLsbD_eq
  intro i hi
  obtain h | rfl | rfl | rfl | rfl | h | rfl | rfl | rfl | h : 12 ≤ i ∨ i = 11 ∨ i = 10 ∨ i = 9 ∨ i = 8 ∨ (6 ≤ i ∧ i < 8)
    ∨ i = 5 ∨ i = 4 ∨ i = 3 ∨ i < 3 := by omega
  · exact getLsbD_eq_of_extractLsb'_eq h12 h hi
  · exact h11
  · exact h10
  · exact h9
  · exact h8
  · exact getLsbD_eq_of_extractLsb'_eq h6 h.1 h.2
  · exact h5
  · exact h4
  · exact h3
  · exact getLsbD_eq_of_extractLsb'_eq h0 (Nat.zero_le i) (by omega)

theorem extractLsb'_and_kept {n : Nat} (w m : BitVec n) {start len : Nat}
    (h : (~~~m).extractLsb' start len = BitVec.allOnes len) :
    (w &&& ~~~m).extractLsb' start len = w.extractLsb' start len := by
  rw [BitVec.extractLsb'_and, h, BitVec.and_allOnes]

theorem extractLsb'_and_dropped {n : Nat} (w m : BitVec n) {start len : Nat} (h : (~~~m).extractLsb' start len = 0#len) :
    (w &&& ~~~m).extractLsb' start len = 0#len := by
  rw [BitVec.extractLsb'_and, h, BitVec.and_zero]

theorem getLsbD_and_kept {n : Nat} (w m : BitVec n) {i : Nat} (h : (~~~m).getLsbD i = true) :
    (w &&& ~~~m).getLsbD i = w.getLsbD i := by
  rw [BitVec.getLsbD_and, h, Bool.and_true]

theorem getLsbD_and_dropped {n : Nat} (w m : BitVec n) {i : Nat} (h : (~~~m).getLsbD i = false) :
    (w &&& ~~~m).getLsbD i = false := by
  rw [BitVec.getLsbD_and, h, Bool.and_false]

/-- A word's bits outside the ignored ones are fields, or the opcode and selector bits that the decoder looked at. -/
theorem encodeWord_decodeWord (w : Word) : encodeWord (decodeWord w) = w &&& ~~~(decodeWord w).ignoredBits := by
  have hop : w.extractLsb' 12 4 = BitVec.ofNat 4 (Word.opcode w).toNat := by
    rw [BitVec.ofNat_toNat, BitVec.setWidth_eq, Word.opcode]
  have hlt : (Word.opcode w).toNat < 16 := (Word.opcode w).isLt
  unfold decodeWord
  generalize (Word.opcode w).toNat = n at *
  interval_cases n <;> simp only [] <;> (repeat' split)
  all_goals
    apply Word.ext_parts <;>
    simp (disch := decide) only [encodeWord, Instr.ignoredBits, extractLsb'_and_kept, extractLsb'_and_dropped, getLsbD_and_kept,
      getLsbD_and_dropped, hop, Word.opcode, Word.dr, Word.sr1, Word.sr2, Word.imm5, Word.offset6, Word.pcOffset9, Word.pcOffset11,
      Word.trapvect8, Word.amount4, Reg.toBits_ofBits, extractLsb'_extractLsb', BitVec.extractLsb'_append_eq_of_le,
      BitVec.extractLsb'_append_eq_of_add_le, BitVec.extractLsb'_eq_self, BitVec.getLsbD_append, BitVec.getLsbD_extractLsb',
      BitVec.getLsbD_ofBool, BitVec.reduceExtractLsb', BitVec.reduceGetLsb, Nat.reduceSub, Nat.reduceLT, decide_true,
      Bool.true_and, if_true, if_false]
  all_goals simp_all only [Bool.not_eq_true]

/-- The bits that select a row: the opcode, and bits 11, 5 and 4 (30_encoding.md R74, R75). -/
def selectorBits : Word := 0xF830#16

/-- The selector bits of a word, from their values. -/
def selectorWord (op : BitVec 4) (b11 b5 b4 : Bool) : Word :=
  op ++ BitVec.ofBool b11 ++ 0#5 ++ BitVec.ofBool b5 ++ BitVec.ofBool b4 ++ 0#4

theorem and_selectorBits (w : Word) :
    w &&& selectorBits = selectorWord (Word.opcode w) (w.getLsbD 11) (w.getLsbD 5) (w.getLsbD 4) := by
  rw [show selectorBits = ~~~0x07CF#16 by decide]
  apply Word.ext_parts <;>
  simp (disch := decide) only [selectorWord, Word.opcode, extractLsb'_and_kept, extractLsb'_and_dropped, getLsbD_and_kept,
    getLsbD_and_dropped, BitVec.extractLsb'_append_eq_of_le, BitVec.extractLsb'_append_eq_of_add_le,
    BitVec.extractLsb'_eq_self, BitVec.getLsbD_append, BitVec.getLsbD_ofBool, BitVec.reduceExtractLsb', BitVec.reduceGetLsb,
    Nat.reduceSub, Nat.reduceLT, decide_true, Bool.true_and, if_true, if_false]

theorem decodeWord_row_selector (w : Word) : (decodeWord (w &&& selectorBits)).row = (decodeWord w).row := by
  have hop : Word.opcode (w &&& selectorBits) = Word.opcode w := extractLsb'_and_kept w 0x07CF#16 (by decide)
  have hbit : ∀ i, selectorBits.getLsbD i = true → (w &&& selectorBits).getLsbD i = w.getLsbD i := fun i hi => by
    rw [BitVec.getLsbD_and, hi, Bool.and_true]
  unfold decodeWord
  rw [hop, hbit 5 (by decide), hbit 4 (by decide), hbit 11 (by decide)]
  split <;> (repeat' split) <;> rfl

theorem matchesWord_selector : ∀ r ∈ opcodeRows, ∀ w : Word, r.matchesWord (w &&& selectorBits) = r.matchesWord w := by
  have hmask : ∀ r ∈ opcodeRows, selectorBits &&& r.mask = r.mask := by decide
  intro r hr w
  rw [OpcodeRow.matchesWord, OpcodeRow.matchesWord, BitVec.and_assoc, hmask r hr]

/-- The 128 settings of the selector bits. -/
theorem opcodeRows_filter_selector : ∀ (op : BitVec 4) (b11 b5 b4 : Bool),
    opcodeRows.filter (fun r => r.matchesWord (selectorWord op b11 b5 b4)) = [(decodeWord (selectorWord op b11 b5 b4)).row] := by
  decide +kernel

/-! ### The encoding's statements -/

/-- Settles O2: no field and no selector bit reaches into the ignored bits. -/
theorem ignoredBitsAreIgnored : Obligations.IgnoredBitsAreIgnored := decodeWord_encodeWord_or

/-- Settles O1: the two bytes join to the word again, and the word has no ignored bit set. -/
theorem decodeAfterEncode : Obligations.DecodeAfterEncode := by
  unfold Obligations.DecodeAfterEncode
  intro i rest _
  show Except.ok (decodeWord (wordOfBytes (Word.lowByte (encodeWord i)) (Word.highByte (encodeWord i))), rest) = .ok (i, rest)
  rw [Machine.wordOfBytes_lanes, decodeWord_encodeWord]

/-- Settles O3: both sides look at the selector bits only, which leaves 128 words. -/
theorem everyWordIsOfOneRow : Obligations.EveryWordIsOfOneRow := by
  unfold Obligations.EveryWordIsOfOneRow
  intro w
  calc opcodeRows.filter (fun r => r.matchesWord w)
      = opcodeRows.filter (fun r => r.matchesWord (w &&& selectorBits)) :=
        List.filter_congr fun r hr => (matchesWord_selector r hr w).symm
    _ = [(decodeWord (w &&& selectorBits)).row] := by rw [and_selectorBits, opcodeRows_filter_selector]
    _ = [(decodeWord w).row] := by rw [decodeWord_row_selector]

/-- Settles O4, opcode by opcode. -/
theorem encodeAfterDecode : Obligations.EncodeAfterDecode := encodeWord_decodeWord

/-- Settles O5: the words are computed. -/
theorem specWordsDecode : Obligations.SpecWordsDecode := by
  unfold Obligations.SpecWordsDecode
  exact ⟨by decide, by decide, by decide, by decide, by decide, by decide, by decide, by decide, by decide, by decide, by decide,
    by decide, by decide, by decide, by decide, by decide, rfl, fun _ => rfl⟩

/-! ### Immediates as numbers (30_encoding.md R73) -/

/-- Doubling a sign-extended field is the doubled number's word. -/
theorem signExtend_shiftLeft_one {n : Nat} (o : BitVec n) : o.signExtend 16 <<< 1 = BitVec.ofInt 16 (2 * o.toInt) := by
  rw [BitVec.shiftLeft_eq_mul_twoPow, BitVec.signExtend, Int.mul_comm, BitVec.ofInt_mul]
  rfl

/-- A field of at most 15 bits keeps its sign through the doubling. -/
theorem toInt_signExtend_shiftLeft_one {n : Nat} (hn : n ≤ 15) (o : BitVec n) : (o.signExtend 16 <<< 1).toInt = 2 * o.toInt := by
  have hlo := BitVec.le_toInt o
  have hhi := BitVec.toInt_lt (x := o)
  have hpow : (2 : Int) ^ (n - 1) ≤ 2 ^ 14 := pow_le_pow_right₀ (by decide) (by omega)
  rw [signExtend_shiftLeft_one, BitVec.toInt_ofInt]
  exact Int.bmod_eq_of_le (by norm_num at *; omega) (by norm_num at *; omega)

theorem toNat_setWidth_shiftLeft_one (v : BitVec 8) : (v.setWidth 16 <<< 1).toNat = 2 * v.toNat := by
  rw [BitVec.toNat_shiftLeft, BitVec.toNat_setWidth, Nat.shiftLeft_eq]
  omega

/-- The table's base has no bit in common with a doubled vector. -/
theorem ivtAddr_eq_add (v : Vector8) : Machine.ivtAddr v = 0x200#16 + v.setWidth 16 <<< 1 := by
  refine (BitVec.add_eq_or_of_and_eq_zero _ _ ?_).symm
  revert v
  decide +kernel

/-- Settles O6. -/
theorem immediatesAreExact : Obligations.ImmediatesAreExact := by
  unfold Obligations.ImmediatesAreExact
  refine ⟨fun i => BitVec.toInt_signExtend_of_le (by decide), fun o => BitVec.toInt_signExtend_of_le (by decide),
    toInt_signExtend_shiftLeft_one (by decide), toInt_signExtend_shiftLeft_one (by decide),
    toInt_signExtend_shiftLeft_one (by decide), fun v => ?_, fun v => ?_⟩
  · rw [Machine.trapAddr, Config.tvtBase, BitVec.zero_add, toNat_setWidth_shiftLeft_one]
  · rw [ivtAddr_eq_add, BitVec.toNat_add, toNat_setWidth_shiftLeft_one, BitVec.toNat_ofNat]
    omega

end Sys2Proof
end

section

namespace Sys2Proof.Machine

/-! ### One tick that writes a result (41_alu.md R110 to R115) -/

theorem microTo_writeResult {s : State} (h : s.runs = true) {u : State → Micro} {dr : Reg} {v : Word}
    (hu : u (devicesTick s) = { st := writeResult dr v (devicesTick s) }) :
    microTo 18#6 u s = .next { devicesTick s with regs := s.regs.set dr v, psr := s.psr.setcc v, ustate := 18#6 } := by
  rw [microTo_runs h, hu, conclude_none, writeResult, devicesTick_regs, devicesTick_psr]

/-- Settles O7. -/
theorem aluRegisterForms : Obligations.AluRegisterForms := by
  unfold Obligations.AluRegisterForms
  intro s dr a b h
  refine ⟨microTo_writeResult h ?_, microTo_writeResult h ?_, microTo_writeResult h ?_⟩
  · simp only [uAdd, operand2, devicesTick_regs]
  · simp only [uAnd, operand2, devicesTick_regs]
  · simp only [uXor, operand2, devicesTick_regs]

/-- Settles O8. -/
theorem aluImmediateForms : Obligations.AluImmediateForms := by
  unfold Obligations.AluImmediateForms
  intro s dr a i h
  refine ⟨microTo_writeResult h ?_, microTo_writeResult h ?_, microTo_writeResult h ?_⟩
  · simp only [uAdd, operand2, immOperand, devicesTick_regs]
  · simp only [uAnd, operand2, immOperand, devicesTick_regs]
  · simp only [uXor, operand2, immOperand, devicesTick_regs]

theorem microTo_shift {s : State} (h : s.runs = true) (k : ShiftKind) (dr a : Reg) (n : BitVec 4) :
    microTo 18#6 (uShift k dr a n) s = .next { devicesTick s with
      regs := s.regs.set dr (shiftWord k (s.regs.get a) n), psr := s.psr.setcc (shiftWord k (s.regs.get a) n),
      ustate := 18#6 } :=
  microTo_writeResult h (by simp only [uShift, devicesTick_regs])

/-- Settles O9: a left shift multiplies, the right shifts divide, the arithmetic one rounding down. -/
theorem shiftForms : Obligations.ShiftForms := by
  unfold Obligations.ShiftForms
  intro s dr a n h
  refine ⟨⟨_, ?left, microTo_shift h .left dr a n⟩, ⟨_, ?logical, microTo_shift h .rightLogical dr a n⟩,
    ⟨_, ?arithmetic, microTo_shift h .rightArith dr a n⟩⟩
  case left => rw [shiftWord, BitVec.toNat_shiftLeft, Nat.shiftLeft_eq]
  case logical => rw [shiftWord, BitVec.toNat_ushiftRight, Nat.shiftRight_eq_div_pow]
  case arithmetic => rw [shiftWord, BitVec.toInt_sshiftRight, Int.shiftRight_eq_div_pow, Int.natCast_pow, Nat.cast_ofNat]

theorem pcOffset9_eq (o : BitVec 9) : pcOffset9 o = BitVec.ofInt 16 (2 * o.toInt) := signExtend_shiftLeft_one o

theorem pcOffset11_eq (o : BitVec 11) : pcOffset11 o = BitVec.ofInt 16 (2 * o.toInt) := signExtend_shiftLeft_one o

/-- Settles O10. -/
theorem leaResult : Obligations.LeaResult := by
  unfold Obligations.LeaResult
  intro s dr o h
  exact ⟨_, rfl, microTo_writeResult h (by rw [uLea, pcOffset9_eq, devicesTick_pc])⟩

/-! ### Branches, jumps and calls (43_control.md R160 to R173) -/

theorem State.IsOver.refl (s : State) : s.IsOver s := ⟨rfl, .inl rfl⟩

theorem andAt_next_at {s : State} {k : UState} (h : s.ustate = k) (f : State → Out) : andAt (.next s) k f = f s := if_pos h

theorem andAt_next_off {s : State} {k : UState} (h : s.ustate ≠ k) (f : State → Out) : andAt (.next s) k f = .next s := if_neg h

theorem branchEnable_iff (n z p : Bool) (q : Psr) :
    branchEnable n z p q = true ↔ (q.n = true ∧ n = true) ∨ (q.z = true ∧ z = true) ∨ (q.p = true ∧ p = true) := by
  simp only [branchEnable, Bool.or_eq_true, Bool.and_eq_true, or_assoc]

/-- The branch latch, put over a machine's other blocks, stays through their tick. -/
theorem devicesTick_ben_set (s : State) (b : Bool) : devicesTick { s with ben := b } = { devicesTick s with ben := b } := by
  rw [devicesTick_over (c := { s with ben := b }) (d := s) ⟨rfl, .inl rfl⟩]
  apply State.ext_fields <;> simp [State.withCpu]

theorem devicesTick_ustate_set (s : State) (k : UState) :
    devicesTick { s with ustate := k } = { devicesTick s with ustate := k } := by
  rw [devicesTick_over (c := { s with ustate := k }) (d := s) ⟨rfl, .inl rfl⟩]
  apply State.ext_fields <;> simp [State.withCpu]

theorem execBr_eq {s : State} (h : s.runs = true) (n z p : Bool) (o : BitVec 9) : execBr n z p o s
    = if branchEnable n z p s.psr then .next { devicesTicks 2 s with
        pc := s.pc + BitVec.ofInt 16 (2 * o.toInt), ben := true, ustate := 18#6 }
      else .next { devicesTick s with ben := false, ustate := 18#6 } := by
  have hrun : ∀ b, ({ s with ben := b } : State).runs = true := fun _ => h
  rw [execBr, microBy_runs (hrun _), uNone, conclude_none, devicesTick_ben_set]
  cases branchEnable n z p s.psr with
  | false => rfl
  | true =>
    have hrun' : ({ devicesTick s with ben := true, ustate := 22#6 } : State).runs = true := devicesTick_runs h
    show microTo 18#6 (uBranch o) { devicesTick s with ben := true, ustate := 22#6 } = _
    rw [microTo_runs hrun', devicesTick_ustate_set { devicesTick s with ben := true }, devicesTick_ben_set, uBranch,
      conclude_none, pcOffset9_eq]
    simp [devicesTicks]

/-- Settles O17. -/
theorem branchResult : Obligations.BranchResult := by
  unfold Obligations.BranchResult
  intro s n z p o h
  rw [← branchEnable_iff]
  exact ⟨fun htaken => (execBr_eq h n z p o).trans (if_pos htaken), fun hnot => (execBr_eq h n z p o).trans (if_neg hnot)⟩

theorem uJump_check {s : State} {base : Reg} (h : s.cfg.jmpAlignCheck = true) (hodd : (s.regs.get base).getLsbD 0 = true) :
    uJump base s = { st := s, exc := some s.cfg.excIllAddr } :=
  if_pos (by rw [h]; exact hodd)

theorem uJump_go {s : State} {base : Reg} (h : s.cfg.jmpAlignCheck = false ∨ (s.regs.get base).getLsbD 0 = false) :
    uJump base s = { st := { s with pc := s.regs.get base } } :=
  if_neg (by rcases h with h | h <;> simp only [isOdd, h, Bool.false_and, Bool.and_false, Bool.false_eq_true, not_false_eq_true])

/-- Settles O18. -/
theorem jumpResult : Obligations.JumpResult := by
  unfold Obligations.JumpResult
  intro s base hrun h
  show microTo 18#6 (uJump base) s = _
  rw [← devicesTick_regs s, ← devicesTick_cfg s] at h
  rw [microTo_runs hrun, uJump_go h, conclude_none, ← devicesTick_regs s]

/-- Settles O24. -/
theorem oddJumpTraps : Obligations.OddJumpTraps := by
  unfold Obligations.OddJumpTraps
  intro s base hrun hcheck hodd
  show microTo 18#6 (uJump base) s = _
  rw [← devicesTick_cfg s] at hcheck
  rw [← devicesTick_regs s] at hodd
  rw [microTo_runs hrun, uJump_check hcheck hodd, conclude_some, ← devicesTick_cfg s]
  rfl

/-- State 4 and then the call's own state: two ticks, the second with the micro-operation. -/
theorem call_path {s : State} (h : s.runs = true) {k : UState} {u : State → Micro} :
    (andAt (microTo k uNone s) k fun s => microTo 18#6 u s)
      = .next (conclude (u { devicesTicks 2 s with ustate := k }) 18#6) := by
  have hrun : ({ devicesTick s with ustate := k } : State).runs = true := devicesTick_runs h
  rw [microTo_runs h, uNone, conclude_none, andAt_next_at rfl, microTo_runs hrun, devicesTick_ustate_set]
  rfl

/-- Settles O19: JSRR reads its base in the registers that hold the link already. -/
theorem callResult : Obligations.CallResult := by
  unfold Obligations.CallResult
  intro s h
  refine ⟨fun o => (call_path h).trans ?_, fun base hbase => (call_path h).trans ?_, (call_path h).trans ?_⟩
  · simp only [uCallRelative, conclude_none, devicesTicks_regs, devicesTicks_pc, pcOffset11_eq]
  · simp only [uCallRegister, conclude_none, devicesTicks_regs, devicesTicks_pc, Regs.get_set_ne _ hbase]
  · simp only [uCallRegister, conclude_none, devicesTicks_regs, devicesTicks_pc, Regs.get_set_self]

/-! ### Links of a path: one tick, then a memory call to its end -/

/-- A tick that writes the CPU's own registers, the address among them, and the read that follows it. -/
theorem tick_then_read {c d t : State} (h : c.IsOver d) (hd : d.runs = true) {w k : UState} (hw : k ≠ w) {u : State → Micro}
    (hu : u ((devicesTick d).withCpu { c with busy := c.busy - 1 }) = { st := t }) (ht : t.IsOver (devicesTick d))
    (hrd : t.rdEn = false) (hwr : t.wrEn = false) (f : State → Out) :
    let r := loadWord t.mar (devicesTicks (d.cfg.memDelay + 2) d)
    (andAt (microTo w u c) w fun s => andAt (waitFor w k uRead s) k f)
      = f { r.2.withCpu t with mdr := r.1, ustate := k, busy := 0 } := by
  intro r
  rw [microTo_over h hd, hu, conclude_none, andAt_next_at rfl,
    waitFor_read_over (c := { t with ustate := w }) (d := devicesTick d) ⟨?_, ht.2⟩ (devicesTick_runs hd) hrd hwr hw,
    devicesTick_cfg, andAt_next_at rfl]
  · rfl
  · exact congrArg (fun x : State => { x with ustate := w }) ht.1

/-- A tick that writes the CPU's own registers, the data among them, and the write that follows it. -/
theorem tick_then_write {c d t : State} (h : c.IsOver d) (hd : d.runs = true) {w k : UState} (hw : k ≠ w) {u : State → Micro}
    (hu : u ((devicesTick d).withCpu { c with busy := c.busy - 1 }) = { st := t }) (ht : t.IsOver (devicesTick d))
    (hrd : t.rdEn = false) (hwr : t.wrEn = false) (m : Word → Word) :
    (andAt (microTo w u c) w (waitFor w k (uWriteMasked m)))
      = .next { (storeWord t.mar t.mdr (m t.mar) (devicesTicks (d.cfg.memDelay + 2) d)).withCpu t with
          ustate := k, busy := 0 } := by
  rw [microTo_over h hd, hu, conclude_none, andAt_next_at rfl,
    waitFor_write_over (c := { t with ustate := w }) (d := devicesTick d) ⟨?_, ht.2⟩ (devicesTick_runs hd) hrd hwr hw,
    devicesTick_cfg]
  · rfl
  · exact congrArg (fun x : State => { x with ustate := w }) ht.1

end Sys2Proof.Machine
end

section

namespace Sys2Proof.Machine

/-! ### Loads, stores and TRAP (42_load_store.md R130 to R135, 43_control.md R166) -/

theorem atEntry_idle {s : State} (h : s.atEntry = true) : s.rdEn = false ∧ s.wrEn = false := by
  simpa [State.memIdle] using atEntry_memIdle h

theorem uWordAddress_even {s : State} {base : Reg} {o : BitVec 6} (h : isOdd (wordAddress s.regs base o) = false) :
    uWordAddress base o s = { st := { s with mar := wordAddress s.regs base o } } :=
  if_neg (by simp only [h, Bool.false_eq_true, not_false_eq_true])

theorem uWordAddress_odd {s : State} {base : Reg} {o : BitVec 6} (h : isOdd (wordAddress s.regs base o) = true) :
    uWordAddress base o s
      = { st := { s with mar := wordAddress s.regs base o }, exc := some s.cfg.excIllAddr } :=
  if_pos h

theorem uDereference_even {s : State} (h : isOdd s.mdr = false) : uDereference s = { st := { s with mar := s.mdr } } :=
  if_neg (by simp only [h, Bool.false_eq_true, not_false_eq_true])

theorem uDereference_odd {s : State} (h : isOdd s.mdr = true) :
    uDereference s = { st := { s with mar := s.mdr }, exc := some s.cfg.excIllAddr } :=
  if_pos h

/-- The read that follows an instruction's first tick, which writes MAR from the registers. -/
theorem address_then_read {s : State} (h : s.atEntry = true) {w k : UState} (hw : k ≠ w) (u : State → Micro) (a : Regs → Word)
    (hu : ∀ d : State, d.regs = s.regs → u d = { st := { d with mar := a d.regs } }) (f : State → Out) :
    let r := loadWord (a s.regs) (devicesTicks (s.cfg.memDelay + 2) s)
    (andAt (microTo w u s) w fun s => andAt (waitFor w k uRead s) k f)
      = f { r.2 with mar := a s.regs, mdr := r.1, ustate := k, busy := 0 } := by
  obtain ⟨hrd, hwr⟩ := atEntry_idle h
  intro r
  rw [tick_then_read (.refl s) (atEntry_runs h) hw (hu _ rfl) ⟨rfl, .inl (by simp [State.withCpu])⟩ hrd hwr]
  refine congrArg f ?_
  apply State.ext_fields <;> simp [State.withCpu, r]

/-- The last tick of a load. -/
theorem load_last {c d : State} (h : c.IsOver d) (hd : d.runs = true) (u : State → Micro) {dr : Reg}
    (v : State → Word) (hu : ∀ t, u t = { st := writeResult dr (v t) t })
    (hv : v ((devicesTick d).withCpu { c with busy := c.busy - 1 }) = v c) :
    microTo 18#6 u c = .next { (devicesTick d).withCpu c with
      regs := c.regs.set dr (v c), psr := c.psr.setcc (v c), ustate := 18#6, busy := c.busy - 1 } := by
  rw [microTo_over h hd, hu, conclude_none, hv]
  rfl

/-- Settles O11: the byte lane of MAR is picked from MDR in the last tick. -/
theorem ldbResult : Obligations.LdbResult := by
  unfold Obligations.LdbResult
  intro s dr base o h ea r v
  have hrun : r.2.runs = true := by simpa [r] using devicesTicks_runs (atEntry_runs h) _
  have hover : ({ r.2 with mar := ea, mdr := r.1, ustate := 31#6, busy := 0 } : State).IsOver r.2 := ⟨rfl, .inl rfl⟩
  have hv : byteLane ea r.1 = v := apply_ite (BitVec.signExtend 16) _ _ _
  calc exec (.ldb dr base o) s
      = microTo 18#6 (uLoadByte dr) { r.2 with mar := ea, mdr := r.1, ustate := 31#6, busy := 0 } :=
        address_then_read h (by decide) (uByteAddress base o) (fun x => byteAddress x base o) (fun _ _ => rfl) _
    _ = _ := by
      rw [load_last hover hrun (uLoadByte dr) (fun t => byteLane t.mar t.mdr) (fun _ => rfl) rfl, hv]
      refine congrArg Host.Outcome.next ?_
      apply State.ext_fields <;> simp [State.withCpu, r]

/-- Settles O12. -/
theorem ldwResult : Obligations.LdwResult := by
  unfold Obligations.LdwResult
  intro s dr base o h ea r heven
  have hrun : r.2.runs = true := by simpa [r] using devicesTicks_runs (atEntry_runs h) _
  have hover : ({ r.2 with mar := ea, mdr := r.1, ustate := 27#6, busy := 0 } : State).IsOver r.2 := ⟨rfl, .inl rfl⟩
  calc exec (.ldw dr base o) s
      = microTo 18#6 (uLoadWord dr) { r.2 with mar := ea, mdr := r.1, ustate := 27#6, busy := 0 } :=
        address_then_read h (by decide) (uWordAddress base o) (fun x => wordAddress x base o)
          (fun d hd => uWordAddress_even (by rw [hd]; exact heven)) _
    _ = _ := by
      rw [load_last hover hrun (uLoadWord dr) State.mdr (fun _ => rfl) rfl]
      refine congrArg Host.Outcome.next ?_
      apply State.ext_fields <;> simp [State.withCpu, r]

/-- The devices' ticks run under the CPU's registers of `c` as they did under those of `d`, a tick later too. -/
theorem State.IsOver.tick {c d t : State} (h : c.IsOver d) (ht : t = (devicesTick d).withCpu t) (hpsr : t.psr = c.psr) :
    t.IsOver (devicesTick d) :=
  ⟨ht, h.2.imp (fun hp => by rw [hpsr, devicesTick_psr, hp]) fun hi => (devicesTick_latch hi).1⟩

/-- The tick of state 58 or 62 with an even address, and the read that follows it. -/
theorem dereference_then_read {c d : State} (h : c.IsOver d) (hd : d.runs = true) (hrd : c.rdEn = false) (hwr : c.wrEn = false)
    (heven : c.mdr.getLsbD 0 = false) {w k : UState} (hw : k ≠ w) (f : State → Out) :
    let r := loadWord c.mdr (devicesTicks (d.cfg.memDelay + 2) d)
    (andAt (microTo w uDereference c) w fun s => andAt (waitFor w k uRead s) k f)
      = f { r.2.withCpu c with mar := c.mdr, mdr := r.1, ustate := k, busy := 0 } :=
  tick_then_read h hd hw (uDereference_even heven) (h.tick rfl rfl) hrd hwr f

/-- Settles O13. -/
theorem ldiResult : Obligations.LdiResult := by
  unfold Obligations.LdiResult
  intro s dr base o h ea r1 r2 heven heven'
  obtain ⟨hrd, hwr⟩ := atEntry_idle h
  have hrun1 : r1.2.runs = true := by simpa [r1] using devicesTicks_runs (atEntry_runs h) _
  have hrun2 : r2.2.runs = true := by simpa [r2] using devicesTicks_runs hrun1 _
  have hcfg : r1.2.cfg = s.cfg := by simp [r1]
  have hover1 : ({ r1.2 with mar := ea, mdr := r1.1, ustate := 58#6, busy := 0 } : State).IsOver r1.2 := ⟨rfl, .inl rfl⟩
  have hover2 : ({ r2.2 with mar := r1.1, mdr := r2.1, ustate := 27#6, busy := 0 } : State).IsOver r2.2 := ⟨rfl, .inl rfl⟩
  calc exec (.ldi dr base o) s
      = andAt (microTo 25#6 uDereference { r1.2 with mar := ea, mdr := r1.1, ustate := 58#6, busy := 0 }) 25#6 fun s =>
          andAt (waitFor 25#6 27#6 uRead s) 27#6 fun s => microTo 18#6 (uLoadWord dr) s :=
        address_then_read h (by decide) (uWordAddress base o) (fun x => wordAddress x base o)
          (fun d hd => uWordAddress_even (by rw [hd]; exact heven)) _
    _ = microTo 18#6 (uLoadWord dr) { r2.2 with mar := r1.1, mdr := r2.1, ustate := 27#6, busy := 0 } := by
      rw [dereference_then_read hover1 hrun1 (by simpa [r1]) (by simpa [r1]) heven' (by decide)]
      refine congrArg (microTo 18#6 (uLoadWord dr)) ?_
      apply State.ext_fields <;> simp [State.withCpu, r1, r2]
    _ = _ := by
      rw [load_last hover2 hrun2 (uLoadWord dr) State.mdr (fun _ => rfl) rfl]
      refine congrArg Host.Outcome.next ?_
      apply State.ext_fields <;> simp [State.withCpu, r1, r2]

/-- The tick of state 23 or 24, which puts the data of a store into MDR, and the write that follows it. -/
theorem data_then_write {c d : State} (h : c.IsOver d) (hd : d.runs = true) (hrd : c.rdEn = false) (hwr : c.wrEn = false)
    {w k : UState} (hw : k ≠ w) (u : State → Micro) (v : Regs → Word) (hu : ∀ t, u t = { st := { t with mdr := v t.regs } })
    (m : Word → Word) :
    andAt (microTo w u c) w (waitFor w k (uWriteMasked m))
      = .next { (storeWord c.mar (v c.regs) (m c.mar) (devicesTicks (d.cfg.memDelay + 2) d)).withCpu c with
        mdr := v c.regs, ustate := k, busy := 0 } :=
  tick_then_write h hd hw (hu _) (h.tick rfl rfl) hrd hwr m

/-- A first tick that writes MAR from the registers. -/
theorem address_tick {s : State} (h : s.runs = true) (w : UState) (u : State → Micro) (a : Regs → Word)
    (hu : ∀ d : State, d.regs = s.regs → u d = { st := { d with mar := a d.regs } }) (f : State → Out) :
    andAt (microTo w u s) w f = f { devicesTick s with mar := a s.regs, ustate := w } := by
  rw [microTo_runs h, hu _ (devicesTick_regs s), conclude_none, andAt_next_at rfl, ← devicesTick_regs s]

/-- Settles O14: the byte goes into both lanes of MDR, and the mask picks one. -/
theorem stbResult : Obligations.StbResult := by
  unfold Obligations.StbResult
  intro s sr base o h ea b
  obtain ⟨hrd, hwr⟩ := atEntry_idle h
  have hrun := atEntry_runs h
  have hb : bothLanes (s.regs.get sr) = b ++ b := rfl
  have hm : laneMask ea = if ea.getLsbD 0 then 0xFF00#16 else 0x00FF#16 := rfl
  have hover : ({ devicesTick s with mar := ea, ustate := 24#6 } : State).IsOver (devicesTick s) := ⟨rfl, .inl rfl⟩
  calc exec (.stb sr base o) s
      = andAt (microTo 17#6 (uStoreByteData sr) { devicesTick s with mar := ea, ustate := 24#6 }) 17#6
          (waitFor 17#6 19#6 (uWriteMasked laneMask)) :=
        address_tick hrun 24#6 (uByteAddress base o) (fun x => byteAddress x base o) (fun _ _ => rfl) _
    _ = _ := by
      rw [data_then_write hover (devicesTick_runs hrun) (by simpa) (by simpa) (by decide) (uStoreByteData sr)
        (fun x => bothLanes (x.get sr)) (fun _ => rfl), ← hm, ← hb]
      refine congrArg Host.Outcome.next ?_
      apply State.ext_fields <;> simp [State.withCpu, devicesTicks]

/-- Settles O15. -/
theorem stwResult : Obligations.StwResult := by
  unfold Obligations.StwResult
  intro s sr base o h ea heven
  obtain ⟨hrd, hwr⟩ := atEntry_idle h
  have hrun := atEntry_runs h
  have hover : ({ devicesTick s with mar := ea, ustate := 23#6 } : State).IsOver (devicesTick s) := ⟨rfl, .inl rfl⟩
  calc exec (.stw sr base o) s
      = andAt (microTo 16#6 (uStoreData sr) { devicesTick s with mar := ea, ustate := 23#6 }) 16#6
          (waitFor 16#6 18#6 (uWriteMasked fun _ => 0xFFFF#16)) :=
        address_tick hrun 23#6 (uWordAddress base o) (fun x => wordAddress x base o)
          (fun d hd => uWordAddress_even (by rw [hd]; exact heven)) _
    _ = _ := by
      rw [data_then_write hover (devicesTick_runs hrun) (by simpa) (by simpa) (by decide) (uStoreData sr)
        (fun x => x.get sr) (fun _ => rfl)]
      refine congrArg Host.Outcome.next ?_
      apply State.ext_fields <;> simp [State.withCpu, devicesTicks]

/-- The tick of state 58 or 62 with an even address. -/
theorem dereference_tick {c d : State} (h : c.IsOver d) (hd : d.runs = true) (heven : c.mdr.getLsbD 0 = false) (w : UState)
    (f : State → Out) : andAt (microTo w uDereference c) w f
      = f { (devicesTick d).withCpu c with mar := c.mdr, ustate := w, busy := c.busy - 1 } := by
  rw [microTo_over h hd, uDereference_even (s := (devicesTick d).withCpu { c with busy := c.busy - 1 }) heven, conclude_none,
    andAt_next_at rfl]
  rfl

/-- Settles O16: LDI's two addresses, then STW's write. -/
theorem stiResult : Obligations.StiResult := by
  unfold Obligations.StiResult
  intro s sr base o h ea r1 heven heven'
  obtain ⟨hrd, hwr⟩ := atEntry_idle h
  have hrun : r1.2.runs = true := by simpa [r1] using devicesTicks_runs (atEntry_runs h) _
  have hcfg : r1.2.cfg = s.cfg := by simp [r1]
  have hover : ({ r1.2 with mar := ea, mdr := r1.1, ustate := 62#6, busy := 0 } : State).IsOver r1.2 := ⟨rfl, .inl rfl⟩
  have hover' : ({ devicesTick r1.2 with mar := r1.1, mdr := r1.1, ustate := 23#6, busy := 0 } : State).IsOver (devicesTick r1.2) :=
    ⟨rfl, .inl rfl⟩
  calc exec (.sti sr base o) s
      = andAt (microTo 23#6 uDereference { r1.2 with mar := ea, mdr := r1.1, ustate := 62#6, busy := 0 }) 23#6 fun s =>
          andAt (microTo 16#6 (uStoreData sr) s) 16#6 (waitFor 16#6 18#6 (uWriteMasked fun _ => 0xFFFF#16)) :=
        address_then_read h (by decide) (uWordAddress base o) (fun x => wordAddress x base o)
          (fun d hd => uWordAddress_even (by rw [hd]; exact heven)) _
    _ = andAt (microTo 16#6 (uStoreData sr) { devicesTick r1.2 with mar := r1.1, mdr := r1.1, ustate := 23#6, busy := 0 }) 16#6
          (waitFor 16#6 18#6 (uWriteMasked fun _ => 0xFFFF#16)) := by
      rw [dereference_tick hover hrun heven']
      refine congrArg (fun s => andAt (microTo 16#6 (uStoreData sr) s) 16#6 _) ?_
      apply State.ext_fields <;> simp [State.withCpu]
    _ = _ := by
      rw [data_then_write hover' (devicesTick_runs hrun) (by simpa [r1]) (by simpa [r1]) (by decide) (uStoreData sr)
        (fun x => x.get sr) (fun _ => rfl)]
      refine congrArg Host.Outcome.next ?_
      apply State.ext_fields <;> simp [State.withCpu, devicesTicks, r1]

/-- Settles O20: the entry writes R7 and MAR, and the read's word becomes PC. -/
theorem trapResult : Obligations.TrapResult := by
  unfold Obligations.TrapResult
  intro s v h r
  obtain ⟨hrd, hwr⟩ := atEntry_idle h
  have htrap : trapAddr v = v.setWidth 16 <<< 1 := BitVec.zero_add _
  have hrun : r.2.runs = true := by simpa [r] using devicesTicks_runs (atEntry_runs h) _
  have hover : ({ r.2 with regs := s.regs.set .r7 s.pc, mar := v.setWidth 16 <<< 1, mdr := r.1, ustate := 30#6, busy := 0 } :
    State).IsOver r.2 := ⟨rfl, .inl rfl⟩
  calc exec (.trap v) s
      = microTo 18#6 uPcMdr { r.2 with
          regs := s.regs.set .r7 s.pc, mar := v.setWidth 16 <<< 1, mdr := r.1, ustate := 30#6, busy := 0 } := by
        show andAt (microTo 28#6 (uTrapEntry v) s) 28#6 _ = _
        rw [tick_then_read (.refl s) (atEntry_runs h) (by decide) (u := uTrapEntry v) rfl
          ⟨rfl, .inl (by simp [State.withCpu])⟩ hrd hwr, htrap]
        refine congrArg (microTo 18#6 uPcMdr) ?_
        apply State.ext_fields <;> simp [State.withCpu, r]
    _ = _ := by
      rw [microTo_over hover hrun, uPcMdr, conclude_none]
      refine congrArg Host.Outcome.next ?_
      apply State.ext_fields <;> simp [State.withCpu, r]

/-! ### Odd addresses (42_load_store.md R137, 60_exceptions.md R203) -/

/-- A first tick whose address is odd: the exception is latched, and the path ends there. -/
theorem address_tick_odd {s : State} (h : s.runs = true) {w : UState} (hw : w ≠ 18#6) {base : Reg} {o : BitVec 6}
    (hodd : isOdd (wordAddress s.regs base o) = true) (f : State → Out) :
    andAt (microTo w (uWordAddress base o) s) w f = .next { devicesTick s with
      mar := wordAddress s.regs base o, intf := true, intv := s.cfg.excIllAddr, intp := s.cfg.excPriority, ustate := 18#6 } := by
  rw [← devicesTick_regs s] at hodd ⊢
  rw [microTo_runs h, uWordAddress_odd hodd, conclude_some, andAt_next_off hw.symm, ← devicesTick_cfg s]
  rfl

/-- Settles O22. -/
theorem oddFirstAddressTraps : Obligations.OddFirstAddressTraps := by
  unfold Obligations.OddFirstAddressTraps
  intro s r base o h ea t hodd
  exact ⟨address_tick_odd h (by decide) hodd _, address_tick_odd h (by decide) hodd _,
    address_tick_odd h (by decide) hodd _, address_tick_odd h (by decide) hodd _⟩

/-- The tick of state 58 or 62 with an odd address. -/
theorem dereference_tick_odd {c d : State} (h : c.IsOver d) (hd : d.runs = true) (hodd : c.mdr.getLsbD 0 = true) {w : UState}
    (hw : w ≠ 18#6) (f : State → Out) : andAt (microTo w uDereference c) w f
      = .next { (devicesTick d).withCpu c with mar := c.mdr, intf := true, intv := d.cfg.excIllAddr,
                                               intp := d.cfg.excPriority, ustate := 18#6, busy := c.busy - 1 } := by
  rw [microTo_over h hd, uDereference_odd (s := (devicesTick d).withCpu { c with busy := c.busy - 1 }) hodd, conclude_some,
    andAt_next_off hw.symm, ← devicesTick_cfg d]
  rfl

/-- LDI and STI up to state 58 or 62, where their first word is odd. -/
theorem odd_second_address {s : State} (h : s.atEntry = true) {base : Reg} {o : BitVec 6} {w k m : UState} (hw : k ≠ w)
    (hm : m ≠ 18#6) (f : State → Out) (heven : isOdd (wordAddress s.regs base o) = false) :
    let r := loadWord (wordAddress s.regs base o) (devicesTicks (s.cfg.memDelay + 2) s)
    r.1.getLsbD 0 = true →
    (andAt (microTo w (uWordAddress base o) s) w fun s => andAt (waitFor w k uRead s) k fun s =>
        andAt (microTo m uDereference s) m f)
      = .next { devicesTick r.2 with mar := r.1, mdr := r.1, intf := true, intv := s.cfg.excIllAddr,
                                     intp := s.cfg.excPriority, ustate := 18#6, busy := 0 } := by
  intro r hodd
  have hrun : r.2.runs = true := by simpa [r] using devicesTicks_runs (atEntry_runs h) _
  have hcfg : r.2.cfg = s.cfg := by simp [r]
  have hover : ({ r.2 with mar := wordAddress s.regs base o, mdr := r.1, ustate := k, busy := 0 } : State).IsOver r.2 :=
    ⟨rfl, .inl rfl⟩
  rw [address_then_read h hw (uWordAddress base o) (fun x => wordAddress x base o)
    (fun d hd => uWordAddress_even (by rw [hd]; exact heven))]
  show andAt (microTo m uDereference { r.2 with mar := wordAddress s.regs base o, mdr := r.1, ustate := k, busy := 0 }) m f = _
  rw [dereference_tick_odd hover hrun hodd hm, hcfg]
  refine congrArg Host.Outcome.next ?_
  apply State.ext_fields <;> simp [State.withCpu]

/-- Settles O23. -/
theorem oddSecondAddressTraps : Obligations.OddSecondAddressTraps := by
  unfold Obligations.OddSecondAddressTraps
  intro s r base o h ea r1 t heven hodd
  exact ⟨odd_second_address h (by decide) (by decide) _ heven hodd, odd_second_address h (by decide) (by decide) _ heven hodd⟩

end Sys2Proof.Machine
end

section

namespace Sys2Proof.Machine

/-! ### RTI (43_control.md R167, R177 to R187) -/

/-- A tick that branches on the mode, in user mode. -/
theorem fork_user {s t : State} (h : s.runs = true) {u : State → Micro} (hu : u (devicesTick s) = { st := t })
    (hp : t.psr.priv = .user) (k j : UState) (f : State → Out) :
    andThen (microBy (fun s => if s.psr.priv = .user then k else j) u s) f = f { t with ustate := k } := by
  rw [microBy_runs h, hu, conclude_none, andThen_next, if_pos hp]

/-- The same in supervisor mode. -/
theorem fork_supervisor {s t : State} (h : s.runs = true) {u : State → Micro} (hu : u (devicesTick s) = { st := t })
    (hp : t.psr.priv ≠ .user) (k j : UState) (f : State → Out) :
    andThen (microBy (fun s => if s.psr.priv = .user then k else j) u s) f = f { t with ustate := j } := by
  rw [microBy_runs h, hu, conclude_none, andThen_next, if_neg hp]

theorem exec_rti_user {s : State} (h : s.runs = true) (hu : s.psr.priv = .user) :
    exec .rti s = microTo 18#6 uPrivilegeViolation { devicesTick s with mar := s.regs.get .r6, ustate := 44#6 } := by
  rw [← devicesTick_psr s] at hu
  rw [← devicesTick_regs s]
  exact (fork_user (t := { devicesTick s with mar := (devicesTick s).regs.get .r6 }) h rfl hu _ _ _).trans (if_pos rfl)

theorem exec_rti_supervisor {s : State} (h : s.runs = true) (hu : s.psr.priv = .supervisor) :
    exec .rti s = returnPops { devicesTick s with mar := s.regs.get .r6, ustate := 36#6 } := by
  have hu : (devicesTick s).psr.priv ≠ .user := by rw [devicesTick_psr, hu]; decide
  have h44 : (36#6 : UState) ≠ 44#6 := by decide
  rw [← devicesTick_regs s]
  exact ((fork_supervisor (t := { devicesTick s with mar := (devicesTick s).regs.get .r6 }) h rfl hu _ _ _).trans
    (if_neg h44)).trans (if_pos rfl)

/-- Settles O25. -/
theorem userRtiTraps : Obligations.UserRtiTraps := by
  unfold Obligations.UserRtiTraps
  intro s h hu
  have hover : ({ devicesTick s with mar := s.regs.get .r6, ustate := 44#6 } : State).IsOver (devicesTick s) := ⟨rfl, .inl rfl⟩
  rw [exec_rti_user h hu, microTo_over hover (devicesTick_runs h), uPrivilegeViolation, conclude_some]
  refine congrArg Host.Outcome.next ?_
  apply State.ext_fields <;> simp [State.withCpu, devicesTicks]

/-- The end of RTI, from state 34 on: the second pop's pointer, and the restored mode's stack (R184 to R187). -/
def returnSwitch (s : State) : Out :=
  andThen (microBy (fun s => if s.psr.priv = .user then 59#6 else 51#6) uPopEnd s) fun s =>
    if s.ustate = 59#6 then microTo 18#6 uToUserStack s
    else if s.ustate = 51#6 then microTo 18#6 uNone s
    else .next s

theorem returnPops_eq (s : State) : returnPops s =
    andAt (waitFor 36#6 38#6 uRead s) 38#6 fun s => andAt (microTo 39#6 uPcMdr s) 39#6 fun s =>
    andAt (microTo 40#6 uPopAddress s) 40#6 fun s => andAt (waitFor 40#6 42#6 uRead s) 42#6 fun s =>
    andAt (microTo 34#6 uRestorePsr s) 34#6 returnSwitch := rfl

theorem returnSwitch_user {c d : State} (h : c.IsOver d) (hd : d.runs = true) (hu : c.psr.priv = .user)
    (hp : c.psr.priority = d.psr.priority) :
    returnSwitch c = .next { (devicesTicks 2 d).withCpu c with
      regs := c.regs.set .r6 c.usp, ssp := c.regs.get .r6 + 2#16, ustate := 18#6, busy := c.busy - 2 } := by
  have hover : ({ (devicesTick d).withCpu c with
      regs := c.regs.set .r6 (c.regs.get .r6 + 2#16), ustate := 59#6, busy := c.busy - 1 } : State).IsOver (devicesTick d) :=
    ⟨rfl, .inl (by simpa [State.withCpu] using hp)⟩
  have hlast : returnSwitch c = microTo 18#6 uToUserStack { (devicesTick d).withCpu c with
      regs := c.regs.set .r6 (c.regs.get .r6 + 2#16), ustate := 59#6, busy := c.busy - 1 } := by
    have hpop : uPopEnd (devicesTick c) = { st := { (devicesTick d).withCpu c with
        regs := c.regs.set .r6 (c.regs.get .r6 + 2#16), busy := c.busy - 1 } } := by rw [devicesTick_over h]; rfl
    exact (fork_user (over_runs h hd) hpop hu _ _ _).trans (if_pos rfl)
  rw [hlast, microTo_over hover (devicesTick_runs hd), uToUserStack, conclude_none]
  refine congrArg Host.Outcome.next ?_
  apply State.ext_fields <;> simp [State.withCpu, devicesTicks]
  omega

theorem returnSwitch_supervisor {c d : State} (h : c.IsOver d) (hd : d.runs = true) (hu : c.psr.priv ≠ .user)
    (hp : c.psr.priority = d.psr.priority) :
    returnSwitch c = .next { (devicesTicks 2 d).withCpu c with
      regs := c.regs.set .r6 (c.regs.get .r6 + 2#16), ustate := 18#6, busy := c.busy - 2 } := by
  have hover : ({ (devicesTick d).withCpu c with
      regs := c.regs.set .r6 (c.regs.get .r6 + 2#16), ustate := 51#6, busy := c.busy - 1 } : State).IsOver (devicesTick d) :=
    ⟨rfl, .inl (by simpa [State.withCpu] using hp)⟩
  have hlast : returnSwitch c = microTo 18#6 uNone { (devicesTick d).withCpu c with
      regs := c.regs.set .r6 (c.regs.get .r6 + 2#16), ustate := 51#6, busy := c.busy - 1 } := by
    have hpop : uPopEnd (devicesTick c) = { st := { (devicesTick d).withCpu c with
        regs := c.regs.set .r6 (c.regs.get .r6 + 2#16), busy := c.busy - 1 } } := by rw [devicesTick_over h]; rfl
    have h59 : (51#6 : UState) ≠ 59#6 := by decide
    exact ((fork_supervisor (over_runs h hd) hpop hu _ _ _).trans (if_neg h59)).trans (if_pos rfl)
  rw [hlast, microTo_over hover (devicesTick_runs hd), uNone, conclude_none]
  refine congrArg Host.Outcome.next ?_
  apply State.ext_fields <;> simp [State.withCpu, devicesTicks]
  omega

/-- The tick of state 42: from it on the other blocks' state has the new priority and the finished line. -/
theorem restorePsr_tick {c d : State} (h : c.IsOver d) (hd : d.runs = true) (f : State → Out) :
    andAt (microTo 34#6 uRestorePsr c) 34#6 f
      = f (({ devicesTick d with
          pic := (devicesTick d).pic.finish c.psr.priority, psr := Psr.ofWord c.mdr } : State).withCpu { c with
            psr := Psr.ofWord c.mdr, ustate := 34#6, busy := c.busy - 1 }) := by
  rw [microTo_over h hd, uRestorePsr, conclude_none, andAt_next_at rfl]
  rfl

/-- RTI in supervisor mode up to state 34: both words popped, the interrupt ended and the PSR restored. -/
theorem exec_rti_pops {s : State} (h : s.atEntry = true) (hu : s.psr.priv = .supervisor) :
    let sp := s.regs.get .r6
    let r1 := loadWord sp (devicesTicks (s.cfg.memDelay + 2) s)
    let r2 := loadWord (sp + 2#16) (devicesTicks (s.cfg.memDelay + 3) r1.2)
    exec .rti s = returnSwitch { devicesTick r2.2 with
      regs := s.regs.set .r6 (sp + 2#16), pc := r1.1, mar := sp + 2#16, mdr := r2.1, ustate := 34#6, busy := 0,
      pic := (devicesTick r2.2).pic.finish s.psr.priority, psr := Psr.ofWord r2.1 } := by
  intro sp r1 r2
  obtain ⟨hrd, hwr⟩ := atEntry_idle h
  have hrun := atEntry_runs h
  have hrun1 : r1.2.runs = true := by simpa [r1] using devicesTicks_runs hrun _
  have hrun2 : r2.2.runs = true := by simpa [r2] using devicesTicks_runs hrun1 _
  have hcfg : r1.2.cfg = s.cfg := by simp [r1]
  have hover0 : ({ devicesTick s with mar := sp, ustate := 36#6 } : State).IsOver (devicesTick s) := ⟨rfl, .inl rfl⟩
  have hover1 : ({ r1.2 with mar := sp, mdr := r1.1, ustate := 38#6, busy := 0 } : State).IsOver r1.2 := ⟨rfl, .inl rfl⟩
  have hover1' : ({ devicesTick r1.2 with pc := r1.1, mar := sp, mdr := r1.1, ustate := 39#6, busy := 0 } : State).IsOver
    (devicesTick r1.2) := ⟨rfl, .inl rfl⟩
  have hover2 : ({ r2.2 with
      regs := s.regs.set .r6 (sp + 2#16), pc := r1.1, mar := sp + 2#16, mdr := r2.1, ustate := 42#6, busy := 0 } :
    State).IsOver r2.2 := ⟨rfl, .inl rfl⟩
  calc exec .rti s
      = andAt (microTo 39#6 uPcMdr { r1.2 with mar := sp, mdr := r1.1, ustate := 38#6, busy := 0 }) 39#6 fun s =>
          andAt (microTo 40#6 uPopAddress s) 40#6 fun s => andAt (waitFor 40#6 42#6 uRead s) 42#6 fun s =>
          andAt (microTo 34#6 uRestorePsr s) 34#6 returnSwitch := by
        rw [exec_rti_supervisor hrun hu, returnPops_eq,
          waitFor_read_over hover0 (devicesTick_runs hrun) (by simpa) (by simpa) (by decide), andAt_next_at rfl, devicesTick_cfg]
        refine congrArg (fun s => andAt (microTo 39#6 uPcMdr s) 39#6 _) ?_
        apply State.ext_fields <;> simp [State.withCpu, r1, devicesTicks]
    _ = andAt (microTo 40#6 uPopAddress { devicesTick r1.2 with pc := r1.1, mar := sp, mdr := r1.1, ustate := 39#6, busy := 0 })
          40#6 fun s => andAt (waitFor 40#6 42#6 uRead s) 42#6 fun s => andAt (microTo 34#6 uRestorePsr s) 34#6 returnSwitch := by
        rw [microTo_over hover1 hrun1, uPcMdr, conclude_none, andAt_next_at rfl]
        refine congrArg (fun s => andAt (microTo 40#6 uPopAddress s) 40#6 _) ?_
        apply State.ext_fields <;> simp [State.withCpu]
    _ = andAt (microTo 34#6 uRestorePsr { r2.2 with
          regs := s.regs.set .r6 (sp + 2#16), pc := r1.1, mar := sp + 2#16, mdr := r2.1, ustate := 42#6, busy := 0 }) 34#6
          returnSwitch := by
        rw [tick_then_read hover1' (devicesTick_runs hrun1) (by decide) (u := uPopAddress) rfl
          ⟨rfl, .inl (by simp [State.withCpu])⟩ (by simpa [r1, State.withCpu]) (by simpa [r1, State.withCpu])]
        refine congrArg (fun s => andAt (microTo 34#6 uRestorePsr s) 34#6 _) ?_
        apply State.ext_fields <;> simp [State.withCpu, r1, r2, sp, devicesTicks]
    _ = _ := by
        rw [restorePsr_tick hover2 hrun2]
        refine congrArg returnSwitch ?_
        apply State.ext_fields <;> simp [State.withCpu, r1, r2]

/-- Settles O21. -/
theorem rtiResult : Obligations.RtiResult := by
  unfold Obligations.RtiResult
  intro s h hu sp r1 r2 d e
  have hrun1 : r1.2.runs = true := by simpa [r1] using devicesTicks_runs (atEntry_runs h) _
  have hrun2 : r2.2.runs = true := by simpa [r2] using devicesTicks_runs hrun1 _
  have hrun : ({ d with pic := d.pic.finish s.psr.priority, psr := Psr.ofWord r2.1 } : State).runs = true :=
    devicesTick_runs hrun2
  have hover : ({ d with
      regs := s.regs.set .r6 (sp + 2#16), pc := r1.1, mar := sp + 2#16, mdr := r2.1, ustate := 34#6, busy := 0,
      pic := d.pic.finish s.psr.priority, psr := Psr.ofWord r2.1 } : State).IsOver
    { d with pic := d.pic.finish s.psr.priority, psr := Psr.ofWord r2.1 } := ⟨rfl, .inl rfl⟩
  have hsp : sp + 2#16 + 2#16 = sp + 4#16 := by bv_omega
  rw [exec_rti_pops h hu]
  by_cases hmode : (Psr.ofWord r2.1).priv = .user
  · rw [if_pos hmode]
    refine (returnSwitch_user hover hrun hmode rfl).trans (congrArg Host.Outcome.next ?_)
    apply State.ext_fields <;> simp [State.withCpu, e, d, r2, r1, hsp]
  · rw [if_neg hmode]
    refine (returnSwitch_supervisor hover hrun hmode rfl).trans (congrArg Host.Outcome.next ?_)
    apply State.ext_fields <;> simp [State.withCpu, e, d, r2, r1, hsp]

end Sys2Proof.Machine
end

section

namespace Sys2Proof.Machine

/-! ### What an instruction leaves alone (10_state.md R12, R17, R19 to R24, 20_memory.md R41) -/

/-- A relation that every write an instruction may do keeps, holds from its entry state to whatever it answers next: the
writes of the CPU's special registers, of a general register it may write, of PIC and PSR, and those of the memory calls. -/
theorem exec_keeps_writes {R : State → State → Prop} (F : Frame R) (i : Instr) (hexc : ∀ s v, R s (raiseException v s))
    (hcpu : ∀ (s : State) pc sp ar dr be, R s { s with pc := pc, ssp := sp, mar := ar, mdr := dr, ben := be })
    (hregs : ∀ r ∈ i.writesRegs, ∀ (s : State) v, R s { s with regs := s.regs.set r v })
    (hpsr : ∀ (s : State) c q, R s { s with pic := c, psr := q })
    (hread : ∀ (s : State) k v b r, R s { s with kbd := k, mdr := v, busy := b, rdEn := r })
    (hwrite : ∀ (s : State) k ds c mc me b w,
      R s { s with kbd := k, dsp := ds, pic := c, mcr := mc, mem := me, busy := b, wrEn := w }) : Keeps R (exec i) := by
  have mk : ∀ u : State → Micro, (∀ s, R s (u s).st) → MicroKeeps R u := fun u h => microKeeps_of h hexc
  have cpu : ∀ u : State → Micro, (∀ s : State, ∃ pc sp ar dr be,
      (u s).st = { s with pc := pc, ssp := sp, mar := ar, mdr := dr, ben := be }) → MicroKeeps R u := fun u h => mk u fun s => by
    obtain ⟨pc, sp, ar, dr, be, e⟩ := h s
    rw [e]; exact hcpu s pc sp ar dr be
  have reg : ∀ (u : State → Micro) r, r ∈ i.writesRegs → (∀ s : State, ∃ v pc sp ar,
      (u s).st = { s with regs := s.regs.set r v, pc := pc, ssp := sp, mar := ar }) → MicroKeeps R u :=
    fun u r hr h => mk u fun s => by
      obtain ⟨v, pc, sp, ar, e⟩ := h s
      rw [e]; exact F.trans (hregs r hr s v) (hcpu { s with regs := s.regs.set r v } pc sp ar s.mdr s.ben)
  have res : ∀ (u : State → Micro) r, r ∈ i.writesRegs → (∀ s, ∃ v, (u s).st = writeResult r v s) → MicroKeeps R u :=
    fun u r hr h => mk u fun s => by
      obtain ⟨v, e⟩ := h s
      rw [e]; exact F.trans (hregs r hr s v) (hpsr { s with regs := s.regs.set r v } s.pic (s.psr.setcc v))
  have rd : MicroKeeps R uRead := mk _ fun s => by obtain ⟨_, _, _, _, e⟩ := uRead_shape s; rw [e]; exact hread _ _ _ _ _
  have wr : ∀ m, MicroKeeps R (uWriteMasked m) := fun m => mk _ fun s => by
    obtain ⟨_, _, _, _, _, _, _, e⟩ := uWriteMasked_shape m s; rw [e]; exact hwrite _ _ _ _ _ _ _ _
  have wa : ∀ b o, MicroKeeps R (uWordAddress b o) := fun b o => cpu _ fun s => ⟨_, _, _, _, _, uWordAddress_shape b o s⟩
  have de : MicroKeeps R uDereference := cpu _ fun s => ⟨_, _, _, _, _, uDereference_shape s⟩
  have one : ∀ r : Reg, r ∈ [r] := List.mem_singleton_self
  refine exec_keeps F hexc rd i ?_
  cases i <;> simp only [MicrosKeep, Instr.writesRegs] at *
  case br => exact ⟨fun s b => hcpu s s.pc s.ssp s.mar s.mdr b, cpu _ fun _ => ⟨_, _, _, _, _, rfl⟩⟩
  case ldb => exact ⟨cpu _ fun _ => ⟨_, _, _, _, _, rfl⟩, res _ _ (one _) fun _ => ⟨_, rfl⟩⟩
  case ldw => exact ⟨wa _ _, res _ _ (one _) fun _ => ⟨_, rfl⟩⟩
  case ldi => exact ⟨wa _ _, de, res _ _ (one _) fun _ => ⟨_, rfl⟩⟩
  case stb => exact ⟨cpu _ fun _ => ⟨_, _, _, _, _, rfl⟩, cpu _ fun _ => ⟨_, _, _, _, _, rfl⟩, wr laneMask⟩
  case stw => exact ⟨wa _ _, cpu _ fun _ => ⟨_, _, _, _, _, rfl⟩, wr fun _ => 0xFFFF#16⟩
  case sti => exact ⟨wa _ _, de, cpu _ fun _ => ⟨_, _, _, _, _, rfl⟩, wr fun _ => 0xFFFF#16⟩
  case jmp b => exact cpu _ fun s => ⟨_, _, _, _, _, uJump_st b s⟩
  case jsr => exact reg _ _ (one _) fun _ => ⟨_, _, _, _, rfl⟩
  case jsrr => exact reg _ _ (one _) fun _ => ⟨_, _, _, _, rfl⟩
  case trap => exact ⟨reg _ _ (one _) fun _ => ⟨_, _, _, _, rfl⟩, cpu _ fun _ => ⟨_, _, _, _, _, rfl⟩⟩
  case rti =>
    exact ⟨cpu _ fun _ => ⟨_, _, _, _, _, rfl⟩, cpu _ fun _ => ⟨_, _, _, _, _, rfl⟩,
      reg _ _ (one _) fun _ => ⟨_, _, _, _, rfl⟩, mk _ fun s => hpsr s _ _,
      reg _ _ (one _) fun _ => ⟨_, _, _, _, rfl⟩, reg _ _ (one _) fun _ => ⟨_, _, _, _, rfl⟩⟩
  all_goals exact res _ _ (one _) fun _ => ⟨_, rfl⟩

/-- Settles O26. -/
theorem registerFrame : Obligations.RegisterFrame := by
  unfold Obligations.RegisterFrame
  intro i s t h r hr
  have F : Frame (Eqv fun s => s.regs.get r) := eqv_frame _ (fun _ => by rw [devicesTick_regs]) fun _ _ => rfl
  refine exec_keeps_writes F i (fun _ _ => rfl) (fun _ _ _ _ _ _ => rfl) (fun q hq s v => ?_) (fun _ _ _ => rfl)
    (fun _ _ _ _ _ => rfl) (fun _ _ _ _ _ _ _ _ => rfl) s t h
  have hne : r ≠ q := fun e => hr (e ▸ hq)
  exact Regs.get_set_ne s.regs hne v

/-! #### A stopped clock ends a path where it stands -/

theorem waitFor_stopped {s : State} (h : s.clockOn = false) (w k : UState) (u : State → Micro) : waitFor w k u s = .next s := by
  have hticks : ∀ n, waitTicks w k u n s = .next s := by
    intro n
    induction n with
    | zero => rfl
    | succ n ih =>
      have htick : waitTick w k u s = .next s := by simp [waitTick, systemTick, h]
      rw [waitTicks, htick, andAt_next]
      split
      · exact ih
      · rfl
  exact hticks _

theorem exec_rti_stopped {s : State} (h : s.clockOn = false) : exec .rti s = .next s := by
  have hfork : microBy (fun s => if s.psr.priv = .user then 44#6 else 36#6) uRtiEntry s = .next s := by
    simp [microBy, systemTick, h]
  show returnFromException s = _
  rw [returnFromException, hfork, andThen_next]
  by_cases h44 : s.ustate = 44#6
  · rw [if_pos h44, microTo_stopped h]
  · rw [if_neg h44]
    by_cases h36 : s.ustate = 36#6
    · have h38 : s.ustate ≠ 38#6 := by rw [h36]; decide
      rw [if_pos h36, returnPops_eq, waitFor_stopped h, andAt_next_off h38]
    · rw [if_neg h36]

/-- RTI in user mode raises the violation, whatever else happens, and writes no part of the PSR. -/
theorem exec_rti_user_psr {s t : State} (hu : s.psr.priv = .user) (h : exec .rti s = .next t) : t.psr = s.psr := by
  have F : Frame (Eqv State.psr) := eqv_frame _ devicesTick_psr fun _ _ => rfl
  have hviolation : Keeps (Eqv State.psr) (microTo 18#6 uPrivilegeViolation) :=
    keeps_microTo F _ (microKeeps_of (fun _ => rfl) fun _ _ => rfl)
  have hmode : (uRtiEntry (devicesTick s)).st.psr.priv = .user := by simpa [uRtiEntry] using hu
  have hpath : returnFromException s = .next t := h
  rcases systemTick_cases (fun d => .next (conclude (uRtiEntry d) (if (uRtiEntry d).st.psr.priv = .user then 44#6 else 36#6))) s
    with ⟨hoff, -⟩ | ⟨-, -, hbreak⟩ | ⟨-, -, hon⟩
  · rw [exec_rti_stopped hoff] at h
    cases h
    rfl
  · have hentry : microBy (fun s => if s.psr.priv = .user then 44#6 else 36#6) uRtiEntry s = .fault .keyboardBreak := hbreak
    rw [returnFromException, hentry] at hpath
    cases hpath
  · rw [if_pos hmode] at hon
    have hentry : microBy (fun s => if s.psr.priv = .user then 44#6 else 36#6) uRtiEntry s
      = .next (conclude (uRtiEntry (devicesTick s)) 44#6) := hon
    have h44 : (conclude (uRtiEntry (devicesTick s)) 44#6).ustate = 44#6 := rfl
    rw [returnFromException, hentry, andThen_next, if_pos h44] at hpath
    exact (hviolation _ _ hpath).trans (devicesTick_psr s)

/-- Settles O27: outside the flag writers the PSR stays whole; in user mode RTI never comes to its restore. -/
theorem statusFrame : Obligations.StatusFrame := by
  unfold Obligations.StatusFrame
  intro i s t h
  have hmode : i ≠ .rti → (t.psr.priv, t.psr.priority) = (s.psr.priv, s.psr.priority) := fun hi => by
    have F : Frame (Eqv fun s => (s.psr.priv, s.psr.priority)) := eqv_frame _ (fun _ => by rw [devicesTick_psr]) fun _ _ => rfl
    exact exec_keeps_part _ i F (fun _ _ => rfl) (fun _ _ => rfl) (fun _ _ => rfl) (fun _ _ => rfl) (fun _ _ => rfl)
      (fun _ _ _ _ _ => rfl) (fun _ _ _ _ _ _ _ _ _ => rfl) (.inr fun _ _ => rfl) (.inr fun _ _ _ => rfl) (.inl hi) s t h
  refine ⟨fun hflags => ?_, fun hi => ⟨congrArg Prod.fst (hmode hi), congrArg Prod.snd (hmode hi)⟩, fun hu => ?_⟩
  · have hi : i ≠ .rti := fun e => by rw [e] at hflags; cases hflags
    have F : Frame (Eqv State.psr) := eqv_frame _ devicesTick_psr fun _ _ => rfl
    have hpsr : t.psr = s.psr := exec_keeps_part _ i F (fun _ _ => rfl) (fun _ _ => rfl) (fun _ _ => rfl) (fun _ _ => rfl)
      (fun _ _ => rfl) (fun _ _ _ _ _ => rfl) (fun _ _ _ _ _ _ _ _ _ => rfl) (.inr fun _ _ => rfl) (.inl hflags) (.inl hi) s t h
    rw [hpsr]
    exact ⟨rfl, rfl, rfl⟩
  · by_cases hi : i = .rti
    · subst hi
      rw [exec_rti_user_psr hu h, hu]
    · exact (congrArg Prod.fst (hmode hi)).trans hu

/-- A part of the state that only BR's write of the branch latch and RTI's of SSP may touch: `exec_keeps_part` for a special
register. -/
theorem exec_keeps_special {α : Type} (f : State → α) (i : Instr) (htick : ∀ s, f (devicesTick s) = f s)
    (hstate : ∀ (s : State) k, f { s with ustate := k } = f s) (hexc : ∀ s v, f (raiseException v s) = f s)
    (hcpu : ∀ (s : State) pc ar dr, f { s with pc := pc, mar := ar, mdr := dr } = f s)
    (hregs : ∀ (s : State) x q, f { s with regs := x, psr := q } = f s)
    (hmem : ∀ (s : State) k ds c mc me b r w,
      f { s with kbd := k, dsp := ds, pic := c, mcr := mc, mem := me, busy := b, rdEn := r, wrEn := w } = f s)
    (hben : (∀ n z p o, i ≠ .br n z p o) ∨ ∀ (s : State) b, f { s with ben := b } = f s)
    (hssp : i ≠ .rti ∨ ∀ (s : State) a, f { s with ssp := a } = f s) : Keeps (Eqv f) (exec i) := by
  refine exec_keeps_part f i (eqv_frame f htick hstate) hexc (fun s a => hcpu s s.pc a s.mdr) (fun s a => hcpu s s.pc s.mar a)
    (fun s a => hcpu s a s.mar s.mdr) (fun s x => hregs s x s.psr) (fun s k v b r => ?_) (fun _ s k ds c mc me b w => ?_) hben
    (.inr fun s d v => hregs s (s.regs.set d v) (s.psr.setcc v)) (hssp.imp id fun h => ⟨fun s c q => ?_, h⟩)
  · exact (hmem { s with mdr := v } k s.dsp s.pic s.mcr s.mem b r s.wrEn).trans (hcpu s s.pc s.mar v)
  · exact hmem s k ds c mc me b s.rdEn w
  · exact (hmem { s with psr := q } s.kbd s.dsp c s.mcr s.mem s.busy s.rdEn s.wrEn).trans (hregs s s.regs q)

/-- Settles O28. -/
theorem specialRegisterFrame : Obligations.SpecialRegisterFrame := by
  unfold Obligations.SpecialRegisterFrame
  intro i s t h
  have hfixed : (t.cfg, t.ir, t.usp) = (s.cfg, s.ir, s.usp) :=
    exec_keeps_special (fun s => (s.cfg, s.ir, s.usp)) i (fun s => by rw [devicesTick_cfg, devicesTick_ir, devicesTick_usp])
      (fun _ _ => rfl) (fun _ _ => rfl) (fun _ _ _ _ => rfl) (fun _ _ _ => rfl) (fun _ _ _ _ _ _ _ _ _ => rfl)
      (.inr fun _ _ => rfl) (.inr fun _ _ => rfl) s t h
  have hlatch : Frame fun s t : State => s.intf = true → t.intf = true :=
    ⟨fun _ => id, fun a b => b ∘ a, fun _ => devicesTick_intf_mono, fun _ _ => id⟩
  obtain ⟨hcfg, hir, husp⟩ : t.cfg = s.cfg ∧ t.ir = s.ir ∧ t.usp = s.usp := by simpa using hfixed
  refine ⟨hcfg, hir, husp, fun hi => ?ssp, fun hi => ?ben, ?latch⟩
  case ssp =>
    exact exec_keeps_special State.ssp i devicesTick_ssp (fun _ _ => rfl) (fun _ _ => rfl) (fun _ _ _ _ => rfl) (fun _ _ _ => rfl)
      (fun _ _ _ _ _ _ _ _ _ => rfl) (.inr fun _ _ => rfl) (.inl hi) s t h
  case ben =>
    exact exec_keeps_special State.ben i devicesTick_ben (fun _ _ => rfl) (fun _ _ => rfl) (fun _ _ _ _ => rfl) (fun _ _ _ => rfl)
      (fun _ _ _ _ _ _ _ _ _ => rfl) (.inl hi) (.inr fun _ _ => rfl) s t h
  case latch =>
    exact exec_keeps_writes hlatch i (fun _ _ _ => rfl) (fun _ _ _ _ _ _ => id) (fun _ _ _ _ => id) (fun _ _ _ => id)
      (fun _ _ _ _ _ => id) (fun _ _ _ _ _ _ _ _ => id) s t h

/-- Settles O29. -/
theorem memoryFrameOfNonStores : Obligations.MemoryFrameOfNonStores := by
  unfold Obligations.MemoryFrameOfNonStores
  intro i s t h hi
  have F : Frame (Eqv fun s => (s.mcr, s.mem)) := eqv_frame _ (fun _ => by rw [devicesTick_mcr, devicesTick_mem]) fun _ _ => rfl
  have hkept : (t.mcr, t.mem) = (s.mcr, s.mem) :=
    exec_keeps_part _ i F (fun _ _ => rfl) (fun _ _ => rfl) (fun _ _ => rfl) (fun _ _ => rfl) (fun _ _ => rfl)
      (fun _ _ _ _ _ => rfl) (fun hs => by rw [hi] at hs; cases hs) (.inr fun _ _ => rfl) (.inr fun _ _ _ => rfl)
      (.inr ⟨fun _ _ _ => rfl, fun _ _ => rfl⟩) s t h
  obtain ⟨hmcr, hmem⟩ : t.mcr = s.mcr ∧ t.mem = s.mem := by simpa using hkept
  exact ⟨hmcr, fun a => by rw [hmem]⟩

/-! ### What a store writes, byte by byte (20_memory.md R44, R47) -/

theorem lowByte_wordOfBytes (lo hi : Byte) : Word.lowByte (wordOfBytes lo hi) = lo :=
  BitVec.extractLsb'_append_eq_right

theorem highByte_wordOfBytes (lo hi : Byte) : Word.highByte (wordOfBytes lo hi) = hi :=
  BitVec.extractLsb'_append_eq_left

/-- A field of a masked merge that the mask covers whole. -/
theorem extractLsb'_mergeMask_new {start len : Nat} (old v m : Word) (h : m.extractLsb' start len = BitVec.allOnes len)
    (h' : (~~~m).extractLsb' start len = 0#len) : (mergeMask old v m).extractLsb' start len = v.extractLsb' start len := by
  rw [mergeMask, BitVec.extractLsb'_or, BitVec.extractLsb'_and, BitVec.extractLsb'_and, h, h', BitVec.and_zero, BitVec.zero_or,
    BitVec.and_allOnes]

/-- A field of a masked merge that the mask leaves out. -/
theorem extractLsb'_mergeMask_old {start len : Nat} (old v m : Word) (h : m.extractLsb' start len = 0#len)
    (h' : (~~~m).extractLsb' start len = BitVec.allOnes len) :
    (mergeMask old v m).extractLsb' start len = old.extractLsb' start len := by
  rw [mergeMask, BitVec.extractLsb'_or, BitVec.extractLsb'_and, BitVec.extractLsb'_and, h, h', BitVec.and_zero, BitVec.or_zero,
    BitVec.and_allOnes]

theorem lowByte_mergeMask_upper (old v : Word) : Word.lowByte (mergeMask old v 0xFF00#16) = Word.lowByte old :=
  extractLsb'_mergeMask_old old v _ (by decide) (by decide)

theorem lowByte_mergeMask_lower (old v : Word) : Word.lowByte (mergeMask old v 0x00FF#16) = Word.lowByte v :=
  extractLsb'_mergeMask_new old v _ (by decide) (by decide)

theorem highByte_mergeMask_upper (old v : Word) : Word.highByte (mergeMask old v 0xFF00#16) = Word.highByte v :=
  extractLsb'_mergeMask_new old v _ (by decide) (by decide)

theorem highByte_mergeMask_lower (old v : Word) : Word.highByte (mergeMask old v 0x00FF#16) = Word.highByte old :=
  extractLsb'_mergeMask_old old v _ (by decide) (by decide)

/-- The byte at `x` after a store to the array: the two lanes of the merged word, and every other byte as it was. -/
theorem read_storeWord_array {s : State} (hwf : Memory.wf s.mem = true) {a : Word} (ha : inArray a = true) (v m : Word) (x : Nat) :
    Memory.read (storeWord a v m s).mem x
      = if x = (evenAddr a).toNat then Word.lowByte (mergeMask (Memory.readWord s.mem (evenAddr a)) v m)
        else if x = (evenAddr a).toNat + 1 then Word.highByte (mergeMask (Memory.readWord s.mem (evenAddr a)) v m)
        else Memory.read s.mem x := by
  rw [storeWord_array s ha]
  exact Memory.read_writeWord hwf (evenAddr_lt_limit (by simpa [inArray] using ha)) _ x

/-- A store leaves every byte outside its word. -/
theorem read_storeWord_other {s : State} (hwf : Memory.wf s.mem = true) (a v m : Word) {x : Nat} (h0 : x ≠ (evenAddr a).toNat)
    (h1 : x ≠ (evenAddr a).toNat + 1) : Memory.read (storeWord a v m s).mem x = Memory.read s.mem x := by
  cases ha : inArray a with
  | false => rw [storeWord_mem_device s ha]
  | true => rw [read_storeWord_array hwf ha, if_neg h0, if_neg h1]

theorem toNat_mod_two (a : Word) : a.toNat % 2 = (isOdd a).toNat := by
  rw [isOdd, BitVec.getLsbD, Nat.testBit_zero]
  rcases Nat.mod_two_eq_zero_or_one a.toNat with h | h <;> rw [h] <;> rfl

/-- A masked store of one lane puts the lane's byte at its own address, and leaves every other. -/
theorem read_storeWord_lane {s : State} (hwf : Memory.wf s.mem = true) {a : Word} (ha : inArray a = true) (b : Byte) (x : Nat) :
    Memory.read (storeWord a (b ++ b) (laneMask a) s).mem x = if x = a.toNat then b else Memory.read s.mem x := by
  have heven := evenAddr_toNat a
  have hmod := toNat_mod_two a
  have hbb : b ++ b = wordOfBytes b b := rfl
  rw [read_storeWord_array hwf ha, laneMask, hbb]
  cases hodd : isOdd a <;> rw [hodd] at hmod
  · have ha0 : (evenAddr a).toNat = a.toNat := by simp at hmod; omega
    have hne : a.toNat ≠ a.toNat + 1 := by omega
    simp only [Bool.false_eq_true, if_false, ha0, lowByte_mergeMask_lower, lowByte_wordOfBytes, highByte_mergeMask_lower,
      Memory.readWord, highByte_wordOfBytes]
    split
    · rfl
    · split
      · rename_i h; rw [h]
      · rfl
  · have ha1 : a.toNat = (evenAddr a).toNat + 1 := by simp at hmod; omega
    simp only [if_true, ha1, lowByte_mergeMask_upper, lowByte_wordOfBytes, highByte_mergeMask_upper, Memory.readWord,
      highByte_wordOfBytes]
    split
    · rename_i h
      rw [if_neg (by omega), h]
    · rfl

/-- Settles O30: where an address is odd and checked nothing is stored; else the store of the last wait state is the one. -/
theorem memoryFrameOfStores : Obligations.MemoryFrameOfStores := by
  unfold Obligations.MemoryFrameOfStores
  intro s t sr base o h hdata
  have hwf : ∀ n, Memory.wf (devicesTicks n s).mem = true := fun n => by
    rw [devicesTicks_mem]; exact ((dataInv_iff s).1 hdata).1
  refine ⟨fun ht a ha => ?stb, fun ht ea hea a h0 h1 => ?stw, fun ht ea hea a h0 h1 => ?sti⟩
  case stb =>
    rw [stbResult s sr base o h] at ht
    cases ht
    show Memory.read (storeWord _ _ (laneMask _) _).mem a = _
    cases hin : inArray (byteAddress s.regs base o) with
    | false => rw [← devicesTicks_mem (s.cfg.memDelay + 3) s]; exact congrArg (Memory.read · a) (storeWord_mem_device _ hin _ _)
    | true => rw [← devicesTicks_mem (s.cfg.memDelay + 3) s]; exact (read_storeWord_lane (hwf _) hin _ a).trans (if_neg ha)
  case stw =>
    subst hea
    cases hodd : isOdd (wordAddress s.regs base o) with
    | true =>
      rw [(oddFirstAddressTraps s sr base o (atEntry_runs h) hodd).2.1] at ht
      cases ht
      exact congrArg (Memory.read · a) (devicesTick_mem s)
    | false =>
      rw [stwResult s sr base o h hodd] at ht
      cases ht
      rw [← devicesTicks_mem (s.cfg.memDelay + 3) s]
      exact read_storeWord_other (hwf _) _ _ _ h0 h1
  case sti =>
    subst hea
    cases hodd : isOdd (wordAddress s.regs base o) with
    | true =>
      rw [(oddFirstAddressTraps s sr base o (atEntry_runs h) hodd).2.2.2] at ht
      cases ht
      exact congrArg (Memory.read · a) (devicesTick_mem s)
    | false =>
      cases hodd' : isOdd (loadWord (wordAddress s.regs base o) (devicesTicks (s.cfg.memDelay + 2) s)).1 with
      | true =>
        rw [(oddSecondAddressTraps s sr base o h hodd hodd').2] at ht
        cases ht
        exact congrArg (Memory.read · a) (by simp)
      | false =>
        rw [stiResult s sr base o h hodd hodd'] at ht
        cases ht
        have hmem : (devicesTicks (s.cfg.memDelay + 3)
          (loadWord (wordAddress s.regs base o) (devicesTicks (s.cfg.memDelay + 2) s)).2).mem = s.mem := by simp
        rw [← hmem]
        exact read_storeWord_other (hmem ▸ ((dataInv_iff s).1 hdata).1) _ _ _ h0 h1

end Sys2Proof.Machine
end

section

namespace Sys2Proof.Machine

/-! ### Loads after stores (20_memory.md R44, R47, R60) -/

/-- Loads of the array see memory and nothing else. -/
theorem loadWord_of_mem {t : State} {m : List Host.Cell} {a : Word} (ha : inArray a = true) (hm : t.mem = m) :
    (loadWord a t).1 = Memory.readWord m (evenAddr a) := by
  rw [loadWord_array t ha, hm]

theorem readWord_storeWord_self {s : State} (hwf : Memory.wf s.mem = true) {a : Word} (ha : inArray a = true) (v m : Word) :
    Memory.readWord (storeWord a v m s).mem (evenAddr a) = mergeMask (Memory.readWord s.mem (evenAddr a)) v m := by
  rw [storeWord_array s ha]
  exact Memory.readWord_writeWord_self hwf (evenAddr_lt_limit (by simpa [inArray] using ha)) _

theorem readWord_storeWord_other {s : State} (hwf : Memory.wf s.mem = true) {a b : Word} (h : evenAddr b ≠ evenAddr a)
    (v m : Word) : Memory.readWord (storeWord a v m s).mem (evenAddr b) = Memory.readWord s.mem (evenAddr b) := by
  have hne : (evenAddr b).toNat ≠ (evenAddr a).toNat := fun e => h (BitVec.eq_of_toNat_eq e)
  have ha := evenAddr_toNat a
  have hb := evenAddr_toNat b
  rw [Memory.readWord, Memory.readWord, read_storeWord_other hwf a v m (by omega) (by omega),
    read_storeWord_other hwf a v m (by omega) (by omega)]

/-- A load of another word than an array store's sees nothing of the store. -/
theorem loadWord_storeWord_other {s : State} (hwf : Memory.wf s.mem = true) {a b : Word} (ha : inArray a = true)
    (h : evenAddr b ≠ evenAddr a) (v m : Word) : (loadWord b (storeWord a v m s)).1 = (loadWord b s).1 := by
  cases hb : inArray b with
  | true => rw [loadWord_of_mem hb rfl, loadWord_of_mem hb rfl, readWord_storeWord_other hwf h]
  | false =>
    have hdev : inMmio (evenAddr b) = true := by simpa [inArray] using hb
    rw [storeWord_array s ha, loadWord, loadWord]
    cases devAt (evenAddr b) with
    | some d => cases d <;> rfl
    | none => simp only [hdev, if_true]

theorem mergeMask_lane (old : Word) (b : Byte) (a : Word) : mergeMask old (b ++ b) (laneMask a)
    = if isOdd a then b ++ Word.lowByte old else Word.highByte old ++ b := by
  have hbb : b ++ b = wordOfBytes b b := rfl
  rw [← wordOfBytes_lanes (mergeMask old (b ++ b) (laneMask a)), hbb, laneMask]
  cases isOdd a
  · simp only [Bool.false_eq_true, if_false, lowByte_mergeMask_lower, highByte_mergeMask_lower, lowByte_wordOfBytes]
    rfl
  · simp only [if_true, lowByte_mergeMask_upper, highByte_mergeMask_upper, highByte_wordOfBytes]
    rfl

/-- Settles O51. -/
theorem loadAfterStore : Obligations.LoadAfterStore := by
  unfold Obligations.LoadAfterStore
  intro s a b v hdata ha
  have hwf := ((dataInv_iff s).1 hdata).1
  refine ⟨?_, ?_, fun h m => loadWord_storeWord_other hwf ha h v m⟩
  · rw [loadWord_of_mem ha rfl, readWord_storeWord_self hwf ha, mergeMask_full]
  · rw [loadWord_of_mem ha rfl, readWord_storeWord_self hwf ha, bothLanes, mergeMask_lane, loadWord_of_mem ha rfl]
    rfl

/-! ### A step that fetches (40_microsequencer.md R97 to R102) -/

theorem atFetch_parts {s : State} (h : s.atFetch = true) :
    s.runs = true ∧ s.rdEn = false ∧ s.wrEn = false ∧ isFetchState s.ustate = true := by
  simpa [State.atFetch, State.memIdle, and_assoc] using h

theorem isEntryState_opcode : ∀ op : BitVec 4, isEntryState (op.setWidth 6) = true := by decide

theorem afterDecode_entry {t : State} {w : Word} (hk : t.ustate = (Word.opcode w).setWidth 6) (hir : t.ir = w) :
    afterDecode t = exec (decodeWord w) t := by
  rw [afterDecode, hk, if_pos (isEntryState_opcode _), hir]

/-- Settles O32: the four states 18, 33, 35 and 32 one after the other. -/
theorem stepFetchesLikeALoad : Obligations.StepFetchesLikeALoad := by
  unfold Obligations.StepFetchesLikeALoad
  intro s h r
  obtain ⟨hfetch, hintf⟩ : s.atFetch = true ∧ (devicesTick s).intf = false := by simpa [State.fetches] using h
  obtain ⟨hrun, hrd, hwr, hstate⟩ := atFetch_parts hfetch
  have hnone : ¬ (devicesTick s).intf = true := by rw [hintf]; decide
  have hrun' : r.2.runs = true := by simpa [r] using devicesTicks_runs hrun _
  have hover0 : ({ devicesTick s with mar := s.pc, pc := s.pc + 2#16, ustate := 33#6 } : State).IsOver (devicesTick s) :=
    ⟨rfl, .inl rfl⟩
  have hover1 : ({ r.2 with mar := s.pc, pc := s.pc + 2#16, mdr := r.1, ustate := 35#6, busy := 0 } : State).IsOver r.2 :=
    ⟨rfl, .inl rfl⟩
  have hover2 : ({ devicesTick r.2 with mar := s.pc, pc := s.pc + 2#16, mdr := r.1, ir := r.1, ustate := 32#6, busy := 0 } :
    State).IsOver (devicesTick r.2) := ⟨rfl, .inl rfl⟩
  have hdecode : fetchDecode s = .next { devicesTicks 2 r.2 with
      pc := s.pc + 2#16, ir := r.1, mar := s.pc, mdr := r.1,
      ben := branchEnable (r.1.getLsbD 11) (r.1.getLsbD 10) (r.1.getLsbD 9) s.psr,
      ustate := (r.1.extractLsb' 12 4).setWidth 6, busy := 0 } :=
    calc fetchDecode s
        = andAt (waitFor 33#6 35#6 uRead { devicesTick s with mar := s.pc, pc := s.pc + 2#16, ustate := 33#6 }) 35#6 fun s =>
            andAt (microTo 32#6 uLatchIr s) 32#6 fun s => microBy (fun s => (Word.opcode s.ir).setWidth 6) uDecode s := by
          rw [fetchDecode, microBy_runs hrun, uFetch, conclude_none, if_neg hnone, andAt_next_at rfl, devicesTick_pc]
      _ = andAt (microTo 32#6 uLatchIr { r.2 with mar := s.pc, pc := s.pc + 2#16, mdr := r.1, ustate := 35#6, busy := 0 }) 32#6
            fun s => microBy (fun s => (Word.opcode s.ir).setWidth 6) uDecode s := by
          rw [waitFor_read_over hover0 (devicesTick_runs hrun) (by simpa) (by simpa) (by decide),
            andAt_next_at rfl, devicesTick_cfg]
          refine congrArg (fun s => andAt (microTo 32#6 uLatchIr s) 32#6 _) ?_
          apply State.ext_fields <;> simp [State.withCpu, r, devicesTicks]
      _ = microBy (fun s => (Word.opcode s.ir).setWidth 6) uDecode
            { devicesTick r.2 with mar := s.pc, pc := s.pc + 2#16, mdr := r.1, ir := r.1, ustate := 32#6, busy := 0 } := by
          rw [microTo_over hover1 hrun', uLatchIr, conclude_none, andAt_next_at rfl]
          refine congrArg (microBy _ uDecode) ?_
          apply State.ext_fields <;> simp [State.withCpu]
      _ = _ := by
          rw [microBy_over hover2 (devicesTick_runs hrun'), uDecode, conclude_none]
          refine congrArg Host.Outcome.next ?_
          apply State.ext_fields <;> simp [State.withCpu, r, devicesTicks, Word.opcode]
  rw [step_of_fetch hstate, hdecode, andThen_next, afterDecode_entry (w := r.1) rfl rfl]

/-- Settles O31: in the array the word that the fetch loads is the word of the two bytes. -/
theorem stepRunsDecodedInstruction : Obligations.StepRunsDecodedInstruction := by
  unfold Obligations.StepRunsDecodedInstruction
  intro s i w h hpc hw hdecode
  have hload : loadWord s.pc (devicesTicks (s.cfg.memDelay + 2) s) = (w, devicesTicks (s.cfg.memDelay + 2) s) := by
    rw [loadWord_array _ hpc, devicesTicks_mem, hw]
  have hi : decodeWord w = i := by
    rw [hw]
    injection hdecode with hpair
    exact congrArg Prod.fst hpair
  rw [stepFetchesLikeALoad s h, hload, hi, ← devicesTicks_add]

/-! ### A step that serves an event (60_exceptions.md R204 to R215, 70_reset_and_hazards.md R272) -/

/-- Where a step that serves an event comes to state 37 (`step_serves`): the supervisor stack is taken, PSR waits in MDR. -/
def State.atPushes (s : State) : State :=
  { (devicesTicks (if s.psr.priv = .user then 3 else 2) s).withCpu s with
    regs := s.regs.set .r6 s.serviceStack, usp := if s.psr.priv = .user then s.regs.get .r6 else s.usp,
    mar := s.pc, mdr := s.psr.word, ustate := 37#6, busy := s.busy - (if s.psr.priv = .user then 3 else 2) }

/-- The other blocks' state at that point. -/
def State.pushBase (s : State) : State := devicesTicks (if s.psr.priv = .user then 3 else 2) s

theorem serves_parts {s : State} (h : s.serves = true) :
    s.runs = true ∧ s.rdEn = false ∧ s.wrEn = false ∧ (devicesTick s).intf = true := by
  obtain ⟨hfetch, hintf⟩ : s.atFetch = true ∧ (devicesTick s).intf = true := by simpa [State.serves] using h
  obtain ⟨hrun, hrd, hwr, -⟩ := atFetch_parts hfetch
  exact ⟨hrun, hrd, hwr, hintf⟩

theorem pushBase_latch {s : State} (h : s.serves = true) :
    s.pushBase.intf = true ∧ s.pushBase.intv = (devicesTick s).intv ∧ s.pushBase.intp = (devicesTick s).intp := by
  obtain ⟨-, -, -, hintf⟩ := serves_parts h
  unfold State.pushBase
  split
  · exact devicesTicks_latch hintf 2
  · exact devicesTicks_latch hintf 1

theorem atPushes_over {s : State} (h : s.serves = true) : s.atPushes.IsOver s.pushBase := ⟨rfl, .inr (pushBase_latch h).1⟩

theorem atPushes_stack (s : State) : s.atPushes.regs.get .r6 = s.serviceStack := Regs.get_set_self s.regs .r6 s.serviceStack

theorem pushBase_ticks (s : State) : devicesTicks (s.pushBase.cfg.memDelay + 2) s.pushBase
    = devicesTicks (if s.psr.priv = .user then s.cfg.memDelay + 5 else s.cfg.memDelay + 4) s := by
  rw [State.pushBase, ← devicesTicks_add, devicesTicks_cfg]
  refine congrArg (devicesTicks · s) ?_
  split <;> omega

/-- A whole-word store leaves the clock on, unless it clears the enable in MCR. -/
theorem push_clockOn {s : State} (h : s.clockOn = true) {a v : Word} (hv : (evenAddr a != 0xFFFE#16 || v.getLsbD 15) = true) :
    (storeWord a v 0xFFFF#16 s).clockOn = true := by
  by_cases ha : evenAddr a = 0xFFFE#16
  · rw [storeWord_mcr ha]
    simpa [ha, State.clockOn] using hv
  · rw [storeWord_clockOn ha, h]

/-- Settles O33. -/
theorem stepServesLatchedEvent : Obligations.StepServesLatchedEvent := by
  unfold Obligations.StepServesLatchedEvent
  intro s h hkeep d f a b hword
  obtain ⟨hrun, hrd, hwr, -⟩ := serves_parts h
  obtain ⟨hintf, hintv, hintp⟩ := pushBase_latch h
  obtain ⟨hkeep1, hkeep2⟩ : (evenAddr (s.serviceStack - 2#16) != 0xFFFE#16 || s.psr.word.getLsbD 15) = true
    ∧ (evenAddr (s.serviceStack - 4#16) != 0xFFFE#16 || s.pc.getLsbD 15) = true := by
      simpa only [State.pushesKeepClock, Bool.and_eq_true] using hkeep
  have ha : a.clockOn = true := push_clockOn (runs_clockOn (devicesTicks_runs hrun _)) hkeep1
  have hb : b.clockOn = true := push_clockOn (by rw [← ha]; simp [State.clockOn]) hkeep2
  have hbase : s.pushBase.runs = true := devicesTicks_runs hrun _
  have hcfg : s.pushBase.cfg = s.cfg := devicesTicks_cfg _ _
  have hserve := servicePushes_completes (S := s.serviceStack) (atPushes_over h) hbase hintf hrd hwr (atPushes_stack s)
  dsimp only at hserve
  rw [pushBase_ticks, hcfg, hintv, hintp, ivtAddr_eq_add] at hserve
  rw [step_serves h]
  refine (hserve ha hb).trans (congrArg Host.Outcome.next ?_)
  apply State.ext_fields <;> simp [State.withCpu, State.atPushes, b, a, d, f, hword]

/-- Two addresses whose even parts are the same are less than a word apart. -/
theorem evenAddr_add_two_ne (a : Word) : evenAddr (a + 2#16) ≠ evenAddr a := by
  intro e
  have e := congrArg BitVec.toNat e
  rw [evenAddr_toNat, evenAddr_toNat, BitVec.toNat_add, BitVec.toNat_ofNat] at e
  omega

theorem sub_four_add_two (a : Word) : a - 4#16 + 2#16 = a - 2#16 := by bv_omega

/-- Settles O34: the second push does not reach the first one's word. -/
theorem serviceFrameLayout : Obligations.ServiceFrameLayout := by
  unfold Obligations.ServiceFrameLayout
  intro s h hdata hkeep
  have hwf := ((dataInv_iff s).1 hdata).1
  have hne : evenAddr (s.serviceStack - 2#16) ≠ evenAddr (s.serviceStack - 4#16) := by
    rw [← sub_four_add_two]; exact evenAddr_add_two_ne _
  let g := devicesTicks (if s.psr.priv = .user then s.cfg.memDelay + 5 else s.cfg.memDelay + 4) s
  let a := storeWord (s.serviceStack - 2#16) s.psr.word 0xFFFF#16 g
  let b := storeWord (s.serviceStack - 4#16) s.pc 0xFFFF#16 (devicesTicks (s.cfg.memDelay + 3) a)
  have hg : g.mem = s.mem := devicesTicks_mem _ _
  have hwfg : Memory.wf g.mem = true := hg ▸ hwf
  have ha : (devicesTicks (s.cfg.memDelay + 3) a).mem = a.mem := devicesTicks_mem _ _
  have hwfa : Memory.wf (devicesTicks (s.cfg.memDelay + 3) a).mem = true := ha ▸ storeWord_wf hwfg _ _ _
  obtain ⟨t, hstep, hregs, hmem⟩ :
      ∃ t, step s = .next t ∧ t.regs = s.regs.set .r6 (s.serviceStack - 4#16) ∧ t.mem = b.mem :=
    ⟨_, stepServesLatchedEvent s h hkeep, rfl, devicesTicks_mem _ _⟩
  have hstack : t.regs.get .r6 = s.serviceStack - 4#16 := by rw [hregs, Regs.get_set_self]
  refine ⟨t, hstep, hstack, fun hin => ?pc, fun hin => ?psr, fun x hx => ?frame⟩
  case pc => rw [hstack, loadWord_of_mem hin hmem, readWord_storeWord_self hwfa hin, mergeMask_full]
  case psr =>
    rw [hstack, sub_four_add_two, loadWord_of_mem hin hmem, readWord_storeWord_other hwfa hne, ha,
      readWord_storeWord_self hwfg hin, mergeMask_full]
  case frame =>
    simp only [List.mem_cons, List.not_mem_nil, or_false, not_or] at hx
    obtain ⟨h2, h2', h4, h4'⟩ := hx
    rw [hmem, read_storeWord_other hwfa _ _ _ h4 h4', ha, read_storeWord_other hwfg _ _ _ h2 h2', hg]

/-! ### The PSR's word, bit by bit (10_state.md R15, R16) -/

theorem Mode.toBit_eq (m : Mode) : m.toBit = BitVec.ofBool (m == .user) := by cases m <;> rfl

theorem Mode.toBit_ofBool (b : Bool) : (Mode.ofBool b).toBit = BitVec.ofBool b := by cases b <;> rfl

theorem Psr.word_priv (q : Psr) : q.word.getLsbD 15 = (q.priv == .user) := by
  simp only [Psr.word, BitVec.getLsbD_append]
  simp [Mode.toBit_eq]

theorem Psr.word_priority (q : Psr) : q.word.extractLsb' 8 3 = q.priority := by
  rw [Psr.word]
  repeat rw [BitVec.extractLsb'_append_eq_of_le (by decide)]
  exact BitVec.extractLsb'_append_eq_right

theorem Psr.word_flags (q : Psr) : q.word.getLsbD 2 = q.n ∧ q.word.getLsbD 1 = q.z ∧ q.word.getLsbD 0 = q.p := by
  simp only [Psr.word, BitVec.getLsbD_append]
  simp

theorem Psr.word_reserved (q : Psr) : q.word &&& 0x78F8#16 = 0#16 := by
  apply BitVec.eq_of_getLsbD_eq
  intro i hi
  simp only [Psr.word, BitVec.getLsbD_append, BitVec.getLsbD_and]
  interval_cases i <;> simp

theorem Psr.word_ofWord (w : Word) : (Psr.ofWord w).word = w &&& 0x8707#16 := by
  apply BitVec.eq_of_getLsbD_eq
  intro i hi
  simp only [Psr.word, Psr.ofWord, BitVec.getLsbD_append, BitVec.getLsbD_and]
  interval_cases i <;> simp [Mode.toBit_ofBool]

/-- Settles O50. -/
theorem psrWordView : Obligations.PsrWordView := by
  unfold Obligations.PsrWordView
  refine ⟨fun q => ?_, fun w => rfl, Psr.word_ofWord, Psr.ofWord_word⟩
  obtain ⟨hn, hz, hp⟩ := Psr.word_flags q
  exact ⟨Psr.word_priv q, Psr.word_priority q, hn, hz, hp, Psr.word_reserved q⟩

/-! ### A push onto MCR (70_reset_and_hazards.md R272) -/

/-- Settles O35: either push, landing on MCR with bit 15 clear, leaves the clock off at the next tick. -/
theorem pushOntoMcrStopsTheClock : Obligations.PushOntoMcrStopsTheClock := by
  unfold Obligations.PushOntoMcrStopsTheClock
  intro s h
  obtain ⟨hrun, hrd, hwr, -⟩ := serves_parts h
  obtain ⟨hintf, -, -⟩ := pushBase_latch h
  have hbase : s.pushBase.runs = true := devicesTicks_runs hrun _
  have hcfg : s.pushBase.cfg = s.cfg := devicesTicks_cfg _ _
  refine ⟨fun hmode hmcr => ?first, fun hpc hmcr => ?second⟩
  case first =>
    have hstack : s.serviceStack = s.regs.get .r6 := if_neg (by rw [hmode]; decide)
    have hbit : s.psr.word.getLsbD 15 = false := by rw [Psr.word_priv, hmode]; rfl
    have hstop := servicePushes_stopsFirst (S := s.serviceStack) (atPushes_over h) hbase hintf hrd hwr (atPushes_stack s)
    dsimp only at hstop
    rw [pushBase_ticks, hstack, storeWord_mcr hmcr, if_neg (by rw [hmode]; decide)] at hstop
    refine ⟨(step_serves h).trans ((hstop hbit).trans (congrArg Host.Outcome.next ?_)), hbit⟩
    apply State.ext_fields <;> simp [State.withCpu, State.atPushes, hmode]
  case second =>
    intro a
    have ha : a.clockOn = true := by
      have hother : evenAddr (s.serviceStack - 2#16) ≠ 0xFFFE#16 := by
        rw [← sub_four_add_two, ← hmcr]; exact evenAddr_add_two_ne _
      rw [storeWord_clockOn hother]
      exact runs_clockOn (devicesTicks_runs hrun _)
    have hstop := servicePushes_stopsSecond (S := s.serviceStack) (atPushes_over h) hbase hintf hrd hwr (atPushes_stack s)
    dsimp only at hstop
    rw [pushBase_ticks, hcfg, storeWord_mcr hmcr] at hstop
    refine (step_serves h).trans ((hstop ha hpc).trans (congrArg Host.Outcome.next ?_))
    apply State.ext_fields <;> simp [State.withCpu, State.atPushes, a]

end Sys2Proof.Machine
end

section

namespace Sys2Proof.Machine

/-! ### The alignment check, tick by tick (42_load_store.md R137) -/

/-- A tick of a state that writes MAR and checks it. -/
theorem tick_checked {s : State} (h : s.runs = true) {k j : UState} (hk : s.ustate = k) (he : csEntry k = some ⟨false, none, j⟩)
    {a : Word} (hop : microOp k (devicesTick s) = some (checkEven { devicesTick s with mar := a })) :
    tick s = if a.getLsbD 0 then .next { devicesTick s with
        mar := a, intf := true, intv := s.cfg.excIllAddr, intp := s.cfg.excPriority, ustate := 18#6 }
      else .next { devicesTick s with mar := a, ustate := j } := by
  rw [tick_runs h hk he hop, checkEven, isOdd]
  cases a.getLsbD 0
  · rfl
  · rw [← devicesTick_cfg s]
    rfl

/-- Settles O45. -/
theorem tickChecksAlignment : Obligations.TickChecksAlignment := by
  unfold Obligations.TickChecksAlignment
  intro s h ea go
  have haddress : wordAddress (devicesTick s).regs (Word.sr1 (devicesTick s).ir) (Word.offset6 (devicesTick s).ir) = ea := by
    rw [devicesTick_ir, devicesTick_regs]; rfl
  have hword : some (uWordAddress (Word.sr1 (devicesTick s).ir) (Word.offset6 (devicesTick s).ir) (devicesTick s))
      = some (checkEven { devicesTick s with mar := ea }) :=
    congrArg (fun a => some (checkEven { devicesTick s with mar := a })) haddress
  have hderef : some (uDereference (devicesTick s)) = some (checkEven { devicesTick s with mar := s.mdr }) :=
    congrArg (fun a => some (checkEven { devicesTick s with mar := a })) (devicesTick_mdr s)
  refine ⟨fun hk => tick_checked h hk rfl hword, fun hk => tick_checked h hk rfl hword, fun hk => tick_checked h hk rfl hword,
    fun hk => tick_checked h hk rfl hword, fun hk => tick_checked h hk rfl hderef, fun hk => tick_checked h hk rfl hderef,
    fun hk => ?_⟩
  have haddress : byteAddress (devicesTick s).regs (Word.sr1 (devicesTick s).ir) (Word.offset6 (devicesTick s).ir)
      = byteAddress s.regs (Word.sr1 s.ir) (Word.offset6 s.ir) := by rw [devicesTick_ir, devicesTick_regs]
  have hbyte : some (uByteAddress (Word.sr1 (devicesTick s).ir) (Word.offset6 (devicesTick s).ir) (devicesTick s))
      = some { st := { devicesTick s with mar := byteAddress s.regs (Word.sr1 s.ir) (Word.offset6 s.ir) } } :=
    congrArg (fun a => some ({ st := { devicesTick s with mar := a } } : Micro)) haddress
  rcases (by simpa using hk : s.ustate = 2#6 ∨ s.ustate = 3#6) with hk | hk <;> rw [hk]
  · exact tick_runs h hk rfl hbyte
  · exact tick_runs h hk rfl hbyte

/-! ### Device registers by their addresses (20_memory.md R48, R57, R58) -/

theorem loadWord_device {a : Word} {d : DevReg} (h : devAt (evenAddr a) = some d) (s : State) :
    loadWord a s = (devPeek d s, devReadEffect d s) := by
  rw [loadWord, h]

theorem storeWord_device {a : Word} {d : DevReg} (h : devAt (evenAddr a) = some d) (v : Word) (s : State) :
    storeWord a v 0xFFFF#16 s = devSet d v s := by
  rw [storeWord, h]
  exact congrArg (devSet d · s) (mergeMask_full _ v)

theorem loadWord_kbsr (s : State) : loadWord 0xFE00#16 s = (statusWord s.kbd.ready s.kbd.ie, s) :=
  loadWord_device (d := .kbsr) (by decide) s

theorem loadWord_kbdr (s : State) :
    loadWord 0xFE02#16 s = (s.kbd.data.setWidth 16, { s with kbd := { s.kbd with ready := false } }) :=
  loadWord_device (d := .kbdr) (by decide) s

theorem loadWord_dsr (s : State) : loadWord 0xFE04#16 s = (statusWord s.dsp.ready s.dsp.ie, s) :=
  loadWord_device (d := .dsr) (by decide) s

theorem loadWord_ddr (s : State) : loadWord 0xFE06#16 s = (s.dsp.data.setWidth 16, s) := loadWord_device (d := .ddr) (by decide) s

/-! ### Reset (70_reset_and_hazards.md R260 to R262) -/

theorem reset_eq_hostReset : State.reset = hostReset State.reset := rfl

theorem hostReset_inv {s : State} (h : s.dataInv = true) : (hostReset s).inv = true := by
  obtain ⟨hwf, -, -, hcfg⟩ := (dataInv_iff s).1 h
  exact (inv_iff _).2 ⟨rfl, memUnit_idle ⟨rfl, rfl, rfl⟩, (dataInv_iff _).2 ⟨hwf, BitVec.and_zero, rfl, hcfg⟩⟩

/-- Settles O42: `State.reset` is itself a reset, so one case tells both. -/
theorem resetMeetsInvariant : Obligations.ResetMeetsInvariant := by
  unfold Obligations.ResetMeetsInvariant
  refine ⟨fun t ht => ?values, hostReset_inv (s := State.reset) (by decide),
    fun s => ⟨hostReset_inv, rfl, rfl, rfl, rfl, rfl⟩⟩
  obtain ⟨s, rfl⟩ : ∃ s, t = hostReset s := ht.elim (fun h => ⟨State.reset, h.trans reset_eq_hostReset⟩) id
  have hkbsr : (loadWord 0xFE00#16 (hostReset s)).1 = 0x4000#16 := by rw [loadWord_kbsr]; show statusWord false true = _; decide
  have hkbdr : (loadWord 0xFE02#16 (hostReset s)).1 = 0#16 := by rw [loadWord_kbdr]; show (0#8).setWidth 16 = _; decide
  have hdsr : (loadWord 0xFE04#16 (hostReset s)).1 = 0x8000#16 := by rw [loadWord_dsr]; show statusWord true false = _; decide
  have hddr : (loadWord 0xFE06#16 (hostReset s)).1 = 0#16 := by rw [loadWord_ddr]; show (0#8).setWidth 16 = _; decide
  have hword : (hostReset s).psr.word = 0#16 := by show Psr.word ⟨.supervisor, 0#3, false, false, false⟩ = _; decide
  refine ⟨fun r => ?_, rfl, rfl, rfl, rfl, hword, rfl, rfl, rfl, rfl, rfl, rfl, rfl, rfl, rfl, rfl, rfl, rfl, rfl, rfl, rfl,
    hkbsr, hkbdr, hdsr, hddr, rfl, rfl, BitVec.getLsbD_zero⟩
  cases r <;> rfl

/-! ### The interrupt controller's registers (60_exceptions.md R217, R218, R223) -/

theorem Pic.raise_irr_hasLine (c : Pic) (l m : Line) :
    hasLine (c.raise l).irr m = (hasLine c.irr m || (m == l && !hasLine c.imr l && !hasLine c.isr l)) := by
  rw [Pic.raise]
  cases hasLine c.imr l <;> cases hasLine c.isr l <;> simp [hasLine_or, hasLine_lineBit]

theorem Pic.raise_others (c : Pic) (l : Line) :
    (c.raise l).isr = c.isr ∧ (c.raise l).imr = c.imr ∧ (c.raise l).cmd = c.cmd := by
  rw [Pic.raise]
  split <;> exact ⟨rfl, rfl, rfl⟩

/-- Settles O55. -/
theorem picRaiseAndFinish : Obligations.PicRaiseAndFinish := by
  unfold Obligations.PicRaiseAndFinish
  intro c l m
  obtain ⟨hisr, himr, hcmd⟩ := c.raise_others l
  refine ⟨c.raise_irr_hasLine l m, hisr, himr, hcmd, ?_, rfl, rfl, rfl⟩
  rw [Pic.finish, hasLine_and_not, hasLine_lineBit, bne]

theorem zero_append_byte (b : Byte) : 0#8 ++ b = b.setWidth 16 :=
  (BitVec.setWidth_eq_append (by decide)).symm

/-- Settles O60. -/
theorem picDataRegister : Obligations.PicDataRegister := by
  unfold Obligations.PicDataRegister
  intro s hcfg
  have hload : loadWord 0xFE12#16 s = (s.pic.readData s.cfg, s) := loadWord_device (d := .icdr) (by decide) s
  have hdistinct : [s.cfg.cmdReadIrr, s.cfg.cmdReadIsr, s.cfg.cmdReadImr, s.cfg.cmdWriteImr].Nodup := by
    simp only [Params.wellFormed, Bool.and_eq_true, decide_eq_true_eq] at hcfg
    exact hcfg.2
  obtain ⟨⟨hirrIsr, hirrImr, -⟩, ⟨hisrImr, -⟩, -⟩ := by simpa using hdistinct
  rw [hload, Pic.readData]
  refine ⟨fun h => ?_, fun h => ?_, fun h => ?_, fun h => ?_⟩
  · rw [if_pos h, zero_append_byte]
  · rw [if_neg (h ▸ Ne.symm hirrIsr), if_pos h, zero_append_byte]
  · rw [if_neg (h ▸ Ne.symm hirrImr), if_neg (h ▸ Ne.symm hisrImr), if_pos h, zero_append_byte]
  · simp only [List.mem_cons, List.not_mem_nil, or_false, not_or] at h
    rw [if_neg h.1, if_neg h.2.1, if_neg h.2.2]

theorem evenAddr_evenAddr (a : Word) : evenAddr (evenAddr a) = evenAddr a := by
  rw [evenAddr, evenAddr, BitVec.and_assoc, BitVec.and_self]

/-- Outside the seven addresses there is no register. -/
theorem devAt_reserved {w : Word} (h : w ∉ [0xFE00#16, 0xFE02#16, 0xFE04#16, 0xFE06#16, 0xFE10#16, 0xFE12#16, 0xFFFE#16]) :
    devAt w = none := by
  simp only [List.mem_cons, List.not_mem_nil, or_false, not_or] at h
  obtain ⟨h0, h1, h2, h3, h4, h5, h6⟩ := h
  rw [devAt, if_neg h0, if_neg h1, if_neg h2, if_neg h3, if_neg h4, if_neg h5, if_neg h6]

theorem inMmio_of_le {w : Word} (h : 0xFE00 ≤ w.toNat) : inMmio w = true := by
  rw [← Bool.not_eq_false, inMmio_false]
  have hlimit : Memory.limit = 0xFE00 := by decide
  omega

theorem loadWord_evenAddr (a : Word) (s : State) : loadWord a s = loadWord (evenAddr a) s := by
  rw [loadWord, loadWord, evenAddr_evenAddr]

/-- A masked store is one whole-word store of the merged value (R48). -/
theorem storeWord_eq_merged (a v m : Word) (s : State) :
    storeWord a v m s = storeWord (evenAddr a) (mergeMask (loadWord (evenAddr a) s).1 v m) 0xFFFF#16 s := by
  rw [storeWord, storeWord, loadWord, evenAddr_evenAddr]
  cases devAt (evenAddr a) with
  | some d => simp only [mergeMask_full]
  | none => cases inMmio (evenAddr a) <;> simp

theorem getLsbD_statusWord_14 (ready ie : Bool) : (statusWord ready ie).getLsbD 14 = ie := by
  simp only [statusWord, BitVec.getLsbD_append]
  simp

/-- Settles O59. -/
theorem deviceRegisters : Obligations.DeviceRegisters := by
  unfold Obligations.DeviceRegisters
  intro s v
  have hkbsr : ∀ v, storeWord 0xFE00#16 v 0xFFFF#16 s = { s with kbd := { s.kbd with ie := v.getLsbD 14 } } := fun v =>
    storeWord_device (d := .kbsr) (by decide) v s
  have hddr : storeWord 0xFE06#16 v 0xFFFF#16 s = devSet .ddr v s := storeWord_device (by decide) v s
  have hicdr : storeWord 0xFE12#16 v 0xFFFF#16 s = devSet .icdr v s := storeWord_device (by decide) v s
  have hupper : storeWord 0xFE01#16 v 0xFF00#16 s
      = storeWord 0xFE00#16 (mergeMask (statusWord s.kbd.ready s.kbd.ie) v 0xFF00#16) 0xFFFF#16 s := by
    rw [storeWord_eq_merged, show evenAddr 0xFE01#16 = 0xFE00#16 by decide, loadWord_kbsr]
  have hlower : storeWord 0xFE00#16 v 0x00FF#16 s
      = storeWord 0xFE00#16 (mergeMask (statusWord s.kbd.ready s.kbd.ie) v 0x00FF#16) 0xFFFF#16 s := by
    rw [storeWord_eq_merged, show evenAddr 0xFE00#16 = 0xFE00#16 by decide, loadWord_kbsr]
  refine ⟨loadWord_kbsr s, hkbsr v, ?kbdr, storeWord_device (d := .kbdr) (by decide) v s, loadWord_dsr s,
    storeWord_device (d := .dsr) (by decide) v s, ?ddr, fun h => hddr.trans (if_pos h), fun h => hddr.trans (if_neg ?busy),
    loadWord_device (d := .iccr) (by decide) s, storeWord_device (d := .iccr) (by decide) v s, fun h => hicdr.trans ?imr,
    fun h => hicdr.trans ?other, loadWord_device (d := .mcr) (by decide) s, storeWord_device (d := .mcr) (by decide) v s,
    fun a m hlow hother => ⟨?reservedLoad, ?reservedStore⟩, fun a m => ⟨loadWord_evenAddr a s, storeWord_eq_merged a v m s⟩,
    hupper.trans ?upper, hlower.trans ?lower⟩
  case kbdr => rw [zero_append_byte]; exact loadWord_kbdr s
  case ddr => rw [zero_append_byte]; exact loadWord_ddr s
  case busy => rw [h]; decide
  case imr => rw [devSet, Pic.writeData, if_pos h]
  case other => rw [devSet, Pic.writeData, if_neg h]
  case reservedLoad => rw [loadWord, devAt_reserved hother]; exact if_pos (inMmio_of_le hlow)
  case reservedStore => rw [storeWord, devAt_reserved hother]; exact if_pos (inMmio_of_le hlow)
  case upper =>
    have hbit : (mergeMask (statusWord s.kbd.ready s.kbd.ie) v 0xFF00#16).getLsbD 14 = v.getLsbD 14 := by simp [mergeMask]
    rw [hkbsr, hbit]
  case lower =>
    have hbit : (mergeMask (statusWord s.kbd.ready s.kbd.ie) v 0x00FF#16).getLsbD 14 = s.kbd.ie := by
      simpa [mergeMask] using getLsbD_statusWord_14 s.kbd.ready s.kbd.ie
    rw [hkbsr, hbit]

/-! ### The loader's block write (20_memory.md R44, R49) -/

theorem inArray_of_lt {a : Word} (h : a.toNat < 0xFE00) : inArray a = true := by
  have hlimit : Memory.limit = 0xFE00 := by decide
  have heven := evenAddr_toNat a
  rw [inArray, Bool.not_eq_true', inMmio_false]
  omega

theorem toNat_add_one {a : Word} (h : a.toNat < 0xFE00) : (a + 1#16).toNat = a.toNat + 1 := by
  rw [BitVec.toNat_add, BitVec.toNat_ofNat]
  omega

/-- Settles O52: byte by byte, each into the lane of its own address. -/
theorem writeBlockPlacesBytes : Obligations.WriteBlockPlacesBytes := by
  unfold Obligations.WriteBlockPlacesBytes
  intro s base bytes hdata hfit x
  induction bytes generalizing s base with
  | nil => rw [dif_neg (by simp)]; rfl
  | cons b bytes ih =>
    rw [List.length_cons] at hfit
    have hin : inArray base = true := inArray_of_lt (by omega)
    have hnext : (base + 1#16).toNat = base.toNat + 1 := toNat_add_one (by omega)
    have hwf := ((dataInv_iff s).1 hdata).1
    have hbyte : Memory.read (writeImmediateByte base b s).mem x = if x = base.toNat then b else Memory.read s.mem x :=
      read_storeWord_lane hwf hin b x
    rw [writeBlock, ih (writeImmediateByte base b s) (base + 1#16) (storeWord_dataInv hdata _ _ _) (by omega), hbyte]
    rcases lt_trichotomy x base.toNat with hlt | rfl | hgt
    · rw [dif_neg (by omega), if_neg (by omega), dif_neg (by omega)]
    · rw [dif_neg (by omega), if_pos rfl, dif_pos ⟨Nat.le_refl _, by simp⟩]
      simp
    · obtain ⟨k, rfl⟩ : ∃ k, x = base.toNat + 1 + k := ⟨x - (base.toNat + 1), by omega⟩
      have hk : base.toNat + 1 + k - base.toNat = k + 1 := by omega
      have hlow : base.toNat ≤ base.toNat + 1 + k := by omega
      have hne : base.toNat + 1 + k ≠ base.toNat := by omega
      simp [hnext, hk, hlow, hne]

end Sys2Proof.Machine
end

section

namespace Sys2Proof.Machine

/-! ### What one tick of the devices and the PIC does (60_exceptions.md R219, R236, R241) -/

theorem kbdLatch_others (s : State) : (kbdLatch s).pic = s.pic ∧ (kbdLatch s).cfg = s.cfg ∧ (kbdLatch s).kbd.ie = s.kbd.ie := by
  rcases kbdLatch_cases s with h | ⟨b, -, h⟩ <;> rw [h] <;> exact ⟨rfl, rfl, rfl⟩

theorem dspSettle_others (s : State) :
    (dspSettle s).pic = s.pic ∧ (dspSettle s).cfg = s.cfg ∧ (dspSettle s).dsp.ie = s.dsp.ie := by
  rw [dspSettle]
  split
  · exact ⟨rfl, rfl, rfl⟩
  · split <;> exact ⟨rfl, rfl, rfl⟩

/-- The controller after a device's tick: a device that is ready, with its interrupt enabled, raises its line. -/
def Pic.raiseIf (c : Pic) (ready ie : Bool) (l : Line) : Pic := if ready && ie then c.raise l else c

theorem kbdTick_eq (s : State) :
    kbdTick s = { kbdLatch s with pic := s.pic.raiseIf (kbdLatch s).kbd.ready s.kbd.ie s.cfg.kbdIrq } := by
  obtain ⟨hpic, hcfg, hie⟩ := kbdLatch_others s
  rw [kbdTick, Pic.raiseIf, hie]
  cases (kbdLatch s).kbd.ready && s.kbd.ie
  · rw [← hpic]; rfl
  · rw [← hpic, ← hcfg]; rfl

theorem dspTick_eq (s : State) :
    dspTick s = { dspSettle s with pic := s.pic.raiseIf (dspSettle s).dsp.ready s.dsp.ie s.cfg.dspIrq } := by
  obtain ⟨hpic, hcfg, hie⟩ := dspSettle_others s
  rw [dspTick, Pic.raiseIf, hie]
  cases (dspSettle s).dsp.ready && s.dsp.ie
  · rw [← hpic]; rfl
  · rw [← hpic, ← hcfg]; rfl

/-- The controller when its own tick comes: both devices have raised what they raise. -/
def State.raised (s : State) : Pic :=
  (s.pic.raiseIf (kbdLatch s).kbd.ready s.kbd.ie s.cfg.kbdIrq).raiseIf (dspSettle s).dsp.ready s.dsp.ie s.cfg.dspIrq

theorem kbdLatch_memTick (s : State) : kbdLatch (memTick s)
    = { memTick s with kbd := (kbdLatch s).kbd, input := (kbdLatch s).input } := by
  have hkey : (memTick s).nextKey = s.nextKey := rfl
  rw [kbdLatch, kbdLatch, hkey]
  cases s.nextKey <;> rfl

/-- The display's first half looks at the display and the sink only. -/
theorem dspSettle_of_eq {s t : State} (hdsp : t.dsp = s.dsp) (hout : t.output = s.output) :
    dspSettle t = { t with dsp := (dspSettle s).dsp, output := (dspSettle s).output } := by
  rw [dspSettle, dspSettle, hdsp, hout]
  cases s.dsp.ready
  · by_cases hzero : s.dsp.settle - 1 = 0
    · simp only [Bool.false_eq_true, if_false, if_pos hzero]
    · simp only [Bool.false_eq_true, if_false, if_neg hzero]
  · simp only [if_true]
    rw [← hdsp, ← hout]

/-- What the PIC's tick finds. -/
theorem before_picTick (s : State) : dspTick (kbdTick (memTick s)) = { memTick s with
    kbd := (kbdLatch s).kbd, input := (kbdLatch s).input, dsp := (dspSettle s).dsp, output := (dspSettle s).output,
    pic := s.raised } := by
  rw [dspTick_eq, dspSettle_of_eq (s := s), kbdTick_eq, kbdLatch_memTick]
  · rfl
  · rw [kbdTick_eq, kbdLatch_memTick]; rfl
  · rw [kbdTick_eq, kbdLatch_memTick]; rfl

theorem devicesTick_eq (s : State) : devicesTick s = { picTick { memTick s with
    kbd := (kbdLatch s).kbd, input := (kbdLatch s).input, dsp := (dspSettle s).dsp, output := (dspSettle s).output,
    pic := s.raised } with ticks := s.ticks + 1 } := by
  have hticks := devicesTick_ticks s
  rw [devicesTick, before_picTick] at hticks ⊢
  exact congrArg (fun n => ({ picTick { memTick s with
    kbd := (kbdLatch s).kbd, input := (kbdLatch s).input, dsp := (dspSettle s).dsp, output := (dspSettle s).output,
    pic := s.raised } with ticks := n } : State)) hticks

theorem devicesTick_devices (s : State) : (devicesTick s).kbd = (kbdLatch s).kbd ∧ (devicesTick s).input = (kbdLatch s).input
    ∧ (devicesTick s).dsp = (dspSettle s).dsp ∧ (devicesTick s).output = (dspSettle s).output := by
  rw [devicesTick_eq]
  obtain ⟨_, _, _, _, h, -⟩ := picTick_shape { memTick s with
    kbd := (kbdLatch s).kbd, input := (kbdLatch s).input, dsp := (dspSettle s).dsp, output := (dspSettle s).output,
    pic := s.raised }
  rw [h]
  exact ⟨rfl, rfl, rfl, rfl⟩

/-- A tick that dispatches: the line's pair is latched. -/
theorem devicesTick_dispatch {s : State} {c : Pic} {v : Vector8} {l : Line}
    (h : s.raised.tick s.intf s.psr.priority = (c, some (v, l))) :
    (devicesTick s).pic = c ∧ (devicesTick s).intf = true ∧ (devicesTick s).intv = v ∧ (devicesTick s).intp = l := by
  rw [devicesTick_eq, picTick_of_tick_some (by exact h)]
  exact ⟨rfl, rfl, rfl, rfl⟩

/-- A tick that dispatches nothing: the latch stays. -/
theorem devicesTick_quiet {s : State} {c : Pic} (h : s.raised.tick s.intf s.psr.priority = (c, none)) :
    (devicesTick s).pic = c ∧ (devicesTick s).intf = s.intf
    ∧ (devicesTick s).intv = s.intv ∧ (devicesTick s).intp = s.intp := by
  have hpic : picTick { memTick s with
      kbd := (kbdLatch s).kbd, input := (kbdLatch s).input, dsp := (dspSettle s).dsp, output := (dspSettle s).output,
      pic := s.raised } = { memTick s with
      kbd := (kbdLatch s).kbd, input := (kbdLatch s).input, dsp := (dspSettle s).dsp, output := (dspSettle s).output,
      pic := c } := by
    have h' : s.raised.tick (memTick s).intf (memTick s).psr.priority = (c, none) := h
    rw [picTick, h']
  rw [devicesTick_eq, hpic]
  exact ⟨rfl, rfl, rfl, rfl⟩

theorem devicesTick_pic (s : State) : (devicesTick s).pic = (s.raised.tick s.intf s.psr.priority).1 := by
  rcases h : s.raised.tick s.intf s.psr.priority with ⟨c, _ | ⟨v, l⟩⟩
  · exact (devicesTick_quiet h).1
  · exact (devicesTick_dispatch h).1

/-! ### Lines that wait (60_exceptions.md R217, R226, R227) -/

theorem Pic.raiseIf_irr_mono {c : Pic} {m : Line} (h : hasLine c.irr m = true) (ready ie : Bool) (l : Line) :
    hasLine (c.raiseIf ready ie l).irr m = true := by
  rw [Pic.raiseIf]
  split
  · rw [Pic.raise_irr_hasLine, h, Bool.true_or]
  · exact h

theorem Pic.raiseIf_isr (c : Pic) (ready ie : Bool) (l : Line) : (c.raiseIf ready ie l).isr = c.isr := by
  rw [Pic.raiseIf]
  split
  · exact (c.raise_others l).1
  · rfl

theorem raised_irr_mono {s : State} {m : Line} (h : hasLine s.pic.irr m = true) : hasLine s.raised.irr m = true :=
  Pic.raiseIf_irr_mono (Pic.raiseIf_irr_mono h _ _ _) _ _ _

theorem raised_isr (s : State) : s.raised.isr = s.pic.isr := by rw [State.raised, Pic.raiseIf_isr, Pic.raiseIf_isr]

theorem devicesTick_latched_pic {s : State} (h : s.intf = true) : (devicesTick s).pic = s.raised := by
  have hquiet : s.raised.tick true s.psr.priority = (s.raised, none) := Pic.tick_of_select_none rfl
  rw [devicesTick_pic, h, hquiet]

/-- While an event is latched the PIC's tick moves nothing, and raising a line only adds requests. -/
theorem devicesTicks_latched_pic {s : State} (h : s.intf = true) (n : Nat) : (devicesTicks n s).pic.isr = s.pic.isr
    ∧ ∀ l : Line, hasLine s.pic.irr l = true → hasLine (devicesTicks n s).pic.irr l = true := by
  induction n with
  | zero => exact ⟨rfl, fun _ => id⟩
  | succ n ih =>
    rw [devicesTicks_succ, devicesTick_latched_pic (devicesTicks_latch h n).1, raised_isr]
    exact ⟨ih.1, fun l hl => raised_irr_mono (ih.2 l hl)⟩

/-- Settles O56. -/
theorem latchedEventIsStable : Obligations.LatchedEventIsStable := by
  unfold Obligations.LatchedEventIsStable
  intro s n h
  obtain ⟨hintf, hintv, hintp⟩ := devicesTicks_latch h n
  obtain ⟨hisr, hirr⟩ := devicesTicks_latched_pic h n
  exact ⟨hintf, hintv, hintp, hisr, hirr⟩

/-! ### The keyboard (60_exceptions.md R236, R237) -/

theorem nextKey_ready {s : State} (h : s.kbd.ready = true) : s.nextKey = none := by rw [State.nextKey, if_pos h]

theorem nextKey_arrived {s : State} {k : Nat} {b : Byte} {rest : List (Nat × Byte)} (h : s.kbd.ready = false)
    (hin : s.input = (k, b) :: rest) (hk : k ≤ s.ticks) : s.nextKey = some b := by
  simp only [State.nextKey, h, hin, Bool.false_eq_true, if_false, if_pos hk]

theorem kbdLatch_ready {s : State} (h : s.kbd.ready = true) : kbdLatch s = s := by rw [kbdLatch, nextKey_ready h]

/-- An unread byte stays, and with it the stream. -/
theorem devicesTicks_unread {s : State} (h : s.kbd.ready = true) (n : Nat) :
    (devicesTicks n s).kbd = s.kbd ∧ (devicesTicks n s).input = s.input := by
  induction n with
  | zero => exact ⟨rfl, rfl⟩
  | succ n ih =>
    obtain ⟨hkbd, hin, -⟩ := devicesTick_devices (devicesTicks n s)
    rw [devicesTicks_succ, hkbd, hin, kbdLatch_ready (by rw [ih.1]; exact h)]
    exact ih

/-- A ready keyboard requests its line in every tick, unless the line is masked or in service. -/
theorem raised_kbd_line {s : State} (hready : (kbdLatch s).kbd.ready = true) (hie : s.kbd.ie = true)
    (himr : hasLine s.pic.imr s.cfg.kbdIrq = false) (hisr : hasLine s.pic.isr s.cfg.kbdIrq = false) :
    hasLine s.raised.irr s.cfg.kbdIrq = true := by
  refine Pic.raiseIf_irr_mono ?_ _ _ _
  rw [Pic.raiseIf, hready, hie, Bool.and_self, if_pos rfl, Pic.raise_irr_hasLine, himr, hisr]
  simp

theorem Pic.select_above {c : Pic} {pending : Bool} {prio l : Line} (h : c.select pending prio = some l) :
    pending = false ∧ prio.toNat < l.toNat := by
  cases pending with
  | true => cases h
  | false =>
    have hl := List.find?_some (by exact h)
    simp only [Bool.and_eq_true, decide_eq_true_eq] at hl
    exact ⟨rfl, hl.2⟩

/-- A requested line is requested after the controller's tick, or in service if the tick dispatched it. -/
theorem Pic.tick_requested {c : Pic} {m : Line} (h : hasLine c.irr m = true) (pending : Bool) (prio : Line) :
    (hasLine (c.tick pending prio).1.irr m = true ∨ hasLine (c.tick pending prio).1.isr m = true)
    ∧ (pending = true ∨ m.toNat ≤ prio.toNat → hasLine (c.tick pending prio).1.irr m = true) := by
  cases hsel : c.select pending prio with
  | none => rw [Pic.tick_of_select_none hsel]; exact ⟨.inl h, fun _ => h⟩
  | some l =>
    obtain ⟨hpending, habove⟩ := Pic.select_above hsel
    rw [Pic.tick_of_select_some hsel]
    by_cases hml : m = l
    · subst hml
      refine ⟨.inr (by simp [Pic.dispatch_isr_hasLine]), fun hstay => ?_⟩
      rcases hstay with hstay | hstay
      · rw [hpending] at hstay; cases hstay
      · omega
    · have hirr : hasLine (c.dispatch l).irr m = true := by simp [Pic.dispatch_irr_hasLine, h, hml]
      exact ⟨.inl hirr, fun _ => hirr⟩

/-- Settles O57. -/
theorem keyboardByteInterrupts : Obligations.KeyboardByteInterrupts := by
  unfold Obligations.KeyboardByteInterrupts
  intro s
  refine ⟨fun k b rest hempty hin hk hb => ?arrives, fun h n => devicesTicks_unread h n, fun hready hie n => ?again⟩
  case arrives =>
    obtain ⟨hkbd, hinput, -⟩ := devicesTick_devices s
    have hlatch : kbdLatch s = { s with input := rest, kbd := { s.kbd with data := b, ready := true } } := by
      rw [kbdLatch, nextKey_arrived hempty hin hk, hin]; rfl
    rw [hlatch] at hkbd hinput
    refine ⟨by rw [hkbd], by rw [hkbd], hinput, fun hie hdsp hirr himr hisr habove hintf => ?_⟩
    have hraised : s.raised = s.pic.raise s.cfg.kbdIrq := by
      rw [State.raised, hlatch, hdsp, hie]
      simp [Pic.raiseIf]
    have hreq : ∀ m, hasLine s.raised.irr m = (m == s.cfg.kbdIrq) := fun m => by
      rw [hraised, Pic.raise_irr_hasLine, hirr, himr, hisr, hasLine_zero]
      simp
    have hselect : s.raised.select false s.psr.priority = some s.cfg.kbdIrq :=
      Pic.select_highest (by rw [hreq]; exact beq_self_eq_true _) habove fun m hm => by
        rw [hreq, beq_eq_false_iff_ne]
        exact fun e => by rw [e] at hm; exact Nat.lt_irrefl _ hm
    have htick := Pic.tick_of_select_some hselect
    rw [← hintf, irqBase_or_line] at htick
    exact (devicesTick_dispatch htick).2
  case again =>
    intro u t himr hisr
    have hu := (devicesTicks_unread hready n).1
    have hcfg : u.cfg = s.cfg := devicesTicks_cfg n s
    have hpsr : u.psr = s.psr := devicesTicks_psr n s
    have hready' : (kbdLatch u).kbd.ready = true := by rw [kbdLatch_ready (by rw [hu]; exact hready), hu]; exact hready
    have hline : hasLine u.raised.irr s.cfg.kbdIrq = true := by
      rw [← hcfg] at himr hisr ⊢
      exact raised_kbd_line hready' (by rw [hu]; exact hie) himr hisr
    have ht : t.pic = (u.raised.tick u.intf s.psr.priority).1 := by rw [← hpsr, ← devicesTick_pic, ← devicesTicks_succ]
    rw [ht]
    exact Pic.tick_requested hline u.intf s.psr.priority

/-! ### The display (60_exceptions.md R240, R241) -/

/-- A ready display stays as it is. -/
theorem devicesTicks_displayReady {s : State} (h : s.dsp.ready = true) (n : Nat) :
    (devicesTicks n s).dsp = s.dsp ∧ (devicesTicks n s).output = s.output := by
  induction n with
  | zero => exact ⟨rfl, rfl⟩
  | succ n ih =>
    obtain ⟨-, -, hdsp, hout⟩ := devicesTick_devices (devicesTicks n s)
    have hidle : dspSettle (devicesTicks n s) = devicesTicks n s := if_pos (by rw [ih.1]; exact h)
    rw [devicesTicks_succ, hdsp, hout, hidle]
    exact ih

/-- A busy display counts down, one a tick. -/
theorem devicesTicks_displayBusy {s : State} (h : s.dsp.ready = false) {n : Nat} (hn : n < s.dsp.settle) :
    (devicesTicks n s).dsp = { s.dsp with settle := s.dsp.settle - n } ∧ (devicesTicks n s).output = s.output := by
  induction n with
  | zero => exact ⟨rfl, rfl⟩
  | succ n ih =>
    obtain ⟨ihdsp, ihout⟩ := ih (by omega)
    obtain ⟨-, -, hdsp, hout⟩ := devicesTick_devices (devicesTicks n s)
    have hcount : s.dsp.settle - n - 1 ≠ 0 := by omega
    have hsettle : dspSettle (devicesTicks n s) = { devicesTicks n s with
        dsp := { s.dsp with settle := s.dsp.settle - n - 1 } } := by
      simp only [dspSettle, ihdsp, h, Bool.false_eq_true, if_false, if_neg hcount]
    rw [devicesTicks_succ, hdsp, hout, hsettle]
    exact ⟨rfl, ihout⟩

/-- On the tick that brings the count to 0 the byte is emitted, and the display is ready from then on. -/
theorem devicesTicks_displayEmits {s : State} (h : s.dsp.ready = false) (hpos : 1 ≤ s.dsp.settle) {n : Nat}
    (hn : s.dsp.settle ≤ n) : (devicesTicks n s).output = s.output ++ [s.dsp.data] ∧ (devicesTicks n s).dsp.ready = true := by
  obtain ⟨m, rfl⟩ : ∃ m, n = (s.dsp.settle - 1 + 1) + m := ⟨n - s.dsp.settle, by omega⟩
  obtain ⟨hbusy, hsilent⟩ := devicesTicks_displayBusy h (n := s.dsp.settle - 1) (by omega)
  obtain ⟨-, -, hdsp, hout⟩ := devicesTick_devices (devicesTicks (s.dsp.settle - 1) s)
  have hcount : s.dsp.settle - (s.dsp.settle - 1) - 1 = 0 := by omega
  have hsettle : dspSettle (devicesTicks (s.dsp.settle - 1) s) = { devicesTicks (s.dsp.settle - 1) s with
      output := s.output ++ [s.dsp.data], dsp := { s.dsp with settle := 0, ready := true } } := by
    simp only [dspSettle, hbusy, hsilent, h, Bool.false_eq_true, if_false, if_pos hcount]
  have hready : (devicesTicks (s.dsp.settle - 1 + 1) s).dsp.ready = true := by rw [devicesTicks_succ, hdsp, hsettle]
  have hbyte : (devicesTicks (s.dsp.settle - 1 + 1) s).output = s.output ++ [s.dsp.data] := by rw [devicesTicks_succ, hout, hsettle]
  obtain ⟨hstay, hkept⟩ := devicesTicks_displayReady hready m
  rw [devicesTicks_add, hstay, hkept]
  exact ⟨hbyte, hready⟩

theorem storeWord_ddr {s : State} (h : s.dsp.ready = true) (v : Word) : storeWord 0xFE06#16 v 0xFFFF#16 s
    = { s with dsp := { s.dsp with data := Word.lowByte v, settle := s.cfg.dspDelay, ready := false } } :=
  (storeWord_device (d := .ddr) (by decide) v s).trans (if_pos h)

theorem Pic.raiseIf_eq (c : Pic) (ready ie : Bool) (l : Line) :
    c.raiseIf ready ie l = if ready = true ∧ ie = true then c.raise l else c := by
  rw [Pic.raiseIf]
  cases ready <;> cases ie <;> rfl

/-- Settles O58. -/
theorem displayEmitsAfterItsDelay : Obligations.DisplayEmitsAfterItsDelay := by
  unfold Obligations.DisplayEmitsAfterItsDelay
  intro s
  refine ⟨fun v n hready hdelay => ?emits, fun _ => ?lines⟩
  case emits =>
    rw [storeWord_ddr hready]
    refine ⟨fun hn => ?_, fun hn => devicesTicks_displayEmits rfl hdelay hn⟩
    obtain ⟨hdsp, hout⟩ := devicesTicks_displayBusy (s := { s with
      dsp := { s.dsp with data := Word.lowByte v, settle := s.cfg.dspDelay, ready := false } }) rfl hn
    exact ⟨hout, by rw [hdsp]⟩
  case lines =>
    intro t k d r
    obtain ⟨hkbd, -, hdsp, -⟩ := devicesTick_devices s
    have hraised : s.raised = d := by
      rw [State.raised, ← hkbd, ← hdsp, Pic.raiseIf_eq, Pic.raiseIf_eq]
    have htick : s.raised.tick s.intf s.psr.priority = r := by rw [hraised]
    refine ⟨by rw [hkbd]; exact (kbdLatch_others s).2.2, by rw [hdsp]; exact (dspSettle_others s).2.2,
      by rw [← htick]; exact devicesTick_pic s, fun v l h => ?_, fun h => ?_⟩
    · exact (devicesTick_dispatch (htick.trans (Prod.ext rfl h))).2
    · exact (devicesTick_quiet (htick.trans (Prod.ext rfl h))).2

end Sys2Proof.Machine
end

section

namespace Sys2Proof.Machine

/-! ### The first step after the loader (70_reset_and_hazards.md R267) -/

/-- A block below the device range changes memory and nothing else. -/
theorem writeBlock_eq (base : Word) (bytes : List Byte) (s : State) (hfit : base.toNat + bytes.length ≤ 0xFE00) :
    writeBlock base bytes s = { s with mem := (writeBlock base bytes s).mem } := by
  induction bytes generalizing s base with
  | nil => rfl
  | cons b bytes ih =>
    rw [List.length_cons] at hfit
    have hnext : (base + 1#16).toNat = base.toNat + 1 := toNat_add_one (by omega)
    have hbyte := storeWord_array s (inArray_of_lt (a := base) (by omega)) (b ++ b) (laneMask base)
    have hrest := ih (base + 1#16) (writeImmediateByte base b s) (by omega)
    rw [writeBlock, hrest, writeImmediateByte, hbyte]

/-- What the loader's steps leave for one block below the device range. -/
theorem launch_eq (base : Word) (bytes : List Byte) (pc : Word) (x : Regs) (ssp usp : Word) (q : Psr) (s : State)
    (hfit : base.toNat + bytes.length ≤ 0xFE00) : launch [(base, bytes)] pc x ssp usp q s = { hostReset s with
      mem := (writeBlock base bytes (hostReset s)).mem, pc := pc, regs := x, ssp := ssp, usp := usp, psr := q,
      mcr := Config.clockEnable } := by
  have hblock : writeBlocks [(base, bytes)] (hostReset s) = writeBlock base bytes (hostReset s) := rfl
  rw [launch, writeImmediate, storeWord_mcr (by decide), hblock, writeBlock_eq base bytes _ hfit]

/-- With an empty stream at the keyboard and the interrupts as a reset leaves them, a tick latches no event. -/
theorem devicesTick_no_event {s : State} (hkbd : s.kbd.ready = false) (hin : s.input = []) (hdsp : s.dsp.ie = false)
    (hirr : s.pic.irr = 0#8) (hintf : s.intf = false) : (devicesTick s).intf = false := by
  have hkey : s.nextKey = none := by simp only [State.nextKey, hkbd, hin, Bool.false_eq_true, if_false]
  have hlatch : kbdLatch s = s := by rw [kbdLatch, hkey]
  have hraised : s.raised = s.pic := by
    rw [State.raised, hlatch, hkbd, hdsp]
    simp [Pic.raiseIf]
  have hquiet : s.raised.tick s.intf s.psr.priority = (s.raised, none) :=
    Pic.tick_of_select_none (Pic.select_none _ fun l _ => by rw [hraised, hirr]; exact hasLine_zero l)
  exact (devicesTick_quiet hquiet).2.1.trans hintf

/-- The two bytes of an instruction, read back where the loader placed them. -/
theorem read_placed_instruction {s : State} (hdata : s.dataInv = true) {pc : Word} (hlow : pc.toNat + 2 ≤ 0xFE00) (i : Instr) :
    Memory.read (writeBlock pc (encode i) s).mem pc.toNat = Word.lowByte (encodeWord i)
    ∧ Memory.read (writeBlock pc (encode i) s).mem (pc.toNat + 1) = Word.highByte (encodeWord i) := by
  have hread := writeBlockPlacesBytes s pc (encode i) hdata hlow
  refine ⟨(hread pc.toNat).trans ?_, (hread (pc.toNat + 1)).trans ?_⟩
  · simp [encode]
  · simp [encode]

/-- Settles O53. -/
theorem loadedInstructionRunsFirst : Obligations.LoadedInstructionRunsFirst := by
  unfold Obligations.LoadedInstructionRunsFirst
  intro s i pc x ssp usp q hdata hin heven hlow
  have hpc : (evenAddr pc).toNat = pc.toNat := by
    have hmod := toNat_mod_two pc
    rw [isOdd, heven] at hmod
    rw [evenAddr_toNat]
    simp at hmod
    omega
  have hfit : pc.toNat + 2 ≤ 0xFE00 := by
    rw [evenAddr_toNat] at hpc
    omega
  obtain ⟨-, -, hreset⟩ := (inv_iff _).1 (hostReset_inv hdata)
  obtain ⟨hbyte0, hbyte1⟩ := read_placed_instruction hreset hfit i
  let t : State := { hostReset s with
    mem := (writeBlock pc (encode i) (hostReset s)).mem, pc := pc, regs := x, ssp := ssp, usp := usp, psr := q,
    mcr := Config.clockEnable }
  have hrun : t.runs = true := by
    have hclock : t.clockOn = true := by show (Config.clockEnable).getLsbD 15 = true; decide
    have hcfg : t.cfg.wellFormed = true := ((dataInv_iff s).1 hdata).2.2.2
    have hstream : t.noBreak = true := by show s.input.all _ = true; rw [hin]; rfl
    rw [State.runs, hclock, hcfg, hstream]; rfl
  have hquiet : (devicesTick t).intf = false := devicesTick_no_event rfl hin rfl rfl rfl
  have hidle : t.memIdle = true := rfl
  have hstate : isFetchState t.ustate = true := by show isFetchState 18#6 = true; decide
  have hfetch : t.fetches = true := by rw [State.fetches, State.atFetch, hrun, hidle, hstate, hquiet]; rfl
  have hword : encodeWord i = Memory.readWord t.mem (evenAddr pc) := by
    rw [Memory.readWord, hpc, hbyte0, hbyte1, wordOfBytes_lanes]
  have hdecode : decode [Memory.read t.mem (evenAddr pc).toNat, Memory.read t.mem ((evenAddr pc).toNat + 1)] = .ok (i, []) := by
    rw [hpc, hbyte0, hbyte1, decode, wordOfBytes_lanes, decodeWord_encodeWord]
  rw [launch_eq pc (encode i) pc x ssp usp q s hfit]
  refine ⟨_, stepRunsDecodedInstruction t i (encodeWord i) hfetch (inArray_of_lt hlow) hword hdecode,
    ?_, ?_, rfl, ?_, ?_, rfl, ?_, ?_⟩
  · exact devicesTicks_regs _ t
  · exact devicesTicks_psr _ t
  · exact devicesTicks_ssp _ t
  · exact devicesTicks_usp _ t
  · exact devicesTicks_runs hrun _
  · show (!(devicesTicks _ t).rdEn && !(devicesTicks _ t).wrEn) = true
    rw [devicesTicks_rdEn, devicesTicks_wrEn]
    rfl

end Sys2Proof.Machine
end
